-- ==== Sys2Proof/Word.lean ====
section
/-!
DEFINITION. The word types of DPP-SPI (rules R9, R15, R46, R90): bytes, the 32-bit command word, the 4-bit slot field
and the 10-bit response word. Bit 0 is the least significant bit of every value (rule R15).
-/
namespace Sys2Proof

/-- One byte, `BYTE_BITS = 8` (rule R9): every register, buffer element and wire byte. -/
abbrev Byte := BitVec 8

/-- One host command word (rule R82). -/
abbrev Word := BitVec 32

/-- The handle field `h` of a command word (rules R82, R90). -/
abbrev Slot := BitVec 4

/-- One response word, `st ++ val` (rule R91). -/
abbrev Response := BitVec 10

end Sys2Proof
end

