-- ==== Sys2Proof/Syntax.lean ====
section
/-!
DEFINITION. The nine host-issuable operations (rules R81, R83, R84), one constructor per row of spec/opcode_table.json,
with the operand widths of rules R85 to R90. Every operand is as wide as its field, so nothing an encoding cannot
hold can be written.
-/
namespace Sys2Proof

/-- One operation, its slot `h` first and its operands in the order `a`, `b`, `c` (rule R103). -/
inductive Instr where
  /-- `CONSTRUCT_PIN h, pin` (rule R111). -/
  | constructPin (h : Slot) (pin : Byte)
  /-- `CONSTRUCT_EXPLICIT h, regid, pinIndex, invert` (rule R112). -/
  | constructExplicit (h : Slot) (regid pinIndex : Byte) (invert : Bool)
  /-- `BEGIN h` (rule R117). -/
  | begin (h : Slot)
  /-- `IS_CONNECTED h` (rule R113). -/
  | isConnected (h : Slot)
  /-- `COMMAND h, cmd` (rule R135). -/
  | command (h : Slot) (cmd : Byte)
  /-- `WRITE1 h, reg, value` (rule R140). -/
  | write1 (h : Slot) (reg value : Byte)
  /-- `WRITEN h, reg, len` (rule R137); the payload is `BUF[0..len-1]`. -/
  | writeN (h : Slot) (reg len : Byte)
  /-- `READ1 h, reg` (rule R141). -/
  | read1 (h : Slot) (reg : Byte)
  /-- `READN h, reg, len` (rule R138); the result goes to `BUF[0..len-1]`. -/
  | readN (h : Slot) (reg len : Byte)
  deriving DecidableEq, Repr

/-- The slot an operation acts on (rule R90). -/
def Instr.slot : Instr → Slot
  | .constructPin h _ => h
  | .constructExplicit h _ _ _ => h
  | .begin h => h
  | .isConnected h => h
  | .command h _ => h
  | .write1 h _ _ => h
  | .writeN h _ _ => h
  | .read1 h _ => h
  | .readN h _ _ => h

/-- Whether an operation is one of the two constructors (rule R104 clauses (d) and (e)). -/
def Instr.isConstructor : Instr → Bool
  | .constructPin _ _ => true
  | .constructExplicit _ _ _ _ => true
  | .begin _ => false
  | .isConnected _ => false
  | .command _ _ => false
  | .write1 _ _ _ => false
  | .writeN _ _ _ => false
  | .read1 _ _ => false
  | .readN _ _ _ => false

end Sys2Proof
end

