-- ==== Sys2Proof/Decode.lean ====
section
/-!
DEFINITION. The command word (rules R82, R84 to R90, R104, R106): the decoder, total on all 2^32 words and rejecting by
name, and after it the encoder written from the same format rules. The two checks that need the machine (slot count,
`constructed` bit) are the host port's, Machine/Ops.lean.
-/
namespace Sys2Proof

/-- `op = CMD[31:28]` (rule R82). -/
def fieldOp (w : Word) : BitVec 4 := w.extractLsb' 28 4
/-- `h = CMD[27:24]` (rule R82). -/
def fieldH (w : Word) : Slot := w.extractLsb' 24 4
/-- `a = CMD[23:16]` (rule R82). -/
def fieldA (w : Word) : Byte := w.extractLsb' 16 8
/-- `b = CMD[15:8]` (rule R82). -/
def fieldB (w : Word) : Byte := w.extractLsb' 8 8
/-- `c = CMD[7:0]` (rule R82). -/
def fieldC (w : Word) : Byte := w.extractLsb' 0 8

/-- Why a word spells no operation, whatever the machine's state (rule R104 clauses (a) and (c)). -/
inductive WordError where
  /-- `op` is 0x9 to 0xF (clause (a)). -/
  | reservedOp
  /-- An operand field the format does not use is non-zero (clause (c)). -/
  | unusedField
  deriving DecidableEq, Repr

/-- Format Z: no operand (rule R85). -/
def decodeZ (w : Word) (i : Instr) : Except WordError Instr :=
  if fieldA w = 0 ∧ fieldB w = 0 ∧ fieldC w = 0 then .ok i else .error .unusedField

/-- Format A: one byte operand (rule R86). -/
def decodeA (w : Word) (i : Byte → Instr) : Except WordError Instr :=
  if fieldB w = 0 ∧ fieldC w = 0 then .ok (i (fieldA w)) else .error .unusedField

/-- Format AB: two byte operands (rule R87). -/
def decodeAB (w : Word) (i : Byte → Byte → Instr) : Except WordError Instr :=
  if fieldC w = 0 then .ok (i (fieldA w) (fieldB w)) else .error .unusedField

/-- Format ABC: explicit construction; `c[0]` is `invert`, `c[7:1]` is zero (rule R88). -/
def decodeABC (w : Word) (i : Byte → Byte → Bool → Instr) : Except WordError Instr :=
  if (fieldC w).extractLsb' 1 7 = 0 then .ok (i (fieldA w) (fieldB w) ((fieldC w).getLsbD 0))
  else .error .unusedField

/-- The decoder (rules R82, R84). -/
def decode (w : Word) : Except WordError Instr :=
  let h := fieldH w
  match (fieldOp w).toNat with
  | 0 => decodeA w (.constructPin h)
  | 1 => decodeABC w (.constructExplicit h)
  | 2 => decodeZ w (.begin h)
  | 3 => decodeZ w (.isConnected h)
  | 4 => decodeA w (.command h)
  | 5 => decodeAB w (.write1 h)
  | 6 => decodeAB w (.writeN h)
  | 7 => decodeA w (.read1 h)
  | 8 => decodeAB w (.readN h)
  | _ => .error .reservedOp

/-- The command word of the given fields, `op ++ h ++ a ++ b ++ c` (rule R82). -/
def packWord (op : BitVec 4) (h : Slot) (a b c : Byte) : Word := op ++ h ++ a ++ b ++ c

/-- The encoder (rules R84 to R88). -/
def encode : Instr → Word
  | .constructPin h pin => packWord 0x0 h pin 0 0
  | .constructExplicit h regid pinIndex invert =>
      packWord 0x1 h regid pinIndex ((BitVec.ofBool invert).setWidth 8)
  | .begin h => packWord 0x2 h 0 0 0
  | .isConnected h => packWord 0x3 h 0 0 0
  | .command h cmd => packWord 0x4 h cmd 0 0
  | .write1 h reg value => packWord 0x5 h reg value 0
  | .writeN h reg len => packWord 0x6 h reg len 0
  | .read1 h reg => packWord 0x7 h reg 0 0
  | .readN h reg len => packWord 0x8 h reg len 0

/-- The instruction the decoder reads from a word given by the opcode table's bit numbers: the bits above `nbits` are
zero; every command word is 32 bits, moved whole (rules R58, R106). -/
def decodeTableWord (nbits w : Nat) : Option Instr :=
  match decode (BitVec.ofNat 32 (w % 2 ^ nbits)) with
  | .ok i => some i
  | .error _ => none

end Sys2Proof
end

