-- ==== Sys2Proof/Config.lean ====
section
/-!
DEFINITION. The parameters of DPP-SPI (rules R10 to R13), which a build fixes and no step changes, and the test
platform TP of 95_test_vectors.md section 1, the one assignment the spec itself writes out.
-/
namespace Sys2Proof

/-- One GPIO bank of `BANKS` (rule R10): its token and the 8-bit ids of its two registers. -/
structure Bank where
  token : Nat
  outId : Byte
  dirId : Byte
  deriving DecidableEq, Repr

/-- One mapped row of `PIN_TABLE` (rule R10): the logical pin, its bank's token and its single-bit mask. -/
structure PinEntry where
  pin  : Byte
  bank : Nat
  mask : Byte
  deriving DecidableEq, Repr

/-- Every parameter the source or the spec leaves OPEN (rules R10 to R13). `pinTable` is the total function
`PIN_TABLE` as a list: the first row of a pin is its mapping, a pin without a row is `NotAPin` (log entry 9). -/
structure Config where
  banks        : List Bank
  dirOffset    : Int
  pinTable     : List PinEntry
  busOutPins   : List (Nat × Nat)
  fBase        : Nat
  fSpi         : Nat
  lsbFirst     : Bool
  cpol         : Bool
  cpha         : Bool
  timeoutUs    : Nat
  readSettleUs : Nat
  readTailUs   : Nat
  timeBits     : Nat
  nHandles     : Nat
  sinkPresent  : Bool
  deriving DecidableEq, Repr

/-- The tokens of the four banks of TP. -/
abbrev Config.bankA : Nat := 0
abbrev Config.bankB : Nat := 1
abbrev Config.bankC : Nat := 2
abbrev Config.bankD : Nat := 3

/-- The rows of `n` consecutive logical pins from `first` on, on bits 0, 1, … of one bank. -/
def Config.pinRows (first bank n : Nat) : List PinEntry :=
  (List.range n).map fun i => { pin := BitVec.ofNat 8 (first + i), bank := bank, mask := 1#8 <<< i }

/-- The test platform TP (95_test_vectors.md section 1). One assignment of the open parameters, the spec's own
choice and no part of the hardware; `State.reset` runs on it (DESIGN CHOICE, log entry 2). -/
def Config.tp : Config where
  banks        := [⟨Config.bankA, 0x22, 0x21⟩, ⟨Config.bankB, 0x25, 0x24⟩,
                   ⟨Config.bankC, 0x28, 0x27⟩, ⟨Config.bankD, 0x2B, 0x2A⟩]
  dirOffset    := -1
  pinTable     := Config.pinRows 0 Config.bankD 8 ++ Config.pinRows 8 Config.bankB 6
                    ++ Config.pinRows 14 Config.bankC 6
  busOutPins   := [(Config.bankB, 5), (Config.bankB, 3), (Config.bankB, 2)]
  fBase        := 16000000
  fSpi         := 4000000
  lsbFirst     := false
  cpol         := false
  cpha         := false
  timeoutUs    := 100
  readSettleUs := 5
  readTailUs   := 1
  timeBits     := 32
  nHandles     := 4
  sinkPresent  := true

end Sys2Proof
end

