-- ==== Sys2Proof/Machine/State.lean ====
section
/-!
DEFINITION. The state of DPP-SPI (rules R23 to R46), the faults and refusals of a step, and the reset state (rules R48,
R171). The agents' future choices (HOST's actions, LINK's and TIME's steps, rule R8) stand in State as plain data.
-/
namespace Sys2Proof.Machine

/-- One space of one-byte locations (rules R53 to R56), in canonical form: addresses strictly rising, and no entry
equal to what an unlisted address reads as (`Memory.unlisted`, Machine/Ops.lean). -/
abbrev Memory := List Host.Cell

/-- One handle slot `H[h]` (rules R24 to R29). -/
structure Handle where
  /-- A handle has been constructed here since reset (rule R25). -/
  constructed : Bool
  /-- The bank token, or `none` (rule R26). -/
  bank        : Option Nat
  /-- The pin index, 8 bits; 8 or more only in an invalid handle (rule R27). -/
  pin         : Byte
  /-- The source's `isValid` (rule R28). -/
  valid       : Bool
  /-- The source's `invertPolarity` (rule R29). -/
  invert      : Bool
  deriving DecidableEq, Repr

/-- A slot without a handle; the fields rule R48 leaves unspecified hold the values of log entry 3. -/
def Handle.empty : Handle := ⟨false, none, 0, false, false⟩

/-- The SPI registers and the hidden state of the link (rules R34 to R39). `SPI.STATUS` is the view `Spi.status` of
`done`, `coll` and `dbl` (Machine/Flags.lean); `SPI.DATA` has the two faces `rxd` and `xfer` (rule R36). -/
structure Spi where
  /-- `SPI.CTRL` (rule R34). -/
  ctrl    : Byte
  /-- `SPI.STATUS[7]`, the completion flag (rules R35, R37). -/
  done    : Bool
  /-- `SPI.STATUS[6]`, the write-collision flag (rules R35, R37). -/
  coll    : Bool
  /-- `SPI.STATUS[0]`, the double-speed flag (rule R35). -/
  dbl     : Bool
  /-- `SPI.RXD`, the byte of the last completed transfer (rule R36). -/
  rxd     : Byte
  /-- `SPI.xfer`: `none`, or `some tx` for `InFlight(tx)` (rule R38). -/
  xfer    : Option Byte
  /-- `SPI.armDone` (rule R39). -/
  armDone : Bool
  /-- `SPI.armColl` (rule R39). -/
  armColl : Bool
  deriving DecidableEq, Repr

/-- The per-transaction state machine `ENG.txn` (rule R44). -/
inductive Txn where
  | idle
  | selected (h : Slot)
  deriving DecidableEq, Repr

/-- Which exchange of a transaction is under way: the command byte's, or byte `ENG.idx`'s (rules R137, R139). -/
inductive Exchange where
  | cmd
  | byte
  deriving DecidableEq, Repr

/-- The label of ENGINE's next micro-step inside an operation: each names ONE primitive call of the pseudocode
(rules R17, R45), and carries the pseudocode's local values that are still needed. -/
inductive Label where
  /-- `BEGIN`: `Diag("badCs")` (rule R117). -/
  | badCs
  /-- `configureChipSelect`: `SetBit(GPIO.DIR[k], b)` (rule R118). -/
  | csDir
  /-- `configureChipSelect`: `SetBit(GPIO.OUT[k], b)` (rule R118). -/
  | csOut
  /-- `initializeOnce`: `SetBit` of `BUS_OUT_PINS[n]` (rule R120). -/
  | busPin (n : Nat)
  /-- `initializeOnce`: `MemWrite(SPI.CTRL, 1, ctrlWord)` (rule R124). -/
  | ctrl
  /-- `initializeOnce`: `MemWrite(SPI.STATUS, 1, statusWord)` (rule R124). -/
  | status
  /-- `select(h)` (rule R130). -/
  | select
  /-- `WRITEN`: `MemRead(BUF[i], 1)` (rule R137). -/
  | load
  /-- `exchangeByte(v)`: `MemWrite(SPI.DATA, 1, v)` (rule R133). -/
  | send (x : Exchange) (v : Byte)
  /-- `exchangeByte`: `t0 <- Now()`. -/
  | sample (x : Exchange)
  /-- `exchangeByte`: `s <- MemRead(SPI.STATUS, 1)`. -/
  | poll (x : Exchange)
  /-- `exchangeByte`: `r <- MemRead(SPI.DATA, 1)`. -/
  | receive (x : Exchange)
  /-- `exchangeByte`: `n <- Now()`. -/
  | clock (x : Exchange)
  /-- `exchangeByte`: `Diag("timeout")`. -/
  | timedOut
  /-- `READN`: `MemWrite(BUF[i], 1, r)` (rule R138). -/
  | store (r : Byte)
  /-- `Delay(READ_SETTLE_US)`: `s <- Now()` (rules R132, R139). -/
  | settleStart
  /-- `Delay(READ_SETTLE_US)`: `n <- Now()`. -/
  | settleWait
  /-- `Delay(READ_TAIL_US)`: `s <- Now()`. -/
  | tailStart
  /-- `Delay(READ_TAIL_US)`: `n <- Now()`. -/
  | tailWait
  /-- `unselect(h)`, with the result of the transaction (rules R131, R136). -/
  | unselect (ok : Bool)
  deriving DecidableEq, Repr

/-- `ENG.phase` (rule R45): the port is ready, or the operation `op` is under way and `l` is its next micro-step.
The operation is kept because ENGINE reads `CMD` once, at the start (rule R78; log entry 8). -/
inductive Phase where
  | ready
  | busy (op : Instr) (l : Label)
  deriving DecidableEq, Repr

/-- The sequencer (rules R44, R45), the block's analogue of a program counter. -/
structure Eng where
  phase : Phase
  txn   : Txn
  /-- `ENG.idx`, the byte loop's index. -/
  idx   : Nat
  /-- `ENG.t0`, the sample a poll loop or a delay measures from. -/
  t0    : Nat
  /-- `ENG.cur`, the slot of the running operation. -/
  cur   : Slot
  /-- `READ1`'s private one-byte buffer `tmp` (rule R141). -/
  tmp   : Option Byte
  deriving DecidableEq, Repr

/-- A diagnostic tag (rules R43, R98). -/
inductive Tag where
  | badCs
  | timeout
  deriving DecidableEq, Repr

/-- An event of the wire trace `W` (rule R80). -/
inductive WireEvent where
  | csLow (h : Slot)
  | csHigh (h : Slot)
  | start (tx : Byte)
  | done (tx r : Byte)
  | collide (v : Byte)
  deriving DecidableEq, Repr

/-- What the agents beside HOST do next (rule R8): ENGINE's micro-step, LINK's only step with the byte it draws
(rule R66), TIME's only step with the amount it draws (rule R163); `stall` says that from here on neither LINK nor TIME
takes another step, the run without fairness of rule R189 (log entries 15, 16). -/
inductive Turn where
  | engine
  | link (r : Byte)
  | time (d : Nat)
  | stall
  deriving DecidableEq, Repr

/-- What HOST does when the port is ready (rules R8, R51, R192): issue a word, fill one byte of `BUF`, or wait while
another agent takes a turn (log entries 23, 24). -/
inductive HostAct where
  | issue (w : Word)
  | fill (i : Fin 255) (v : Byte)
  | wait
  deriving DecidableEq, Repr

/-- A fault of a step. DPP-SPI has no machine error that stops it (93_implementation_defined.md, after U26); the one
stuck state is the hang. -/
inductive Fault where
  /-- Raised by `complete`, so by any operation and by a step that resumes one: LINK and TIME have stalled
  (`Turn.stall`), or no elapsed time can exceed the bound (`TIMEOUT_US = 2^TIME_BITS - 1`) and LINK is silent, so ENGINE
  polls or delays for ever and the operation never responds (rules R19, R163, R189; U24 `stuck`). Safe: no state is
  claimed after it. -/
  | hang
  deriving DecidableEq, Repr

/-- A refusal of a step. -/
inductive Refusal where
  /-- Raised by exec's arm of an instruction that has no meaning yet (none in this model). Safe. -/
  | notModelled (mnemonic : String)
  /-- Raised by every operation and every step: the parameters fail `WF`, "it is not a machine, so no claim speaks
  of it" (rules R14, R19; log entry 14). Safe. -/
  | notAConfiguration
  /-- Raised by an operation issued while another runs: HOST cannot do so (rules R46, R177; U26 `refuse`; log
  entry 13). Safe. -/
  | portBusy
  deriving DecidableEq, Repr

/-- The state of DPP-SPI (rule R23), with the parameters it runs on (fixed; log entry 1), the wire trace (rule R80) and
the agents' future choices (the model's own, log entry 4). -/
structure State where
  /-- The parameters (rules R10 to R13); no step changes them (rule R49). -/
  cfg     : Config
  /-- `H[0..15]` (rule R24); the slots below `N_HANDLES` are the hardware's. -/
  handles : Vector Handle 16
  /-- `GPIO.OUT[k]`, keyed by bank token (rule R31). -/
  gpioOut : Memory
  /-- `GPIO.DIR[k]`, keyed by bank token (rule R32). -/
  gpioDir : Memory
  /-- The SPI registers and the link (rules R34 to R39). -/
  spi     : Spi
  /-- `BUS.init` (rule R40). -/
  busInit : Bool
  /-- `BUF[0..254]` (rule R41). -/
  buf     : Memory
  /-- `T`, the microsecond counter (rule R42). -/
  time    : Nat
  /-- `DIAG`, oldest tag first (rule R43). -/
  diag    : List Tag
  /-- `W`, the wire trace, oldest event first (rule R80). -/
  trace   : List WireEvent
  /-- `ENG.*` (rules R44, R45). -/
  eng     : Eng
  /-- `CMD` (rule R46). -/
  cmd     : Word
  /-- `RSP` (rules R46, R91). -/
  rsp     : Response
  /-- HOST's future actions. -/
  host    : List HostAct
  /-- The turns of ENGINE, LINK and TIME to come, in order, with their draws; after the last one LINK is silent and
  TIME is fair (log entry 5). -/
  sched   : List Turn
  deriving DecidableEq, Repr

/-- The SPI registers and the link after reset (rule R48); `rxd` is unspecified there and holds RS0's value. -/
def Spi.reset : Spi := ⟨0x00, false, false, false, 0x00, none, false, false⟩

/-- The sequencer after reset: `Ready`, `Idle` (rule R48); the rest is unspecified there (log entry 3). -/
def Eng.reset : Eng := ⟨.ready, .idle, 0, 0, 0, none⟩

/-- The machine right after reset (rules R48, R171, R172), on the test platform TP (log entry 2), every element the
spec leaves unspecified at the value of its reset instance RS0 or zero (log entry 3). No program, no turn. -/
def State.reset : State where
  cfg     := Config.tp
  handles := Vector.replicate 16 Handle.empty
  gpioOut := []
  gpioDir := []
  spi     := Spi.reset
  busInit := false
  buf     := []
  time    := 1000
  diag    := []
  trace   := []
  eng     := Eng.reset
  cmd     := 0
  rsp     := 0
  host    := []
  sched   := []

end Sys2Proof.Machine
end

