-- ==== Sys2Proof/Machine/Flags.lean ====
section
/-!
DEFINITION. The SPI registers' accesses and their flag effects (rules R60 to R66): everything that reads, sets, arms or
clears `DONE` and `COLL`. DPP-SPI has no other flag (rule R37).
-/
namespace Sys2Proof.Machine

/-- The enable bit `SPI.CTRL[6]` (rule R34). -/
def Spi.enabled (p : Spi) : Bool := p.ctrl.getLsbD 6

/-- The master-mode bit `SPI.CTRL[4]` (rule R34). -/
def Spi.master (p : Spi) : Bool := p.ctrl.getLsbD 4

/-- `MemRead(SPI.CTRL, 1)` (rule R60); bit 7 reads 0 (rule R34). No operation performs it. -/
def Spi.readCtrl (p : Spi) : Byte := p.ctrl &&& 0x7F#8

/-- `MemWrite(SPI.CTRL, 1, v)` (rule R60). -/
def Spi.writeCtrl (p : Spi) (v : Byte) : Spi := { p with ctrl := v &&& 0x7F#8 }

/-- What `MemRead(SPI.STATUS, 1)` returns: `DONE ++ COLL ++ 0b00000 ++ DBL` (rules R35, R61). -/
def Spi.status (p : Spi) : Byte :=
  BitVec.ofBool p.done ++ BitVec.ofBool p.coll ++ (0 : BitVec 5) ++ BitVec.ofBool p.dbl

/-- The side effect of `MemRead(SPI.STATUS, 1)`: it arms the flags it saw (rule R61). -/
def Spi.arm (p : Spi) : Spi :=
  { p with armDone := p.armDone || p.done, armColl := p.armColl || p.coll }

/-- `MemWrite(SPI.STATUS, 1, v)`: only `DBL` changes (rule R62). -/
def Spi.writeStatus (p : Spi) (v : Byte) : Spi := { p with dbl := v.getLsbD 0 }

/-- `ClearArmedFlags()` (rule R65). -/
def Spi.clearArmed (p : Spi) : Spi :=
  { p with done := p.done && !p.armDone, coll := p.coll && !p.armColl, armDone := false, armColl := false }

/-- The side effect of `MemRead(SPI.DATA, 1)`; the value returned is `rxd` (rule R63). -/
def Spi.readData (p : Spi) : Spi := p.clearArmed

/-- `MemWrite(SPI.DATA, 1, v)` (rule R64): clear the armed flags; then nothing when disabled or not master, a started
transfer when none is in flight, a collision otherwise. -/
def Spi.writeData (p : Spi) (v : Byte) : Spi :=
  let q := p.clearArmed
  if q.enabled && q.master then
    match q.xfer with
    | none => { q with xfer := some v }
    | some _ => { q with coll := true }
  else q

/-- The wire events of `MemWrite(SPI.DATA, 1, v)` (rule R80). -/
def Spi.writeEvents (p : Spi) (v : Byte) : List WireEvent :=
  if p.enabled && p.master then
    match p.xfer with
    | none => [.start v]
    | some _ => [.collide v]
  else []

/-- *LinkComplete* with the drawn byte `r`, enabled while a transfer is in flight (rule R66). -/
def Spi.linkComplete (p : Spi) (r : Byte) : Spi :=
  match p.xfer with
  | none => p
  | some _ => { p with rxd := r, done := true, xfer := none }

/-- The wire events of *LinkComplete* (rules R66, R80). -/
def Spi.linkEvents (p : Spi) (r : Byte) : List WireEvent :=
  match p.xfer with
  | none => []
  | some tx => [.done tx r]

end Sys2Proof.Machine
end

