-- ==== Sys2Proof/Machine/Operands.lean ====
section
/-!
DEFINITION. Operand and response forms: the command byte on the wire (rule R93), what each operation sends and how many
bytes follow (rules R135 to R141), and the response words (rules R91, R92, R99).
-/
namespace Sys2Proof.Machine

/-- `writeCmd(reg, invert)` (rule R93). -/
def writeCmd (reg : Byte) (invert : Bool) : Byte :=
  if invert then reg ||| 0x80#8 else reg &&& 0x7F#8

/-- `readCmd(reg, invert)` (rule R93). -/
def readCmd (reg : Byte) (invert : Bool) : Byte :=
  if invert then reg &&& 0x7F#8 else reg ||| 0x80#8

/-- The failure sentinel of `READ1` (rules R9, R99). -/
def sentinel : Byte := 0xFF

/-- The filler byte of a read (rule R139). -/
def filler : Byte := 0x00

/-- How the bytes after the command byte go (rules R135, R137, R139). -/
inductive Direction where
  /-- No byte follows: `COMMAND`. -/
  | none
  /-- Payload bytes go out: `WRITE1`, `WRITEN`. -/
  | write
  /-- Response bytes come in: `READ1`, `READN`. -/
  | read
  deriving DecidableEq, Repr

/-- The direction of an operation's transaction; the other operations have no transaction. -/
def direction : Instr → Direction
  | .constructPin _ _ => .none
  | .constructExplicit _ _ _ _ => .none
  | .begin _ => .none
  | .isConnected _ => .none
  | .command _ _ => .none
  | .write1 _ _ _ => .write
  | .writeN _ _ _ => .write
  | .read1 _ _ => .read
  | .readN _ _ _ => .read

/-- The first byte of the transaction: `cmd` as given (rule R135), or the register byte with its top bit rewritten
for the handle's polarity (rules R137, R138). -/
def commandByte (op : Instr) (invert : Bool) : Byte :=
  match op with
  | .constructPin _ _ => filler
  | .constructExplicit _ _ _ _ => filler
  | .begin _ => filler
  | .isConnected _ => filler
  | .command _ cmd => cmd
  | .write1 _ reg _ => writeCmd reg invert
  | .writeN _ reg _ => writeCmd reg invert
  | .read1 _ reg => readCmd reg invert
  | .readN _ reg _ => readCmd reg invert

/-- The number of bytes after the command byte (rules R105, R137, R139). -/
def byteCount : Instr → Nat
  | .constructPin _ _ => 0
  | .constructExplicit _ _ _ _ => 0
  | .begin _ => 0
  | .isConnected _ => 0
  | .command _ _ => 0
  | .write1 _ _ _ => 1
  | .writeN _ _ len => len.toNat
  | .read1 _ _ => 1
  | .readN _ _ len => len.toNat

/-- The payload of a write whose one byte is an operand, `WRITE1` (rule R140); `none` where the byte comes from `BUF`. -/
def operandPayload : Instr → Option Byte
  | .constructPin _ _ => none
  | .constructExplicit _ _ _ _ => none
  | .begin _ => none
  | .isConnected _ => none
  | .command _ _ => none
  | .write1 _ _ value => some value
  | .writeN _ _ _ => none
  | .read1 _ _ => none
  | .readN _ _ _ => none

/-- Whether the response byte goes to the private buffer `tmp`, `READ1`, and not to `BUF` (rules R102, R141). -/
def privateResult : Instr → Bool
  | .constructPin _ _ => false
  | .constructExplicit _ _ _ _ => false
  | .begin _ => false
  | .isConnected _ => false
  | .command _ _ => false
  | .write1 _ _ _ => false
  | .writeN _ _ _ => false
  | .read1 _ _ => true
  | .readN _ _ _ => false

/-- The status part `st` of a response (rule R91). -/
inductive St where
  | fail
  | ok
  | void
  | illegal
  deriving DecidableEq, Repr

/-- `st` as two bits (rule R91). -/
def St.code : St → BitVec 2
  | .fail => 0
  | .ok => 1
  | .void => 2
  | .illegal => 3

/-- `RSP = st ++ val` (rule R91). -/
def response (st : St) (val : Byte) : Response := st.code ++ val

/-- OK or FAIL, `val = 0x00` (rule R92). -/
def boolResponse (ok : Bool) : Response := response (if ok then .ok else .fail) 0x00

/-- The response of a transaction that ended with `ok` (rules R92, R141): `READ1` answers VOID with the byte read, or
the sentinel on failure; the others answer OK or FAIL. -/
def txnResponse (op : Instr) (ok : Bool) (tmp : Option Byte) : Response :=
  if privateResult op then response .void (if ok then tmp.getD sentinel else sentinel) else boolResponse ok

end Sys2Proof.Machine
end

