-- ==== Sys2Proof/Machine/Platform.lean ====
section
/-!
DEFINITION. What is computed from the parameters alone: pin masks and register ids (rules R55, R100, R101, R108), the
procedures `resolve` and `validate` of the Resolver (rules R109, R110), and the clock divider with the control and
status words of the Bus Initializer (rules R94 to R97, R121 to R124).
-/
namespace Sys2Proof.Machine

/-- `bitIndex(mask)`: the least `i` in 0..7 with `mask[i] = 1` (rule R108). It has no value for the mask 0, which
no well-formed configuration holds. -/
def bitIndex (mask : Byte) : Option Nat :=
  (List.range 8).find? fun i => mask.getLsbD i

/-- Exactly one bit of a pin mask is set (rules R10, R14 clause (c), R100). -/
def singleBit (mask : Byte) : Bool :=
  (List.range 8).any fun i => mask == 1#8 <<< i

/-- The direction register's id beside a control register's: `(outId + DIR_OFFSET) mod 256` (rules R10, R101). -/
def dirIdOf (c : Config) (outId : Byte) : Byte :=
  BitVec.ofInt 8 (outId.toNat + c.dirOffset)

/-- The bank tokens of a configuration. -/
def bankTokens (c : Config) : List Nat := c.banks.map (·.token)

/-- The bank whose register pair is `(ctl, dir)` (rules R101, R112). -/
def bankOf (c : Config) (ctl dir : Byte) : Option Nat :=
  (c.banks.find? fun k => k.outId == ctl && k.dirId == dir).map (·.token)

/-- What `resolve` and the constructors yield: a bank token, a bit position, validity (rules R26 to R28). -/
structure Resolved where
  bank  : Option Nat
  pin   : Byte
  valid : Bool
  deriving DecidableEq, Repr

/-- `resolve(logicalPin)` (rule R109): the pin table's row, or the unmapped result `(none, 0, false)`. -/
def resolve (c : Config) (pin : Byte) : Resolved :=
  match c.pinTable.find? fun e => e.pin == pin with
  | none => ⟨none, 0, false⟩
  | some e =>
    match bitIndex e.mask with
    | none => ⟨none, 0, false⟩
    | some b => ⟨some e.bank, BitVec.ofNat 8 b, true⟩

/-- `validate(controlRegister, directionRegister, pinIndex, invert)` (rule R110); `invert` takes no part in it. -/
def validate (c : Config) (ctl dir pinIndex : Byte) (_invert : Bool) : Bool :=
  decide (pinIndex.toNat < 8) && c.banks.any fun k => k.outId == ctl && k.dirId == dir

/-- The explicit constructor's resolution (rule R112): the direction register is derived from `regid`; the bank is
kept when the pair names one, whatever the index; validity is `validate`'s answer. -/
def resolveExplicit (c : Config) (regid pinIndex : Byte) (invert : Bool) : Resolved :=
  ⟨bankOf c regid (dirIdOf c regid), pinIndex, validate c regid (dirIdOf c regid) pinIndex invert⟩

/-- `DIV = floor(floor(F_BASE / F_SPI) / 2)` (rule R121). -/
def divValue (c : Config) : Nat := c.fBase / c.fSpi / 2

/-- The position `p` of step 2: the highest set bit, plus one if a second bit is set below it (rule R122). -/
def position (div : Nat) : Nat :=
  if div = 2 ^ Nat.log2 div then Nat.log2 div else Nat.log2 div + 1

/-- The double-speed flag and the 2-bit divider-select field. -/
structure DivFields where
  dbl : Bool
  sel : BitVec 2
  deriving DecidableEq, Repr

/-- `divFields(p)` (rule R123), for `p >= 1`. -/
def divFields (p : Nat) : DivFields :=
  if 7 ≤ p then ⟨false, 3⟩
  else if p % 2 = 1 then ⟨true, BitVec.ofNat 2 ((p - 1) / 2)⟩
  else ⟨false, BitVec.ofNat 2 (p / 2 - 1)⟩

/-- The divider fields of a configuration (rules R121 to R123). -/
def busFields (c : Config) : DivFields := divFields (position (divValue c))

/-- One configuration bit as a byte. -/
def bitByte (b : Bool) : Byte := (BitVec.ofBool b).setWidth 8

/-- `ctrlWord = 0x50 | (ORD << 5) | (CPOL << 3) | (CPHA << 2) | SEL` (rules R94, R97). -/
def ctrlWord (c : Config) : Byte :=
  0x50#8 ||| (bitByte c.lsbFirst <<< 5) ||| (bitByte c.cpol <<< 3) ||| (bitByte c.cpha <<< 2)
    ||| (busFields c).sel.setWidth 8

/-- `statusWord`: 0x01 when double speed is enabled, 0x00 when not (rule R95). -/
def statusWord (c : Config) : Byte := bitByte (busFields c).dbl

/-- `(t1 - t0) mod 2^TIME_BITS` (rules R126 clause (f), R162, R188). -/
def elapsed (c : Config) (t1 t0 : Nat) : Nat :=
  (t1 + (2 ^ c.timeBits - t0 % 2 ^ c.timeBits)) % 2 ^ c.timeBits

end Sys2Proof.Machine
end

