-- ==== Sys2Proof/WellFormed.lean ====
section
/-!
DEFINITION. Well-formedness: the clauses (a) to (g) of `WF` (rule R14), which a parameter assignment must meet to be a
configuration of DPP-SPI at all, and the one check an operation needs beside its field widths, `h < N_HANDLES`
(rules R90, R104 clause (b)).
-/
namespace Sys2Proof

/-- Clause (a): `F_BASE >= 1` and `F_SPI >= 1`. -/
def Config.clocksPositive (c : Config) : Bool := decide (1 ≤ c.fBase) && decide (1 ≤ c.fSpi)

/-- Clause (b): `DIV >= 2` (rule R121). -/
def Config.dividerLegal (c : Config) : Bool := decide (2 ≤ Machine.divValue c)

/-- Clause (c): every mask of the pin table has exactly one bit set. -/
def Config.masksSingle (c : Config) : Bool := c.pinTable.all fun e => Machine.singleBit e.mask

/-- Clause (d): every bank named is in `BANKS`, and every bus output bit is in 0..7. -/
def Config.banksKnown (c : Config) : Bool :=
  (c.pinTable.all fun e => (Machine.bankTokens c).contains e.bank) &&
  (c.busOutPins.all fun kb => (Machine.bankTokens c).contains kb.1 && decide (kb.2 < 8))

/-- Every register id of every bank, in one list. -/
def Config.registerIds (c : Config) : List Byte :=
  c.banks.map (·.outId) ++ c.banks.map (·.dirId)

/-- No element of the list occurs twice. -/
def distinct {α : Type} [DecidableEq α] : List α → Bool
  | [] => true
  | x :: xs => !xs.contains x && distinct xs

/-- Clause (e): the ids are pairwise distinct and satisfy the offset equation; `BANKS` is "a finite list without
repetition" (rule R10). -/
def Config.idsLegal (c : Config) : Bool :=
  distinct c.registerIds && distinct (Machine.bankTokens c) &&
  c.banks.all fun k => k.dirId == Machine.dirIdOf c k.outId

/-- Clause (f): the three time bounds are below `2^TIME_BITS`. -/
def Config.timesLegal (c : Config) : Bool :=
  decide (c.timeoutUs < 2 ^ c.timeBits) && decide (c.readSettleUs < 2 ^ c.timeBits) &&
  decide (c.readTailUs < 2 ^ c.timeBits)

/-- Clause (g): `1 <= N_HANDLES <= 16`. -/
def Config.slotsLegal (c : Config) : Bool := decide (1 ≤ c.nHandles) && decide (c.nHandles ≤ 16)

/-- `WF` (rule R14). The machine refuses any other assignment. -/
def Config.wf (c : Config) : Bool :=
  c.clocksPositive && c.dividerLegal && c.masksSingle && c.banksKnown && c.idsLegal && c.timesLegal && c.slotsLegal

/-- The operation names a slot that exists (rules R90, R104 clause (b)). -/
def Instr.wellFormed (c : Config) (i : Instr) : Bool := decide (i.slot.toNat < c.nHandles)

end Sys2Proof
end

