-- ==== Sys2Proof/Machine/Ops.lean ====
section
/-!
DEFINITION. The named operations over the state: memory, the primitives of rule R17, the steps of LINK and TIME, the
moves of the sequencer, `select` and `unselect`, the error entry (rule R156) and the host port's check (rule R104).
-/
namespace Sys2Proof.Machine

/-! ### Memory (rules R53 to R58, R68, R71) -/

/-- What an unlisted address reads as: RS0's 0x00 (DESIGN CHOICE, log entry 3). -/
def Memory.unlisted : Byte := 0x00

/-- The byte at an address. -/
def Memory.read : Memory → Nat → Byte
  | [], _ => Memory.unlisted
  | (a, v) :: m, i => if i = a then v else Memory.read m i

/-- The list without its entry for an address. -/
def Memory.erase : Memory → Nat → Memory
  | [], _ => []
  | (a, v) :: m, i => if i = a then m else (a, v) :: Memory.erase m i

/-- The list with the entry `(i, v)` put in its place. -/
def Memory.insert : Memory → Nat → Byte → Memory
  | [], i, v => [(i, v)]
  | (a, u) :: m, i, v =>
    if i < a then (i, v) :: (a, u) :: m
    else if i = a then (i, v) :: m
    else (a, u) :: Memory.insert m i v

/-- Write one byte, keeping the canonical form. -/
def Memory.write (m : Memory) (i : Nat) (v : Byte) : Memory :=
  if v = Memory.unlisted then Memory.erase m i else Memory.insert m i v

/-- Every address of the list is above `lo`, they rise strictly, and no entry equals the unlisted byte. -/
def Memory.wfAbove : Nat → Memory → Bool
  | _, [] => true
  | lo, (a, v) :: m => decide (lo ≤ a) && decide (v ≠ Memory.unlisted) && Memory.wfAbove (a + 1) m

/-- The canonical form (log entry 7). -/
def Memory.wf (m : Memory) : Bool := Memory.wfAbove 0 m

/-! ### Handles (rules R24 to R30) -/

/-- `H[h]`. -/
def State.handle (s : State) (h : Slot) : Handle := s.handles[h.toNat]'h.isLt

/-- Write `H[h]`, done only at construction (rule R30). -/
def State.setHandle (s : State) (h : Slot) (x : Handle) : State :=
  { s with handles := s.handles.set h.toNat x h.isLt }

/-- The handle of the running operation, `H[ENG.cur]` (rule R45). -/
def State.curHandle (s : State) : Handle := s.handle s.eng.cur

/-! ### GPIO (rules R31 to R33, R68, R69) -/

/-- `1 << b` on eight bits. -/
def pinMask (b : Nat) : Byte := 1#8 <<< b

/-- `SetBit` on one location of a space (rule R69). -/
def Memory.setBit (m : Memory) (k b : Nat) : Memory := m.write k (m.read k ||| pinMask b)

/-- `ClrBit` on one location of a space (rule R69). -/
def Memory.clrBit (m : Memory) (k b : Nat) : Memory := m.write k (m.read k &&& ~~~(pinMask b))

/-- `GPIO.OUT[k]`. -/
def State.outReg (s : State) (k : Nat) : Byte := s.gpioOut.read k

/-- `GPIO.DIR[k]`. -/
def State.dirReg (s : State) (k : Nat) : Byte := s.gpioDir.read k

/-- `SetBit(GPIO.DIR[k], b)`. -/
def State.setDir (s : State) (k b : Nat) : State := { s with gpioDir := s.gpioDir.setBit k b }

/-- `SetBit(GPIO.OUT[k], b)`. -/
def State.setOut (s : State) (k b : Nat) : State := { s with gpioOut := s.gpioOut.setBit k b }

/-- `ClrBit(GPIO.OUT[k], b)`. -/
def State.clrOut (s : State) (k b : Nat) : State := { s with gpioOut := s.gpioOut.clrBit k b }

/-- The level of the chip-select bit of slot `h`, `cs(h)` (rule R33); `true` is high, deasserted. A handle without a
bank has no line. -/
def State.cs (s : State) (h : Slot) : Bool :=
  match (s.handle h).bank with
  | none => true
  | some k => (s.outReg k).getLsbD (s.handle h).pin.toNat

/-! ### The transfer buffer (rules R41, R56, R71, R145) -/

/-- `MemRead(BUF[i], 1)`. -/
def State.bufByte (s : State) (i : Nat) : Byte := s.buf.read i

/-- `MemWrite(BUF[i], 1, v)`. -/
def State.setBuf (s : State) (i : Nat) (v : Byte) : State := { s with buf := s.buf.write i v }

/-! ### Diagnostics, trace, response (rules R43, R46, R80, R91, R151) -/

/-- `Diag(tag)`: appended when the sink is present, dropped otherwise (rule R151). -/
def State.emit (s : State) (t : Tag) : State :=
  { s with diag := if s.cfg.sinkPresent then s.diag ++ [t] else s.diag }

/-- Append events to the wire trace (rule R80). -/
def State.record (s : State) (es : List WireEvent) : State := { s with trace := s.trace ++ es }

/-- Write `RSP`. -/
def State.respond (s : State) (r : Response) : State := { s with rsp := r }

/-! ### SPI register accesses by ENGINE (rules R60 to R65) -/

/-- Replace the SPI registers and the link. -/
def State.withSpi (s : State) (p : Spi) : State := { s with spi := p }

/-- `MemWrite(SPI.DATA, 1, v)` with its wire events (rules R64, R80). -/
def State.writeData (s : State) (v : Byte) : State :=
  (s.withSpi (s.spi.writeData v)).record (s.spi.writeEvents v)

/-! ### The steps of LINK and TIME (rules R66, R163) -/

/-- *LinkComplete* drawing `r`; no step when nothing is in flight (rule R66). -/
def State.linkComplete (s : State) (r : Byte) : State :=
  (s.withSpi (s.spi.linkComplete r)).record (s.spi.linkEvents r)

/-- TIME's step: `T <- (T + d) mod 2^TIME_BITS` (rule R163); `d = 0` is no step (log entry 15). -/
def State.timeStep (s : State) (d : Nat) : State := { s with time := (s.time + d) % 2 ^ s.cfg.timeBits }

/-! ### The sequencer (rules R44, R45) -/

/-- Replace the sequencer. -/
def State.withEng (s : State) (e : Eng) : State := { s with eng := e }

/-- `pc <- target` (rule R17): the next micro-step of the running operation. -/
def State.goto (s : State) (op : Instr) (l : Label) : State := s.withEng { s.eng with phase := .busy op l }

/-- `t0 <- Now()` (rules R42, R45). -/
def State.sampleTime (s : State) : State := s.withEng { s.eng with t0 := s.time }

/-- `Now()` less the sample, modulo the counter's period (rules R132, R133). -/
def State.waited (s : State) : Nat := elapsed s.cfg s.time s.eng.t0

/-- `ENG.idx <- i`. -/
def State.setIdx (s : State) (i : Nat) : State := s.withEng { s.eng with idx := i }

/-- An operation starts on its slot: `ENG.cur <- h` and the private buffer is empty (rules R45, R141; log
entries 8, 12). -/
def State.openOp (s : State) (op : Instr) : State := s.withEng { s.eng with cur := op.slot, tmp := none }

/-- The operation ends: `RSP` is written and the port is ready (rules R46, R156, R192). -/
def State.finish (s : State) (r : Response) : State := (s.respond r).withEng { s.eng with phase := .ready }

/-- `select(h)` of the running operation's handle (rule R130); a no-op on an invalid handle. -/
def State.select (s : State) : State :=
  let x := s.curHandle
  if x.valid then
    match x.bank with
    | none => s
    | some k =>
      ((s.clrOut k x.pin.toNat).record [.csLow s.eng.cur]).withEng { s.eng with txn := .selected s.eng.cur }
  else s

/-- `unselect(h)` of the running operation's handle (rule R131); a no-op on an invalid handle. -/
def State.unselect (s : State) : State :=
  let x := s.curHandle
  if x.valid then
    match x.bank with
    | none => s
    | some k =>
      ((s.setOut k x.pin.toNat).record [.csHigh s.eng.cur]).withEng { s.eng with txn := .idle }
  else s

/-- Error entry (rules R136, R156): a failed exchange sends the operation straight to `unselect` with the result
`false`. Nothing is saved, there is no handler and no mode. -/
def State.takeError (s : State) (op : Instr) : State := s.goto op (.unselect false)

/-- The end of a transaction: `unselect`, then the response (rules R131, R156); from an error it is the whole of the
return, since nothing is restored (rule R157). -/
def State.endTxn (s : State) (op : Instr) (ok : Bool) : State :=
  s.unselect.finish (txnResponse op ok s.eng.tmp)

/-! ### The host port (rules R46, R104, R153) -/

/-- Why a decoded operation is ILLEGAL in this state (rule R104 clauses (b), (d), (e)): no such slot, a constructor on
a constructed slot, another operation on an unconstructed one. -/
def State.illegal (s : State) (op : Instr) : Bool :=
  !op.wellFormed s.cfg || ((s.handle op.slot).constructed == op.isConstructor)

/-- The ILLEGAL response: nothing but `RSP` changes (rules R104, R153). -/
def State.respondIllegal (s : State) : State := s.respond (response .illegal 0x00)

/-- Accept an operation at the port, the shared entry of every meaning: refuse what is no machine (rule R14) and what
no HOST can do (rule R177), answer ILLEGAL (rule R104), else open the operation and run its body. -/
def atPort (op : Instr) (s : State) (body : State → Host.Outcome State Fault Refusal) :
    Host.Outcome State Fault Refusal :=
  if s.cfg.wf then
    match s.eng.phase with
    | .busy _ _ => .refused .portBusy
    | .ready => if s.illegal op then .next s.respondIllegal else body (s.openOp op)
  else .refused .notAConfiguration

end Sys2Proof.Machine
end

