-- ==== Sys2Proof/Machine/Exchange.lean ====
section
/-!
DEFINITION. The micro-steps of the Transaction Engine: `exchangeByte` (rule R133), `Delay` (rule R132), the byte loops of
`writeRegister` and `commandRead` (rules R137, R139), one definition per label. Between two micro-steps stands the
pseudocode's own control flow (rule R144; log entries 10, 27).
-/
namespace Sys2Proof.Machine

/-- The head of the byte loop, for the index `ENG.idx` (rules R137, R139): the next byte's first micro-step, or what
follows the loop. -/
def loopHead (op : Instr) (s : State) : State :=
  match direction op with
  | .none => s.goto op (.unselect true)
  | .write =>
    if s.eng.idx < byteCount op then
      match operandPayload op with
      | some v => s.goto op (.send .byte v)
      | none => s.goto op .load
    else s.goto op (.unselect true)
  | .read => if s.eng.idx < byteCount op then s.goto op .settleStart else s.goto op .tailStart

/-- The next iteration of the byte loop. -/
def nextByte (op : Instr) (s : State) : State := loopHead op (s.setIdx (s.eng.idx + 1))

/-- After a successful exchange that received `r`: the command byte's is discarded and the loop begins; a payload
byte's is discarded; a response byte is stored, in `tmp` or in `BUF` (rules R137 to R141). For `COMMAND`, which has no
byte loop (rules R45, R135), setting `ENG.idx` to 0 is the model's choice (DESIGN CHOICE, log entry 28). -/
def afterExchange (op : Instr) (x : Exchange) (r : Byte) (s : State) : State :=
  match x with
  | .cmd => loopHead op (s.setIdx 0)
  | .byte =>
    match direction op with
    | .none => s.goto op (.unselect true)
    | .write => nextByte op s
    | .read =>
      if privateResult op then nextByte op (s.withEng { s.eng with tmp := some r }) else s.goto op (.store r)

/-- `select(h)`; the command byte's exchange comes next, with no delay (rules R130, R143 clause (a)). -/
def microSelect (op : Instr) (s : State) : State :=
  s.select.goto op (.send .cmd (commandByte op s.curHandle.invert))

/-- `WRITEN`'s buffer load at iteration `ENG.idx` (rules R137, R145). -/
def microLoad (op : Instr) (s : State) : State := s.goto op (.send .byte (s.bufByte s.eng.idx))

/-- `MemWrite(SPI.DATA, 1, v)` (rule R133). -/
def microSend (op : Instr) (x : Exchange) (v : Byte) (s : State) : State := (s.writeData v).goto op (.sample x)

/-- `t0 <- Now()` (rule R133). -/
def microSample (op : Instr) (x : Exchange) (s : State) : State := s.sampleTime.goto op (.poll x)

/-- `s <- MemRead(SPI.STATUS, 1)`, then the tests in order: collision, completion (rules R133, R155). -/
def microPoll (op : Instr) (x : Exchange) (s : State) : State :=
  let b := s.spi.status
  let t := s.withSpi s.spi.arm
  if b.getLsbD 6 then t.takeError op
  else if b.getLsbD 7 then t.goto op (.receive x)
  else t.goto op (.clock x)

/-- `r <- MemRead(SPI.DATA, 1)`, success (rules R63, R133). -/
def microReceive (op : Instr) (x : Exchange) (s : State) : State :=
  afterExchange op x s.spi.rxd (s.withSpi s.spi.readData)

/-- `n <- Now()`: a timeout when the elapsed time exceeds the bound, else another round (rules R133, R149). -/
def microClock (op : Instr) (x : Exchange) (s : State) : State :=
  if s.cfg.timeoutUs < s.waited then s.goto op .timedOut else s.goto op (.poll x)

/-- `Diag("timeout")`, then the error entry (rules R149, R156). -/
def microTimedOut (op : Instr) (s : State) : State := (s.emit .timeout).takeError op

/-- `READN`'s buffer store at iteration `ENG.idx`; then the next iteration (rules R138, R145). -/
def microStore (op : Instr) (r : Byte) (s : State) : State := nextByte op (s.setBuf s.eng.idx r)

/-- The first sample of a `Delay` (rule R132). -/
def microDelayStart (op : Instr) (wait : Label) (s : State) : State := s.sampleTime.goto op wait

/-- A later sample of `Delay(d)`: the wait ends once `d` microseconds have elapsed (rule R132). -/
def microDelayWait (op : Instr) (d : Nat) (wait done : Label) (s : State) : State :=
  if d ≤ s.waited then s.goto op done else s.goto op wait

/-- `unselect(h)` and the response (rules R131, R136). -/
def microUnselect (op : Instr) (ok : Bool) (s : State) : State := s.endTxn op ok

end Sys2Proof.Machine
end

