-- ==== Sys2Proof/Machine/Initializer.lean ====
section
/-!
DEFINITION. The micro-steps of the Bus Initializer: `configureChipSelect` (rule R118), `initializeOnce` (rules R119 to
R124) and the diagnostic of `BEGIN` on an invalid handle (rules R117, R148), one definition per label.
-/
namespace Sys2Proof.Machine

/-- The end of `BEGIN` on both paths: VOID (rules R92, R117). -/
def State.finishBegin (s : State) : State := s.finish (response .void 0x00)

/-- `Diag("badCs")`, then the response (rules R117, R148). -/
def microBadCs (s : State) : State := (s.emit .badCs).finishBegin

/-- `configureChipSelect`, first micro-step: the direction bit (rule R118). -/
def microCsDir (op : Instr) (s : State) : State :=
  (match s.curHandle.bank with
    | none => s
    | some k => s.setDir k s.curHandle.pin.toNat).goto op .csOut

/-- Where step 1 of `initializeOnce` goes from pin `n` on: the next pin, or the control register (rule R120). -/
def nextBusPin (c : Config) (n : Nat) : Label := if n < c.busOutPins.length then .busPin n else .ctrl

/-- Entering `initializeOnce`: its end at once when the bus is initialised, else step 1 (rules R119, R144 clause (c)). -/
def enterInitializeOnce (op : Instr) (s : State) : State :=
  if s.busInit then s.finishBegin else s.goto op (nextBusPin s.cfg 0)

/-- `configureChipSelect`, second micro-step: the output bit, deasserted; then `initializeOnce` (rules R117, R118). -/
def microCsOut (op : Instr) (s : State) : State :=
  enterInitializeOnce op
    (match s.curHandle.bank with
      | none => s
      | some k => (s.setOut k s.curHandle.pin.toNat).record [.csHigh s.eng.cur])

/-- Step 1 of `initializeOnce`, pin `n` of `BUS_OUT_PINS` (rule R120). -/
def microBusPin (op : Instr) (n : Nat) (s : State) : State :=
  (match s.cfg.busOutPins[n]? with
    | none => s
    | some kb => s.setDir kb.1 kb.2).goto op (nextBusPin s.cfg (n + 1))

/-- Step 4, the control register (rule R124). -/
def microCtrl (op : Instr) (s : State) : State :=
  (s.withSpi (s.spi.writeCtrl (ctrlWord s.cfg))).goto op .status

/-- Step 4, the status register; then the latch is set and `BEGIN` ends (rules R119, R124). -/
def microStatus (s : State) : State :=
  { s.withSpi (s.spi.writeStatus (statusWord s.cfg)) with busInit := true }.finishBegin

end Sys2Proof.Machine
end

