-- ==== Sys2Proof/Machine/Sequencer.lean ====
section
/-!
DEFINITION. ENGINE's micro-step, one primitive call each (rules R8, R17, R45), the turns of the agents (rule R8), and the
run of an operation to its response with any LINK and TIME steps between two micro-steps.
-/
namespace Sys2Proof.Machine

/-- The micro-step a label names. -/
def microLabel (op : Instr) (l : Label) (s : State) : State :=
  match l with
  | .badCs => microBadCs s
  | .csDir => microCsDir op s
  | .csOut => microCsOut op s
  | .busPin n => microBusPin op n s
  | .ctrl => microCtrl op s
  | .status => microStatus s
  | .select => microSelect op s
  | .load => microLoad op s
  | .send x v => microSend op x v s
  | .sample x => microSample op x s
  | .poll x => microPoll op x s
  | .receive x => microReceive op x s
  | .clock x => microClock op x s
  | .timedOut => microTimedOut op s
  | .store r => microStore op r s
  | .settleStart => microDelayStart op .settleWait s
  | .settleWait => microDelayWait op s.cfg.readSettleUs .settleWait (.send .byte filler) s
  | .tailStart => microDelayStart op .tailWait s
  | .tailWait => microDelayWait op s.cfg.readTailUs .tailWait (.unselect true) s
  | .unselect ok => microUnselect op ok s

/-- ENGINE's micro-step; at `Ready` it has nothing to do (rule R172). -/
def microStep (s : State) : State :=
  match s.eng.phase with
  | .ready => s
  | .busy op l => microLabel op l s

/-- One turn of one agent (rule R8). -/
def agentTurn (t : Turn) (s : State) : State :=
  match t with
  | .engine => microStep s
  | .link r => s.linkComplete r
  | .time d => s.timeStep d
  | .stall => s

/-- Take the turns in order while an operation is under way; the turns left over stay in `sched`. A `stall` is never
used up (log entry 16). -/
def runTurns : List Turn → State → State
  | [], s => { s with sched := [] }
  | t :: ts, s =>
    match s.eng.phase with
    | .ready => { s with sched := t :: ts }
    | .busy _ _ =>
      match t with
      | .stall => { s with sched := .stall :: ts }
      | .engine => runTurns ts (agentTurn .engine s)
      | .link r => runTurns ts (agentTurn (.link r) s)
      | .time d => runTurns ts (agentTurn (.time d) s)

/-- LINK and TIME have stalled (rule R189). -/
def State.stalled (s : State) : Bool :=
  match s.sched with
  | .stall :: _ => true
  | _ => false

/-- How far `T` must still advance for the time sample that comes next to end its wait: past the bound in a poll loop
(rule R133), up to the length of a delay (rule R132); nothing at any other label. -/
def State.lack (s : State) : Nat :=
  match s.eng.phase with
  | .busy _ (.clock _) => s.cfg.timeoutUs + 1 - s.waited
  | .busy _ .settleWait => s.cfg.readSettleUs - s.waited
  | .busy _ .tailWait => s.cfg.readTailUs - s.waited
  | _ => 0

/-- ENGINE's micro-step when no turn is left: TIME, being fair, has advanced as far as the wait needs (rule R163),
unless it has stalled (log entry 5). -/
def tailStep (s : State) : State := microStep (if s.stalled then s else s.timeStep s.lack)

/-- `n` micro-steps when no turn is left, or fewer when the operation ends. -/
def runTail : Nat → State → State
  | 0, s => s
  | n + 1, s =>
    match s.eng.phase with
    | .ready => s
    | .busy _ _ => runTail n (tailStep s)

/-- Enough micro-steps for any operation that can end with no turn left: one that has not ended by then repeats its
poll or its wait for ever (log entry 5). -/
def tailBudget (c : Config) : Nat := 64 + c.busOutPins.length

/-- The state an operation under way reaches: by the turns it is given, then without any. -/
def settled (s : State) : State := runTail (tailBudget s.cfg) (runTurns s.sched s)

/-- Run the operation under way to its response; it hangs when its wait cannot end (rules R163, R189). -/
def complete (s : State) : Host.Outcome State Fault Refusal :=
  match (settled s).eng.phase with
  | .ready => .next (settled s)
  | .busy _ _ => .fault .hang

end Sys2Proof.Machine
end

