-- ==== Sys2Proof/Machine/Begin.lean ====
section
/-!
DEFINITION. `BEGIN` (41_bus_initializer.md).
-/
namespace Sys2Proof.Machine

/-- `BEGIN h` (rule R117): the diagnostic on an invalid handle, else `configureChipSelect` and `initializeOnce`. -/
def execBegin (h : Slot) (s : State) : Host.Outcome State Fault Refusal :=
  atPort (.begin h) s fun s =>
    complete (s.goto (.begin h) (if (s.handle h).valid then .csDir else .badCs))

end Sys2Proof.Machine
end

