-- ==== Sys2Proof/Machine/Resolver.lean ====
section
/-!
DEFINITION. The Resolver's operations (40_resolver.md): `CONSTRUCT_PIN`, `CONSTRUCT_EXPLICIT`, `IS_CONNECTED`. They touch
no register of any space (rule R57), so they take no micro-step.
-/
namespace Sys2Proof.Machine

/-- Both constructors' effect: the slot takes the resolved handle and the response is VOID (rules R111, R112). -/
def construct (h : Slot) (x : Resolved) (invert : Bool) (s : State) : State :=
  (s.setHandle h ⟨true, x.bank, x.pin, x.valid, invert⟩).respond (response .void 0x00)

/-- `CONSTRUCT_PIN h, pin` (rule R111). -/
def execConstructPin (h : Slot) (pin : Byte) (s : State) : Host.Outcome State Fault Refusal :=
  atPort (.constructPin h pin) s fun s => .next (construct h (resolve s.cfg pin) false s)

/-- `CONSTRUCT_EXPLICIT h, regid, pinIndex, invert` (rule R112). -/
def execConstructExplicit (h : Slot) (regid pinIndex : Byte) (invert : Bool) (s : State) :
    Host.Outcome State Fault Refusal :=
  atPort (.constructExplicit h regid pinIndex invert) s fun s =>
    .next (construct h (resolveExplicit s.cfg regid pinIndex invert) invert s)

/-- `IS_CONNECTED h` (rule R113). -/
def execIsConnected (h : Slot) (s : State) : Host.Outcome State Fault Refusal :=
  atPort (.isConnected h) s fun s => .next (s.respond (boolResponse (s.handle h).valid))

end Sys2Proof.Machine
end

