-- ==== Sys2Proof/Machine/Transactions.lean ====
section
/-!
DEFINITION. The Transaction Engine's operations (42_transaction_engine.md): `COMMAND`, `WRITE1`, `WRITEN`, `READ1`,
`READN`.
-/
namespace Sys2Proof.Machine

/-- A transaction behind its validity guard (rules R128, R129): a failure result with no access on an invalid handle,
else `select` and what follows it. -/
def transaction (op : Instr) (s : State) : Host.Outcome State Fault Refusal :=
  atPort op s fun s =>
    if (s.handle op.slot).valid then complete (s.goto op .select)
    else .next (s.respond (txnResponse op false none))

/-- `COMMAND h, cmd` (rule R135). -/
def execCommand (h : Slot) (cmd : Byte) (s : State) : Host.Outcome State Fault Refusal :=
  transaction (.command h cmd) s

/-- `WRITE1 h, reg, value` (rule R140). -/
def execWrite1 (h : Slot) (reg value : Byte) (s : State) : Host.Outcome State Fault Refusal :=
  transaction (.write1 h reg value) s

/-- `WRITEN h, reg, len` (rule R137). -/
def execWriteN (h : Slot) (reg len : Byte) (s : State) : Host.Outcome State Fault Refusal :=
  transaction (.writeN h reg len) s

/-- `READ1 h, reg` (rule R141). -/
def execRead1 (h : Slot) (reg : Byte) (s : State) : Host.Outcome State Fault Refusal :=
  transaction (.read1 h reg) s

/-- `READN h, reg, len` (rule R138). -/
def execReadN (h : Slot) (reg len : Byte) (s : State) : Host.Outcome State Fault Refusal :=
  transaction (.readN h reg len) s

end Sys2Proof.Machine
end

