-- ==== Sys2Proof/Machine/Dispatch.lean ====
section
/-!
DEFINITION. The dispatch of an operation to its meaning, one arm per constructor.
-/
namespace Sys2Proof.Machine

def exec (i : Instr) (s : State) : Host.Outcome State Fault Refusal :=
  match i with
  | .constructPin h pin => Sys2Proof.Machine.execConstructPin h pin s
  | .constructExplicit h regid pinIndex invert => Sys2Proof.Machine.execConstructExplicit h regid pinIndex invert s
  | .begin h => Sys2Proof.Machine.execBegin h s
  | .isConnected h => Sys2Proof.Machine.execIsConnected h s
  | .command h cmd => Sys2Proof.Machine.execCommand h cmd s
  | .write1 h reg value => Sys2Proof.Machine.execWrite1 h reg value s
  | .writeN h reg len => Sys2Proof.Machine.execWriteN h reg len s
  | .read1 h reg => Sys2Proof.Machine.execRead1 h reg s
  | .readN h reg len => Sys2Proof.Machine.execReadN h reg len s

end Sys2Proof.Machine
end

