-- ==== Sys2Proof/Machine/Port.lean ====
section
/-!
DEFINITION. The host port at work (rules R46, R82, R192): what one step does when the port is ready, by what HOST does
next.
-/
namespace Sys2Proof.Machine

/-- HOST lets another agent move: the next turn of `sched`, if any, is taken (rules R8, R66). A `stall` stays. -/
def idleTurn (s : State) : State :=
  match s.sched with
  | [] => s
  | .stall :: _ => s
  | t :: ts => agentTurn t { s with sched := ts }

/-- A word at the port: written to `CMD`, decoded, executed; a word that spells no operation is ILLEGAL (rules R46,
R82, R104; log entry 11). -/
def acceptWord (w : Word) (s : State) : Host.Outcome State Fault Refusal :=
  match decode w with
  | .ok i => exec i { s with cmd := w }
  | .error _ => .next { s with cmd := w }.respondIllegal

/-- HOST's next action at a ready port; without one HOST waits and ENGINE does nothing (rule R172). -/
def hostAct (s : State) : Host.Outcome State Fault Refusal :=
  match s.host with
  | [] => .next (idleTurn s)
  | .wait :: hs => .next (idleTurn { s with host := hs })
  | .fill i v :: hs => .next ({ s with host := hs }.setBuf i.val v)
  | .issue w :: hs => acceptWord w { s with host := hs }

/-- The word HOST issues next: placed at the head of its actions, at a ready port. -/
def State.issueNext (s : State) (w : Word) : State :=
  { s.withEng { s.eng with phase := .ready } with host := .issue w :: s.host }

end Sys2Proof.Machine
end

