-- ==== Sys2Proof/Machine/Step.lean ====
section
/-!
DEFINITION. The step. One step is one action of HOST at a ready port (a whole operation when it issues a word), or the
rest of an operation that is under way.
-/
namespace Sys2Proof.Machine

/-- The step function (rules R8, R46, R192). -/
def step (s : State) : Host.Outcome State Fault Refusal :=
  if s.cfg.wf then
    match s.eng.phase with
    | .ready => hostAct s
    | .busy _ _ => complete s
  else .refused .notAConfiguration

/-- The word of the opcode table's numbering stored where the next step fetches: HOST's next action issues it, at a
ready port (log entry 6). -/
def State.withFetchWord (s : State) (nbits w : Nat) : State :=
  s.issueNext (BitVec.ofNat 32 (w % 2 ^ nbits))

end Sys2Proof.Machine
end

