-- ==== Sys2Proof/Safety.lean ====
section
/-!
DEFINITION. What counts as a safe run, in the terms the statements use: when an operation is accepted, the clean link
(rule R52), the reset states (rule R48), the invariants (rule R50), fair and silent agents (rule R163), a prompt link,
and what an operation leaves alone.
-/
namespace Sys2Proof.Machine

/-! ### Premises on an operation and its handle -/

/-- The port accepts `op`: the parameters are a configuration, the port is ready, and the word is not ILLEGAL (rules
R14, R46, R104). -/
def Accepts (s : State) (op : Instr) : Prop :=
  s.cfg.wf = true ∧ s.eng.phase = .ready ∧ s.illegal op = false

/-- `op` is one of the five transaction operations (rule R129). -/
def isTransaction : Instr → Bool
  | .constructPin _ _ => false
  | .constructExplicit _ _ _ _ => false
  | .begin _ => false
  | .isConnected _ => false
  | .command _ _ => true
  | .write1 _ _ _ => true
  | .writeN _ _ _ => true
  | .read1 _ _ => true
  | .readN _ _ _ => true

/-- The handle of slot `h` is valid and drives bit `b` of bank `k` (rules R26 to R28). -/
def Drives (s : State) (h : Slot) (k b : Nat) : Prop :=
  (s.handle h).valid = true ∧ (s.handle h).bank = some k ∧ (s.handle h).pin.toNat = b ∧ b < 8

/-! ### The link (rule R52) -/

/-- Nothing in flight, no flag set, nothing armed. -/
def Spi.Clean (p : Spi) : Prop :=
  p.xfer = none ∧ p.done = false ∧ p.coll = false ∧ p.armDone = false ∧ p.armColl = false

/-- A data write reaches the shifter: enabled and master (rule R64). -/
def Spi.Running (p : Spi) : Prop := p.enabled = true ∧ p.master = true

/-- `Clean(s)` (rule R52). -/
def State.Clean (s : State) : Prop := s.eng.phase = .ready ∧ s.eng.txn = .idle ∧ s.spi.Clean

/-- A transfer of an earlier exchange is held in flight, with no completion seen (rule R178 case (a)). -/
def Spi.Held (p : Spi) : Prop :=
  p.Running ∧ p.xfer.isSome = true ∧ p.done = false ∧ (p.coll = true → p.armColl = true)

/-! ### The agents' turns (rules R163, R193) -/

/-- TIME is fair: it never stalls (rule R163). -/
def Fair (ts : List Turn) : Prop := Turn.stall ∉ ts

/-- LINK completes no transfer. -/
def LinkSilent (ts : List Turn) : Prop := ∀ r, Turn.link r ∉ ts

/-- Some elapsed time exceeds the bound (not implied by `WF` clause (f)). -/
def BoundReachable (c : Config) : Prop := c.timeoutUs + 1 < 2 ^ c.timeBits

/-- How a prompt link answers one byte (rule R134 clause (b), rule R193 clause (d)): flagless poll rounds first, each a
status read, an advance of TIME and a time sample; then LinkComplete drawing `byte`; then, before the status read that
sees it, any further advances of TIME, past the bound too (V50). -/
structure Answer where
  waits : List Nat
  late  : List Nat
  byte  : Byte
  deriving DecidableEq, Repr

/-- No time sample before the completion exceeds the bound. -/
def Answer.InTime (c : Config) (a : Answer) : Prop := a.waits.sum ≤ c.timeoutUs

/-- The turns of one exchange: data write, reference sample, flagless rounds, completion, status read, data read. -/
def Answer.turns (a : Answer) : List Turn :=
  [.engine, .engine] ++ (a.waits.flatMap fun d => [.engine, .time d, .engine]) ++
    (.link a.byte :: (a.late.map .time ++ [.engine, .engine]))

/-- A delay of exactly `d` microseconds. -/
def promptDelay (d : Nat) : List Turn := [.engine, .time d, .engine]

/-- The turns before the exchange of a byte after the command byte: the settling delay of a read, the buffer load of
`WRITEN` (rules R137, R139). -/
def turnsBeforeByte (c : Config) (op : Instr) : List Turn :=
  match direction op, operandPayload op with
  | .read, _ => promptDelay c.readSettleUs
  | .write, none => [.engine]
  | .write, some _ => []
  | .none, _ => []

/-- The turns after the exchange of a byte: the buffer store of `READN` (rule R138). -/
def turnsAfterByte (op : Instr) : List Turn :=
  match direction op, privateResult op with
  | .read, false => [.engine]
  | .read, true => []
  | .write, _ => []
  | .none, _ => []

/-- The turns from `select` through the answered bytes: the command byte's answer first, then one for each byte after it. -/
def answeredTurns (c : Config) (op : Instr) : List Answer → List Turn
  | [] => [.engine]
  | a :: as => .engine :: (a.turns ++ as.flatMap fun x => turnsBeforeByte c op ++ x.turns ++ turnsAfterByte op)

/-- The turns of a whole transaction on a prompt link: its bytes answered, the tail delay of a read, `unselect`. -/
def promptTurns (c : Config) (op : Instr) (as : List Answer) : List Turn :=
  answeredTurns c op as ++ (if direction op = .read then promptDelay c.readTailUs else []) ++ [.engine]

/-- `T` after TIME's advances, in order (rule R163). -/
def timeAfter (c : Config) : Nat → List Nat → Nat
  | t, [] => t
  | t, d :: ds => timeAfter c ((t + d) % 2 ^ c.timeBits) ds

/-- The wire events of completed exchanges, the byte sent beside the byte received. -/
def exchangeEvents (es : List (Byte × Byte)) : List WireEvent :=
  es.flatMap fun e => [.start e.1, .done e.1 e.2]

/-- The bytes of `BUF` a transfer of length `n` names. -/
def State.payload (s : State) (n : Nat) : List Byte := (List.range n).map s.bufByte

/-- The bytes a transaction presents to `SPI.DATA`, in order: the command byte, then the payload or the fillers (rules
R135, R137, R139). -/
def State.wireBytes (s : State) (op : Instr) : List Byte :=
  commandByte op (s.handle op.slot).invert ::
    match direction op, operandPayload op with
    | .none, _ => []
    | .write, some v => [v]
    | .write, none => s.payload (byteCount op)
    | .read, _ => List.replicate (byteCount op) filler

/-- The byte a wire event presents: a started one, or one the hardware discarded in a collision. -/
def presentedByte : WireEvent → Option Byte
  | .start tx => some tx
  | .collide v => some v
  | .csLow _ => none
  | .csHigh _ => none
  | .done _ _ => none

/-! ### Frames -/

/-- What no transaction touches: parameters, handles, direction registers, the SPI configuration, the latch, the
command port's input (rules R30, R57, R134 clause (h)). -/
def TransactionKeeps (s t : State) : Prop :=
  t.cfg = s.cfg ∧ t.handles = s.handles ∧ t.gpioDir = s.gpioDir ∧ t.spi.ctrl = s.spi.ctrl ∧ t.spi.dbl = s.spi.dbl ∧
  t.busInit = s.busInit ∧ t.cmd = s.cmd ∧ t.host = s.host

/-- Every bit of every `GPIO.OUT` register but bit `b` of bank `k` is as before (rule R69). -/
def OutKeptBut (s t : State) (k b : Nat) : Prop :=
  ∀ k' b', (k' ≠ k ∨ b' ≠ b) → (t.outReg k').getLsbD b' = (s.outReg k').getLsbD b'

/-- Every byte of `BUF` is as before. -/
def BufKept (s t : State) : Prop := ∀ i, t.bufByte i = s.bufByte i

/-- A transaction of slot `h` ended: ready, `Idle`, chip-select high (rules R142, R156). -/
def Ended (t : State) (h : Slot) : Prop := t.eng.phase = .ready ∧ t.eng.txn = .idle ∧ t.cs h = true

/-- What `RSP` holds after a failed or refused transaction (rules R92, R99, R129, R156): VOID with 0xFF for `READ1`, FAIL
for the others. -/
def failureResponse : Instr → Response
  | .read1 _ _ => 0x2FF#10
  | .command _ _ => 0x000#10
  | .write1 _ _ _ => 0x000#10
  | .writeN _ _ _ => 0x000#10
  | .readN _ _ _ => 0x000#10
  | .constructPin _ _ => 0x000#10
  | .constructExplicit _ _ _ _ => 0x000#10
  | .begin _ => 0x000#10
  | .isConnected _ => 0x000#10

/-- A transaction of slot `h`, on bit `b` of bank `k`, whose exchanges all succeeded on a prompt link, the last one
receiving `last`: ended, the link clean with that byte received, no tag, nothing else touched, `rest` the turns left. -/
def PromptlyEnded (s t : State) (h : Slot) (k b : Nat) (last : Byte) (rest : List Turn) : Prop :=
  Ended t h ∧ t.spi = { s.spi with rxd := last } ∧ t.diag = s.diag ∧ t.sched = rest ∧
  TransactionKeeps s t ∧ OutKeptBut s t k b

/-! ### Reset states (rules R48, R171) -/

/-- A reset state: every element rule R48 gives a value holds it; the others, and the agents' future, are any. -/
def State.IsReset (s : State) : Prop :=
  (∀ h, (s.handle h).constructed = false) ∧ s.spi.ctrl = 0x00 ∧ s.spi.dbl = false ∧ s.spi.Clean ∧
  s.busInit = false ∧ s.diag = [] ∧ s.trace = [] ∧ s.eng.phase = .ready ∧ s.eng.txn = .idle

/-! ### Invariants (rule R50) -/

/-- The three memories have their canonical form. -/
def MemoryCanonical (s : State) : Prop :=
  s.gpioOut.wf = true ∧ s.gpioDir.wf = true ∧ s.buf.wf = true

/-- Every constructed handle is valid exactly when it names a bank and a pin below 8, and its bank is one of `BANKS`
(rules R26, R28, R50 clause (b)). -/
def HandlesSound (s : State) : Prop :=
  ∀ h, (s.handle h).constructed = true →
    ((s.handle h).valid = true ↔ (s.handle h).bank ≠ none ∧ (s.handle h).pin.toNat < 8) ∧
    (∀ k, (s.handle h).bank = some k → k ∈ bankTokens s.cfg)

/-- The labels of `BEGIN`. -/
def Label.ofBegin : Label → Bool
  | .badCs | .csDir | .csOut | .busPin _ | .ctrl | .status => true
  | .select | .load | .send _ _ | .sample _ | .poll _ | .receive _ | .clock _ | .timedOut | .store _
  | .settleStart | .settleWait | .tailStart | .tailWait | .unselect _ => false

/-- The labels of `initializeOnce`. -/
def Label.ofInitialize : Label → Bool
  | .busPin _ | .ctrl | .status => true
  | .badCs | .csDir | .csOut | .select | .load | .send _ _ | .sample _ | .poll _ | .receive _ | .clock _ | .timedOut
  | .store _ | .settleStart | .settleWait | .tailStart | .tailWait | .unselect _ => false

/-- The labels of one byte's turn in the byte loop. -/
def Label.ofByte : Label → Bool
  | .load | .send .byte _ | .sample .byte | .poll .byte | .receive .byte | .clock .byte | .store _ | .settleStart
  | .settleWait => true
  | .badCs | .csDir | .csOut | .busPin _ | .ctrl | .status | .select | .send .cmd _ | .sample .cmd | .poll .cmd
  | .receive .cmd | .clock .cmd | .timedOut | .tailStart | .tailWait | .unselect _ => false

/-- The bus is programmed exactly when the latch says so (rules R40, R50 clause (d), R125): before that `SPI.CTRL` is
0x00, but for the one micro-step between the two register writes of step 4. -/
def BusProgrammed (s : State) : Prop :=
  (s.busInit = true →
    s.spi.ctrl = ctrlWord s.cfg ∧ s.spi.dbl = (busFields s.cfg).dbl ∧
    ∀ op l, s.eng.phase = .busy op l → l.ofInitialize = false) ∧
  (s.busInit = false →
    s.spi.dbl = false ∧
    (∀ op, s.eng.phase = .busy op .status → s.spi.ctrl = ctrlWord s.cfg) ∧
    ((∀ op, s.eng.phase ≠ .busy op .status) → s.spi.ctrl = 0x00))

/-- The running operation's handle drives a line. -/
def CurDrives (s : State) : Prop := ∃ k b, Drives s s.eng.cur k b

/-- Selection and the sequencer agree (rules R44, R50 clause (a), R142): `Idle` at a ready port, in `BEGIN` and before
`select`; from there to `unselect` the running operation's handle is selected and its line is low. -/
def SelectionPaired (s : State) : Prop :=
  match s.eng.phase with
  | .ready => s.eng.txn = .idle
  | .busy _ l =>
    if l.ofBegin then s.eng.txn = .idle
    else if l = .select then s.eng.txn = .idle ∧ CurDrives s
    else s.eng.txn = .selected s.eng.cur ∧ CurDrives s ∧ s.cs s.eng.cur = false

/-- The byte loop's index stays below the operation's length, at most 255, so no index of 255 is formed; nothing stands
in `BUF` from 255 on (rules R45, R56). -/
def IndexInRange (s : State) : Prop :=
  (∀ op l, s.eng.phase = .busy op l → l.ofByte = true → s.eng.idx < byteCount op) ∧
  (∀ i, 255 ≤ i → s.bufByte i = Memory.unlisted)

/-- An armed flag is set, a transfer in flight implies an enabled master, and the reserved bit reads 0 (rules R34, R39,
R61, R64, R65). -/
def LinkSound (s : State) : Prop :=
  (s.spi.armDone = true → s.spi.done = true) ∧ (s.spi.armColl = true → s.spi.coll = true) ∧
  (s.spi.xfer ≠ none → s.spi.Running) ∧ s.spi.ctrl.getLsbD 7 = false

/-- `T` is a `TIME_BITS`-wide value (rule R42). -/
def TimeInRange (s : State) : Prop := s.time < 2 ^ s.cfg.timeBits

/-! ### States alike but for what nothing reads -/

/-- `s` with another sink and another log (rules R43, R151). -/
def State.withSink (s : State) (present : Bool) (d : List Tag) : State :=
  { s with cfg := { s.cfg with sinkPresent := present }, diag := d }

/-- `s` with other mode knobs and the control register `c` (rules R59, R97). -/
def State.withModes (s : State) (lsb cpol cpha : Bool) (c : Byte) : State :=
  { s with cfg := { s.cfg with lsbFirst := lsb, cpol := cpol, cpha := cpha }, spi := { s.spi with ctrl := c } }

/-- Two control registers that agree but for `ORD`, `CPOL`, `CPHA`, bits 5, 3 and 2 (rule R34). -/
def ModeAlike (c c' : Byte) : Prop := c &&& 0xD3#8 = c' &&& 0xD3#8

/-- `s` with another wire trace (rule R80). -/
def State.withTrace (s : State) (w : List WireEvent) : State := { s with trace := w }

/-- The chip-select events of a stretch of the wire trace. -/
def isCsEvent : WireEvent → Bool
  | .csLow _ => true
  | .csHigh _ => true
  | .start _ => false
  | .done _ _ => false
  | .collide _ => false

/-! ### Command words that spell no operation (rule R104) -/

/-- Rule R104 clause (c), by operation code: an operand field the format does not use is non-zero. -/
def UnusedFieldSet (w : Word) : Prop :=
  match (fieldOp w).toNat with
  | 0 | 4 | 7 => fieldB w ≠ 0 ∨ fieldC w ≠ 0
  | 1 => (fieldC w).extractLsb' 1 7 ≠ 0
  | 2 | 3 => fieldA w ≠ 0 ∨ fieldB w ≠ 0 ∨ fieldC w ≠ 0
  | 5 | 6 | 8 => fieldC w ≠ 0
  | _ => False

/-- Rule R104, clauses (a) to (e), on the raw fields of the word. -/
def IllegalWord (s : State) (w : Word) : Prop :=
  9 ≤ (fieldOp w).toNat ∨
  s.cfg.nHandles ≤ (fieldH w).toNat ∨
  UnusedFieldSet w ∨
  ((fieldOp w).toNat ≤ 1 ∧ (s.handle (fieldH w)).constructed = true) ∨
  (2 ≤ (fieldOp w).toNat ∧ (fieldOp w).toNat ≤ 8 ∧ (s.handle (fieldH w)).constructed = false)

end Sys2Proof.Machine
end

