-- ==== Sys2Proof/Certificates/Slice0/Obligations.lean ====
section
/-!
DEFINITION. The statements for the provers, each with the rule of spec/ it formalises. A premise `MemoryCanonical`,
`HandlesSound`, `BusProgrammed`, `SelectionPaired` is an invariant stated here on its own.
-/
open Sys2Proof Sys2Proof.Machine

/-! ### Encoding -/

/-- Rules R84 to R88: the decoder reads back every operation, with every operand, from the encoder's word. -/
def Obligations.DecodeOfEncodeIsOperation : Prop :=
  ∀ i : Instr, decode (encode i) = .ok i

/-- Rules R82, R84, R106: a word the decoder accepts is the encoding of what it reads; no bit of it is ignored and each
operation has one word. -/
def Obligations.EncodeOfDecodeIsWord : Prop :=
  ∀ (w : Word) (i : Instr), decode w = .ok i → encode i = w

/-- Rules R84 to R88: the words the decoder accepts are exactly those that match a row of the operation table under the
row's mask. -/
def Obligations.AcceptedWordsAreTheTableRows : Prop :=
  ∀ w : Word, (∃ i, decode w = .ok i) ↔
    ∃ r ∈ [((0xF000FFFF : Word), (0x00000000 : Word)), (0xF00000FE, 0x10000000), (0xF0FFFFFF, 0x20000000),
           (0xF0FFFFFF, 0x30000000), (0xF000FFFF, 0x40000000), (0xF00000FF, 0x50000000), (0xF00000FF, 0x60000000),
           (0xF000FFFF, 0x70000000), (0xF00000FF, 0x80000000)], w &&& r.1 = r.2

/-- Words written out from the formats of rules R85 to R88 decode to the operation they stand for. -/
def Obligations.WrittenWordsDecode : Prop :=
  decode 0b0000_0000_00001010_00000000_00000000#32 = .ok (.constructPin 0 10) ∧
  decode 0b0001_0001_00101011_00000100_00000001#32 = .ok (.constructExplicit 1 0x2B 4 true) ∧
  decode 0b0010_0011_00000000_00000000_00000000#32 = .ok (.begin 3) ∧
  decode 0b0011_0010_00000000_00000000_00000000#32 = .ok (.isConnected 2) ∧
  decode 0b0100_0000_00000110_00000000_00000000#32 = .ok (.command 0 6) ∧
  decode 0b0101_0000_00010000_10101010_00000000#32 = .ok (.write1 0 0x10 0xAA) ∧
  decode 0b0110_0000_01111111_11111111_00000000#32 = .ok (.writeN 0 0x7F 255) ∧
  decode 0b0111_0001_00010000_00000000_00000000#32 = .ok (.read1 1 0x10) ∧
  decode 0b1000_0000_00010000_00000010_00000000#32 = .ok (.readN 0 0x10 2)

/-- Rules R41, R46, R51, R56, R66, R82, R163, R172: a step at a ready port is HOST's next action. A word that decodes is
written to `CMD` and the step is the operation. A fill writes its one byte of `BUF` and nothing else. While HOST waits,
or has no action left, ENGINE does nothing: the step changes what LINK's or TIME's turn changes, and without such a turn
nothing but the turn used up. (The lists `host` and `sched` are the model's, log entries 4, 6, 15, 16, 23.) -/
def Obligations.StepRunsTheDecodedOperation : Prop :=
  (∀ (s : State) (w : Word) (hs : List HostAct) (i : Instr),
    s.cfg.wf = true → s.eng.phase = .ready → s.host = .issue w :: hs → decode w = .ok i →
    step s = exec i { s with host := hs, cmd := w }) ∧
  (∀ (s : State) (n : Fin 255) (v : Byte) (hs : List HostAct),
    s.cfg.wf = true → s.eng.phase = .ready → s.host = .fill n v :: hs → MemoryCanonical s →
    ∃ t, step s = .next t ∧ (∀ a, t.bufByte a = if a = n.val then v else s.bufByte a) ∧
      t = { s with host := hs, buf := t.buf }) ∧
  (∀ (s : State) (hs : List HostAct),
    s.cfg.wf = true → s.eng.phase = .ready → (s.host = .wait :: hs ∨ (s.host = [] ∧ hs = [])) →
    (s.sched = [] → step s = .next { s with host := hs }) ∧
    (∀ ts, s.sched = .stall :: ts → step s = .next { s with host := hs }) ∧
    (∀ ts, s.sched = .engine :: ts → step s = .next { s with host := hs, sched := ts }) ∧
    (∀ r ts, s.sched = .link r :: ts → s.spi.xfer = none → step s = .next { s with host := hs, sched := ts }) ∧
    (∀ r ts tx, s.sched = .link r :: ts → s.spi.xfer = some tx →
      step s = .next { s with host := hs, sched := ts, trace := s.trace ++ [.done tx r],
                              spi := { s.spi with rxd := r, done := true, xfer := none } }) ∧
    (∀ d ts, s.sched = .time d :: ts →
      step s = .next { s with host := hs, sched := ts, time := (s.time + d) % 2 ^ s.cfg.timeBits }))

/-- Rule R104: a word issued at a ready port is answered ILLEGAL, with nothing but `RSP` changed beside HOST's own write
of `CMD`, exactly when one of the clauses (a) to (e) holds; otherwise it is accepted as an operation. That `CMD` holds the
ILLEGAL word afterwards is the model's choice, read from rules R46 and R51 (log entry 11). -/
def Obligations.IllegalWordWritesOnlyTheResponse : Prop :=
  ∀ (s : State) (w : Word) (hs : List HostAct),
    s.cfg.wf = true → s.eng.phase = .ready → s.host = .issue w :: hs →
    (IllegalWord s w → step s = .next { s with host := hs, cmd := w, rsp := 0x300#10 }) ∧
    (¬ IllegalWord s w → ∃ i, decode w = .ok i ∧ Accepts { s with host := hs, cmd := w } i)

/-- Rules R14, R19: parameters that fail `WF` are no machine, and every step and every operation is refused. -/
def Obligations.IllFormedConfigurationIsRefused : Prop :=
  ∀ (s : State), s.cfg.wf = false →
    step s = .refused .notAConfiguration ∧ ∀ i, exec i s = .refused .notAConfiguration

/-- An operation presented while another is under way is refused. Rules R46 and R177 say only that HOST cannot issue one;
the refusal is the model's choice (U26 `refuse`, log entry 13). -/
def Obligations.BusyPortRefusesASecondOperation : Prop :=
  ∀ (s : State) (op : Instr) (l : Label) (i : Instr),
    s.cfg.wf = true → s.eng.phase = .busy op l → exec i s = .refused .portBusy

/-! ### Resolver -/

/-- Rules R109, R111: `CONSTRUCT_PIN` on an unconstructed slot: an unmapped pin gives an invalid handle, a mapped one a
valid handle on its bank and on the bit of its mask; the polarity is not inverted, the response is VOID, nothing else
changes but `ENG.cur` and the private buffer. The model's choices in it: the pin table as a list, whose first row of a pin
counts (log entry 9), and that accepting an operation writes `ENG.cur` and empties the private buffer (log entry 12). -/
def Obligations.ConstructPinStoresTheResolvedHandle : Prop :=
  ∀ (s : State) (h : Slot) (pin : Byte), Accepts s (.constructPin h pin) →
    ((s.cfg.pinTable.find? fun e => e.pin == pin) = none →
      exec (.constructPin h pin) s =
        .next (((s.openOp (.constructPin h pin)).setHandle h ⟨true, none, 0, false, false⟩).respond 0x200#10)) ∧
    (∀ e, (s.cfg.pinTable.find? fun e => e.pin == pin) = some e →
      ∃ b, b < 8 ∧ e.mask = 1#8 <<< b ∧
      exec (.constructPin h pin) s =
        .next (((s.openOp (.constructPin h pin)).setHandle h
          ⟨true, some e.bank, BitVec.ofNat 8 b, true, false⟩).respond 0x200#10))

/-- Rules R110, R112: `CONSTRUCT_EXPLICIT` on an unconstructed slot: the bank whose output register `regid` names, valid
exactly when the index is below 8; no bank and invalid when it names none; the polarity as given; the response VOID.
That accepting it writes `ENG.cur` and empties the private buffer is the model's choice (log entry 12). -/
def Obligations.ConstructExplicitStoresTheValidatedHandle : Prop :=
  ∀ (s : State) (h : Slot) (regid pinIndex : Byte) (invert : Bool),
    Accepts s (.constructExplicit h regid pinIndex invert) →
    (∀ k ∈ s.cfg.banks, k.outId = regid →
      exec (.constructExplicit h regid pinIndex invert) s =
        .next (((s.openOp (.constructExplicit h regid pinIndex invert)).setHandle h
          ⟨true, some k.token, pinIndex, decide (pinIndex.toNat < 8), invert⟩).respond 0x200#10)) ∧
    ((∀ k ∈ s.cfg.banks, k.outId ≠ regid) →
      exec (.constructExplicit h regid pinIndex invert) s =
        .next (((s.openOp (.constructExplicit h regid pinIndex invert)).setHandle h
          ⟨true, none, pinIndex, false, invert⟩).respond 0x200#10))

/-- Rule R113: `IS_CONNECTED` answers the handle's validity and changes nothing else but `ENG.cur` and the private buffer;
that it writes those two is the model's choice (log entry 12). -/
def Obligations.IsConnectedAnswersTheValidity : Prop :=
  ∀ (s : State) (h : Slot), Accepts s (.isConnected h) →
    exec (.isConnected h) s =
      .next ((s.openOp (.isConnected h)).respond (if (s.handle h).valid then 0x100#10 else 0x000#10))

/-- Rules R110, R112, R113 (the source's property S2): a register that is no bank's output register, or an index of 8 or
more, gives a handle that reports unconnected. -/
def Obligations.FailedValidationReportsUnconnected : Prop :=
  ∀ (s t : State) (h : Slot) (regid pinIndex : Byte) (invert : Bool),
    Accepts s (.constructExplicit h regid pinIndex invert) →
    ((∀ k ∈ s.cfg.banks, k.outId ≠ regid) ∨ 8 ≤ pinIndex.toNat) →
    exec (.constructExplicit h regid pinIndex invert) s = .next t →
    ∃ u, exec (.isConnected h) t = .next u ∧ u.rsp = 0x000#10

/-- Rules R25, R30, R114: no step changes any field of a constructed handle. -/
def Obligations.ConstructedHandleNeverChanges : Prop :=
  ∀ (s t : State) (h : Slot), step s = .next t → (s.handle h).constructed = true → t.handle h = s.handle h

/-- Rules R26, R28, R50 clause (b): every step keeps the soundness of the handles. -/
def Obligations.StepKeepsHandlesSound : Prop :=
  ∀ (s t : State), HandlesSound s → step s = .next t → HandlesSound t

/-! ### Bus Initializer -/

/-- Rule R122: `p` is the highest set bit's position, plus one when a second bit is set below it, and it is the least
natural number with `2^p >= DIV`; for `DIV >= 2` it is at least 1. -/
def Obligations.PositionIsTheCeilingLogarithm : Prop :=
  ∀ div : Nat, 2 ≤ div →
    (∀ p0, 2 ^ p0 ≤ div → div < 2 ^ (p0 + 1) → position div = if div = 2 ^ p0 then p0 else p0 + 1) ∧
    div ≤ 2 ^ position div ∧ (∀ n, div ≤ 2 ^ n → position div ≤ n) ∧ 1 ≤ position div

/-- Rule R123: from position 7 on the maximum divider without double speed; below it double speed is enabled exactly at
odd positions, and the select field is `(p-1)/2` with it and `p/2 - 1` without. -/
def Obligations.DividerFieldsFollowThePosition : Prop :=
  ∀ p : Nat, 1 ≤ p →
    (7 ≤ p → divFields p = ⟨false, 3⟩) ∧
    (p < 7 → ((divFields p).dbl = true ↔ p % 2 = 1) ∧
      ((divFields p).dbl = true → 2 * (divFields p).sel.toNat + 1 = p) ∧
      ((divFields p).dbl = false → 2 * ((divFields p).sel.toNat + 1) = p))

/-- Rule R127: the whole divider table, by the ratio `q = floor(F_BASE / F_SPI)`. -/
def Obligations.DividerFollowsTheTable : Prop :=
  ∀ c : Config,
    (c.fBase / c.fSpi ≤ 3 → c.wf = false) ∧
    (4 ≤ c.fBase / c.fSpi → c.fBase / c.fSpi ≤ 5 →
      divValue c = 2 ∧ position (divValue c) = 1 ∧ busFields c = ⟨true, 0⟩) ∧
    (6 ≤ c.fBase / c.fSpi → c.fBase / c.fSpi ≤ 9 →
      3 ≤ divValue c ∧ divValue c ≤ 4 ∧ position (divValue c) = 2 ∧ busFields c = ⟨false, 0⟩) ∧
    (10 ≤ c.fBase / c.fSpi → c.fBase / c.fSpi ≤ 17 →
      5 ≤ divValue c ∧ divValue c ≤ 8 ∧ position (divValue c) = 3 ∧ busFields c = ⟨true, 1⟩) ∧
    (18 ≤ c.fBase / c.fSpi → c.fBase / c.fSpi ≤ 33 →
      9 ≤ divValue c ∧ divValue c ≤ 16 ∧ position (divValue c) = 4 ∧ busFields c = ⟨false, 1⟩) ∧
    (34 ≤ c.fBase / c.fSpi → c.fBase / c.fSpi ≤ 65 →
      17 ≤ divValue c ∧ divValue c ≤ 32 ∧ position (divValue c) = 5 ∧ busFields c = ⟨true, 2⟩) ∧
    (66 ≤ c.fBase / c.fSpi → c.fBase / c.fSpi ≤ 129 →
      33 ≤ divValue c ∧ divValue c ≤ 64 ∧ position (divValue c) = 6 ∧ busFields c = ⟨false, 2⟩) ∧
    (130 ≤ c.fBase / c.fSpi → 65 ≤ divValue c ∧ 7 ≤ position (divValue c) ∧ busFields c = ⟨false, 3⟩) ∧
    (c.fBase = 16000000 → c.fSpi = 4000000 →
      divValue c = 2 ∧ position (divValue c) = 1 ∧ busFields c = ⟨true, 0⟩)

/-- Rules R34, R94, R95, R97: the fields of the control word and of the status word. -/
def Obligations.ControlAndStatusWordsHoldTheFields : Prop :=
  ∀ c : Config,
    (ctrlWord c).getLsbD 7 = false ∧ (ctrlWord c).getLsbD 6 = true ∧ (ctrlWord c).getLsbD 5 = c.lsbFirst ∧
    (ctrlWord c).getLsbD 4 = true ∧ (ctrlWord c).getLsbD 3 = c.cpol ∧ (ctrlWord c).getLsbD 2 = c.cpha ∧
    (ctrlWord c).extractLsb' 0 2 = (busFields c).sel ∧
    statusWord c = if (busFields c).dbl then 0x01 else 0x00

/-- Rules R117 to R120, R124: the first `BEGIN` on a valid handle completes whatever LINK and TIME do: the chip-select
pin is an output and high, the bus output pins are outputs, the control register and the double-speed bit are
programmed, the latch is set, the response is VOID; no other GPIO bit, no handle, no byte of `BUF` and no tag changes,
and the link's own state is as before while LINK is silent. -/
def Obligations.FirstBeginProgramsTheBus : Prop :=
  ∀ (s : State) (h : Slot) (k b : Nat),
    Accepts s (.begin h) → Drives s h k b → s.busInit = false → MemoryCanonical s →
    ∃ t, exec (.begin h) s = .next t ∧ t.rsp = 0x200#10 ∧ t.busInit = true ∧
      t.spi.ctrl = ctrlWord s.cfg ∧ t.spi.dbl = (busFields s.cfg).dbl ∧
      (∀ k' b', b' < 8 → (t.dirReg k').getLsbD b' =
        ((s.dirReg k').getLsbD b' || decide ((k', b') = (k, b) ∨ (k', b') ∈ s.cfg.busOutPins))) ∧
      (∀ k' b', (t.outReg k').getLsbD b' = ((s.outReg k').getLsbD b' || decide ((k', b') = (k, b)))) ∧
      t.trace.filter isCsEvent = s.trace.filter isCsEvent ++ [.csHigh h] ∧
      t.eng.phase = .ready ∧ t.eng.txn = s.eng.txn ∧ t.handles = s.handles ∧ t.cfg = s.cfg ∧ t.diag = s.diag ∧
      t.cmd = s.cmd ∧ t.host = s.host ∧ BufKept s t ∧
      (LinkSilent s.sched → t.spi = { s.spi with ctrl := ctrlWord s.cfg, dbl := (busFields s.cfg).dbl })

/-- Rules R117, R119, R125, R184: `BEGIN` on a valid handle while the bus is initialised completes and repeats only the
chip-select configuration. -/
def Obligations.LaterBeginTouchesOnlyItsPin : Prop :=
  ∀ (s : State) (h : Slot) (k b : Nat),
    Accepts s (.begin h) → Drives s h k b → s.busInit = true → MemoryCanonical s →
    ∃ t, exec (.begin h) s = .next t ∧ t.rsp = 0x200#10 ∧ t.busInit = true ∧
      t.spi.ctrl = s.spi.ctrl ∧ t.spi.dbl = s.spi.dbl ∧
      (∀ k' b', (t.dirReg k').getLsbD b' = ((s.dirReg k').getLsbD b' || decide ((k', b') = (k, b)))) ∧
      (∀ k' b', (t.outReg k').getLsbD b' = ((s.outReg k').getLsbD b' || decide ((k', b') = (k, b)))) ∧
      t.trace.filter isCsEvent = s.trace.filter isCsEvent ++ [.csHigh h] ∧
      t.eng.phase = .ready ∧ t.eng.txn = s.eng.txn ∧ t.handles = s.handles ∧ t.cfg = s.cfg ∧ t.diag = s.diag ∧
      t.cmd = s.cmd ∧ t.host = s.host ∧ BufKept s t ∧
      (LinkSilent s.sched → t.spi = s.spi)

/-- Rule R148 (conflict C4): `BEGIN` on an invalid handle emits `badCs` exactly once (into a sink that is present, rule
R151), writes no register of any space, leaves the latch and answers VOID; and no other operation emits `badCs`. -/
def Obligations.BeginOnAnInvalidHandleEmitsBadCs : Prop :=
  (∀ (s : State) (h : Slot), Accepts s (.begin h) → (s.handle h).valid = false →
    ∃ t, exec (.begin h) s = .next t ∧ t.rsp = 0x200#10 ∧
      t.diag = (if s.cfg.sinkPresent then s.diag ++ [.badCs] else s.diag) ∧
      t.gpioOut = s.gpioOut ∧ t.gpioDir = s.gpioDir ∧ t.spi.ctrl = s.spi.ctrl ∧ t.spi.dbl = s.spi.dbl ∧
      t.busInit = s.busInit ∧ t.handles = s.handles ∧ t.buf = s.buf ∧ t.cfg = s.cfg ∧
      t.trace.filter isCsEvent = s.trace.filter isCsEvent ∧ t.eng.txn = s.eng.txn ∧ t.eng.phase = .ready ∧
      t.cmd = s.cmd ∧ t.host = s.host ∧ (LinkSilent s.sched → t.spi = s.spi)) ∧
  (∀ (i : Instr) (s t : State), exec i s = .next t → t.diag = s.diag ++ [.badCs] →
    ∃ h, i = .begin h ∧ (s.handle h).valid = false)

/-- Rules R40, R50 clause (d), R124, R125: every step keeps the bus programmed exactly when the latch says so. -/
def Obligations.StepKeepsBusProgrammed : Prop :=
  ∀ (s t : State), BusProgrammed s → step s = .next t → BusProgrammed t

/-- Rules R40, R116, R125: once the bus is initialised no step resets the latch or writes the control register or the
double-speed bit. -/
def Obligations.InitialisedBusIsNeverReprogrammed : Prop :=
  ∀ (s t : State), BusProgrammed s → s.busInit = true → step s = .next t →
    t.busInit = true ∧ t.spi.ctrl = s.spi.ctrl ∧ t.spi.dbl = s.spi.dbl

/-- Rules R116, R117: only `BEGIN` on a valid handle initialises the bus. -/
def Obligations.OnlyBeginInitialisesTheBus : Prop :=
  ∀ (i : Instr) (s t : State), exec i s = .next t → s.busInit = false → t.busInit = true →
    ∃ h, i = .begin h ∧ (s.handle h).valid = true

/-! ### The SPI registers and one exchange -/

/-- Rules R61, R62, R65: a status read returns the flags in their places and arms those it saw; a status write changes
`DBL` alone; an access of `SPI.DATA` first clears every armed flag and both arming bits. -/
def Obligations.FlagsFollowTheArmingProtocol : Prop :=
  ∀ (p : Spi) (v : Byte),
    (p.status.getLsbD 7 = p.done ∧ p.status.getLsbD 6 = p.coll ∧ p.status.extractLsb' 1 5 = 0 ∧
      p.status.getLsbD 0 = p.dbl) ∧
    p.arm = { p with armDone := p.armDone || p.done, armColl := p.armColl || p.coll } ∧
    p.writeStatus v = { p with dbl := v.getLsbD 0 } ∧
    p.clearArmed = { p with done := if p.armDone then false else p.done,
                            coll := if p.armColl then false else p.coll, armDone := false, armColl := false } ∧
    p.readData = p.clearArmed

/-- Rule R64: the three cases of a data write, after the armed flags are cleared. -/
def Obligations.DataWriteStartsOrCollides : Prop :=
  ∀ (p : Spi) (v : Byte),
    (p.enabled = false ∨ p.master = false → p.writeData v = p.clearArmed ∧ p.writeEvents v = []) ∧
    (p.Running → p.xfer = none →
      p.writeData v = { p.clearArmed with xfer := some v } ∧ p.writeEvents v = [.start v]) ∧
    (∀ u, p.Running → p.xfer = some u →
      p.writeData v = { p.clearArmed with coll := true } ∧ p.writeEvents v = [.collide v])

/-- Rule R66: LinkComplete ends the transfer in flight, supplies the drawn byte, sets `DONE` and records the pair; with
nothing in flight it is no step. -/
def Obligations.LinkCompleteEndsTheTransfer : Prop :=
  ∀ (s : State) (r : Byte),
    (∀ tx, s.spi.xfer = some tx → s.linkComplete r =
      { s with spi := { s.spi with rxd := r, done := true, xfer := none }, trace := s.trace ++ [.done tx r] }) ∧
    (s.spi.xfer = none → s.linkComplete r = s)

/-- Rule R93: the command byte of a write and of a read, for both polarities. -/
def Obligations.CommandBytesSetTheTopBit : Prop :=
  ∀ (reg : Byte) (invert : Bool),
    writeCmd reg invert = (if invert = false then reg &&& 0x7F else reg ||| 0x80) ∧
    readCmd reg invert = (if invert = false then reg ||| 0x80 else reg &&& 0x7F) ∧
    readCmd reg invert = writeCmd reg invert ^^^ 0x80 ∧
    (writeCmd reg invert).extractLsb' 0 7 = reg.extractLsb' 0 7 ∧
    (readCmd reg invert).extractLsb' 0 7 = reg.extractLsb' 0 7 ∧
    writeCmd (reg ^^^ 0x80) invert = writeCmd reg invert ∧ readCmd (reg ^^^ 0x80) invert = readCmd reg invert

/-- Rules R133, R155: the status read of a poll round: a collision ends the exchange in error whatever `DONE` says, a
completion leads to the data read, and only then is the time sampled; the read arms what it saw. -/
def Obligations.PollTestsCollisionThenCompletion : Prop :=
  ∀ (s : State) (op : Instr) (x : Exchange), s.eng.phase = .busy op (.poll x) →
    microStep s = (s.withSpi s.spi.arm).goto op
      (if s.spi.coll then .unselect false else if s.spi.done then .receive x else .clock x)

/-- Rules R133, R149, R188, R191: at a time sample `e` microseconds after the sample taken after the data write, across a
wrap of the counter too, the exchange times out exactly when `e` is more than `TIMEOUT_US`; otherwise the poll goes on. -/
def Obligations.TimeoutExactlyBeyondTheBound : Prop :=
  ∀ (s : State) (op : Instr) (x : Exchange) (e : Nat),
    s.eng.phase = .busy op (.clock x) → s.eng.t0 < 2 ^ s.cfg.timeBits → e < 2 ^ s.cfg.timeBits →
    s.time = (s.eng.t0 + e) % 2 ^ s.cfg.timeBits →
    (s.cfg.timeoutUs < e → microStep s = s.goto op .timedOut) ∧
    (e ≤ s.cfg.timeoutUs → microStep s = s.goto op (.poll x))

/-- Rules R132, R139, R190: a delay ends at a time sample exactly when its parameter has elapsed, across a wrap of the
counter too. -/
def Obligations.DelayEndsOnceItsTimeHasElapsed : Prop :=
  ∀ (s : State) (op : Instr) (e : Nat),
    s.eng.t0 < 2 ^ s.cfg.timeBits → e < 2 ^ s.cfg.timeBits → s.time = (s.eng.t0 + e) % 2 ^ s.cfg.timeBits →
    (s.eng.phase = .busy op .settleWait → microStep s =
      s.goto op (if s.cfg.readSettleUs ≤ e then .send .byte 0x00 else .settleWait)) ∧
    (s.eng.phase = .busy op .tailWait → microStep s =
      s.goto op (if s.cfg.readTailUs ≤ e then .unselect true else .tailWait))

/-! ### Transactions that succeed

A prompt link is one on which every transfer completes before a time sample exceeds the bound (rule R134 clause (b), rule
R193 clause (d)): after any number of flagless polls within it, `Answer.InTime`. The lists of turns are the model's own
way to write such a link (log entry 4). -/

/-- Rule R135: `COMMAND` on a clean, running, prompt link sends the byte as given between one selection and one
deselection, and answers OK; `T` moves by TIME's advances alone. -/
def Obligations.CommandSucceedsOnAPromptLink : Prop :=
  ∀ (s : State) (h : Slot) (cmd : Byte) (a : Answer) (k b : Nat) (rest : List Turn),
    Accepts s (.command h cmd) → Drives s h k b → MemoryCanonical s → s.spi.Clean → s.spi.Running →
    a.InTime s.cfg → s.sched = promptTurns s.cfg (.command h cmd) [a] ++ rest →
    ∃ t, exec (.command h cmd) s = .next t ∧ t.rsp = 0x100#10 ∧
      t.trace = s.trace ++ [.csLow h, .start cmd, .done cmd a.byte, .csHigh h] ∧
      t.buf = s.buf ∧ t.time = timeAfter s.cfg s.time (a.waits ++ a.late) ∧ PromptlyEnded s t h k b a.byte rest

/-- Rules R93, R140: `WRITE1` sends the write command byte and its operand, and answers OK; `BUF` is not touched. -/
def Obligations.Write1SucceedsOnAPromptLink : Prop :=
  ∀ (s : State) (h : Slot) (reg value : Byte) (a a' : Answer) (k b : Nat) (rest : List Turn),
    Accepts s (.write1 h reg value) → Drives s h k b → MemoryCanonical s → s.spi.Clean → s.spi.Running →
    a.InTime s.cfg → a'.InTime s.cfg → s.sched = promptTurns s.cfg (.write1 h reg value) [a, a'] ++ rest →
    ∃ t, exec (.write1 h reg value) s = .next t ∧ t.rsp = 0x100#10 ∧
      t.trace = s.trace ++ [.csLow h] ++
        exchangeEvents [(writeCmd reg (s.handle h).invert, a.byte), (value, a'.byte)] ++ [.csHigh h] ∧
      t.buf = s.buf ∧ t.time = timeAfter s.cfg s.time (a.waits ++ a.late ++ a'.waits ++ a'.late) ∧
      PromptlyEnded s t h k b a'.byte rest

/-- Rules R59 clause (b), R93, R137: `WRITEN` sends the write command byte and then `BUF[0..len-1]` in ascending order,
and answers OK, for every length from 0 to 255; `BUF` is not modified. -/
def Obligations.WriteNSucceedsOnAPromptLink : Prop :=
  ∀ (s : State) (h : Slot) (reg len : Byte) (a : Answer) (as : List Answer) (k b : Nat) (rest : List Turn),
    Accepts s (.writeN h reg len) → Drives s h k b → MemoryCanonical s → s.spi.Clean → s.spi.Running →
    as.length = len.toNat → (∀ x ∈ a :: as, x.InTime s.cfg) →
    s.sched = promptTurns s.cfg (.writeN h reg len) (a :: as) ++ rest →
    ∃ t, exec (.writeN h reg len) s = .next t ∧ t.rsp = 0x100#10 ∧
      t.trace = s.trace ++ [.csLow h] ++
        exchangeEvents ((writeCmd reg (s.handle h).invert, a.byte) ::
          (s.payload len.toNat).zip (as.map (·.byte))) ++ [.csHigh h] ∧
      t.buf = s.buf ∧ t.time = timeAfter s.cfg s.time ((a :: as).flatMap fun x => x.waits ++ x.late) ∧
      PromptlyEnded s t h k b ((a :: as).getLast (by simp)).byte rest

/-- Rules R93, R139, R141: `READ1` sends the read command byte and one zero byte, with the settling delay between and the
tail delay after, and answers VOID with the byte received; `BUF` is not touched. -/
def Obligations.Read1SucceedsOnAPromptLink : Prop :=
  ∀ (s : State) (h : Slot) (reg : Byte) (a a' : Answer) (k b : Nat) (rest : List Turn),
    Accepts s (.read1 h reg) → Drives s h k b → MemoryCanonical s → s.spi.Clean → s.spi.Running →
    a.InTime s.cfg → a'.InTime s.cfg → s.sched = promptTurns s.cfg (.read1 h reg) [a, a'] ++ rest →
    ∃ t, exec (.read1 h reg) s = .next t ∧ t.rsp = 0b10#2 ++ a'.byte ∧
      t.trace = s.trace ++ [.csLow h] ++
        exchangeEvents [(readCmd reg (s.handle h).invert, a.byte), (0x00, a'.byte)] ++ [.csHigh h] ∧
      t.buf = s.buf ∧ PromptlyEnded s t h k b a'.byte rest

/-- Rules R59 clause (b), R93, R138, R139: `READN` sends the read command byte and `len` zero bytes, each after a settling
delay, stores response byte `i` at `BUF[i]` and nothing elsewhere, and answers OK, for every length from 0 to 255. -/
def Obligations.ReadNSucceedsOnAPromptLink : Prop :=
  ∀ (s : State) (h : Slot) (reg len : Byte) (a : Answer) (as : List Answer) (k b : Nat) (rest : List Turn),
    Accepts s (.readN h reg len) → Drives s h k b → MemoryCanonical s → s.spi.Clean → s.spi.Running →
    as.length = len.toNat → (∀ x ∈ a :: as, x.InTime s.cfg) →
    s.sched = promptTurns s.cfg (.readN h reg len) (a :: as) ++ rest →
    ∃ t, exec (.readN h reg len) s = .next t ∧ t.rsp = 0x100#10 ∧
      t.trace = s.trace ++ [.csLow h] ++
        exchangeEvents ((readCmd reg (s.handle h).invert, a.byte) :: as.map fun x => (0x00, x.byte)) ++ [.csHigh h] ∧
      (∀ i, t.bufByte i = if i < len.toNat then (as.map (·.byte)).getD i 0x00 else s.bufByte i) ∧
      PromptlyEnded s t h k b ((a :: as).getLast (by simp)).byte rest

/-! ### Transactions that fail -/

/-- Rules R129, R152: every transaction on an invalid handle is refused at once: the failure response, and no other change
but `ENG.cur` and the private buffer; that a refused transaction writes those two is the model's choice (log entry 12). -/
def Obligations.InvalidHandleIsRefused : Prop :=
  ∀ (op : Instr) (s : State), isTransaction op = true → Accepts s op → (s.handle op.slot).valid = false →
    exec op s = .next ((s.openOp op).respond (failureResponse op))

/-- Rules R149, R156, R170 clause (b), R175 clause (a) (the source's property S8): while LINK is silent and TIME is fair,
every transaction on a valid handle with a clean link ends in one `timeout`, deselected, with the failure response,
after presenting the command byte alone: in flight when the bus runs, nowhere when it does not. A bound that no elapsed
time exceeds (`TIMEOUT_US = 2^TIME_BITS - 1`) is left out, and how TIME ends the wait when no turn is left is the model's
choice (log entry 5). -/
def Obligations.SilentLinkEndsInOneTimeout : Prop :=
  ∀ (op : Instr) (s : State) (k b : Nat), isTransaction op = true → Accepts s op → Drives s op.slot k b →
    MemoryCanonical s → s.spi.Clean → LinkSilent s.sched → Fair s.sched → BoundReachable s.cfg →
    ∃ t, exec op s = .next t ∧ t.rsp = failureResponse op ∧
      t.diag = (if s.cfg.sinkPresent then s.diag ++ [.timeout] else s.diag) ∧
      t.trace = s.trace ++ [.csLow op.slot] ++
        (if s.spi.enabled && s.spi.master then [.start (commandByte op (s.handle op.slot).invert)] else []) ++
        [.csHigh op.slot] ∧
      t.spi = { s.spi with
        xfer := (if s.spi.enabled && s.spi.master then some (commandByte op (s.handle op.slot).invert) else none) } ∧
      t.buf = s.buf ∧ Ended t op.slot ∧ TransactionKeeps s t ∧ OutKeptBut s t k b

/-- Rules R134 clause (e), R150, R178 case (a), R179: while an earlier transfer is held in flight and LINK is silent, every
transaction on a valid handle collides at its first status read: the failure response, no tag, no byte sent, deselected,
and the link held as before, so that the next one collides too. -/
def Obligations.HeldTransferMakesEveryTransactionCollide : Prop :=
  ∀ (op : Instr) (s : State) (k b : Nat), isTransaction op = true → Accepts s op → Drives s op.slot k b →
    MemoryCanonical s → s.spi.Held → LinkSilent s.sched →
    ∃ t, exec op s = .next t ∧ t.rsp = failureResponse op ∧ t.diag = s.diag ∧
      t.trace = s.trace ++ [.csLow op.slot, .collide (commandByte op (s.handle op.slot).invert), .csHigh op.slot] ∧
      t.spi = { s.spi with coll := true, armDone := false, armColl := true } ∧ t.spi.Held ∧
      t.buf = s.buf ∧ Ended t op.slot ∧ TransactionKeeps s t ∧ OutKeptBut s t k b

/-- Rules R134 clause (f), R178 case (b): after a late completion nobody saw, `COMMAND` succeeds at its first status read
on the stale flag and leaves its own byte in flight. -/
def Obligations.StaleCompletionAnswersForAnotherByte : Prop :=
  ∀ (s : State) (h : Slot) (cmd : Byte) (k b : Nat),
    Accepts s (.command h cmd) → Drives s h k b → MemoryCanonical s → s.spi.Running → s.spi.xfer = none →
    s.spi.done = true → s.spi.armDone = false → s.spi.coll = false → LinkSilent s.sched →
    ∃ t, exec (.command h cmd) s = .next t ∧ t.rsp = 0x100#10 ∧ t.diag = s.diag ∧
      t.trace = s.trace ++ [.csLow h, .start cmd, .csHigh h] ∧
      t.spi = { s.spi with done := false, xfer := some cmd, armColl := false } ∧
      Ended t h ∧ TransactionKeeps s t

/-- Rules R169, R180: `READ1`'s answer 0xFF does not tell failure from data: from one state with a valid handle and nothing
recorded yet, with the agents' turns alone differing, one run receives the byte 0xFF and leaves no tag, the other times
out without receiving any byte, and both answer 0x2FF. -/
def Obligations.SentinelDoesNotTellFailureFromData : Prop :=
  ∃ (s : State) (ts : List Turn) (t t' : State),
    (s.handle 0).valid = true ∧ s.trace = [] ∧ s.diag = [] ∧
    exec (.read1 0 0x10) s = .next t ∧ exec (.read1 0 0x10) { s with sched := ts } = .next t' ∧
    t.rsp = 0x2FF#10 ∧ t'.rsp = 0x2FF#10 ∧
    WireEvent.done 0x00 0xFF ∈ t.trace ∧ t.diag = [] ∧
    (∀ tx r, WireEvent.done tx r ∉ t'.trace) ∧ t'.diag = [.timeout]

/-! ### Every transaction, whatever LINK and TIME do -/

/-- Rules R128, R136, R142, R143, R156, R170 clause (a), R181, R193 (the source's property S7), in two parts. Whatever LINK
and TIME do, a transaction on a valid handle that answers has made one selection and one deselection, in that order and
as its last event, with all its bytes between; it ends ready, idle and deselected; the bytes it presented are the first
of its bytes, in order; after a collision no byte is started and the response is the failure response; on a running bus
an OK means that every byte was presented, and a `READN` that fails at response byte `i`, by a collision or a timeout,
leaves `BUF` from `i` on as it was. And from a clean, running link that answers the first bytes in time and is then
silent, the next byte, whichever it is, is the last one started: it times out with one tag, the failure response, and
`READN`'s earlier response bytes stored and no other. (A bound that no elapsed time exceeds is left out, log entry 5.) -/
def Obligations.SelectionAlwaysPairs : Prop :=
  (∀ (op : Instr) (s t : State) (k b : Nat), isTransaction op = true → Accepts s op → Drives s op.slot k b →
    exec op s = .next t →
    Ended t op.slot ∧
    ∃ pre mid, t.trace = s.trace ++ pre ++ [.csLow op.slot] ++ mid ++ [.csHigh op.slot] ∧
      (∀ e ∈ pre, ∃ tx r, e = .done tx r) ∧ (∀ e ∈ mid, isCsEvent e = false) ∧
      (∀ m v m', mid = m ++ .collide v :: m' → (∀ e ∈ m', ∃ tx r, e = .done tx r) ∧ t.rsp = failureResponse op) ∧
      mid.filterMap presentedByte <+: s.wireBytes op ∧
      (s.spi.Running →
        (t.rsp = 0x100#10 → mid.filterMap presentedByte = s.wireBytes op) ∧
        (∀ h reg len, op = .readN h reg len → t.rsp = 0x000#10 →
          ∀ i, (mid.filterMap presentedByte).length ≤ i + 2 → t.bufByte i = s.bufByte i))) ∧
  (∀ (op : Instr) (s : State) (k b : Nat) (as : List Answer) (rest : List Turn),
    isTransaction op = true → Accepts s op → Drives s op.slot k b → MemoryCanonical s → s.spi.Clean → s.spi.Running →
    (∀ a ∈ as, a.InTime s.cfg) → as.length < (s.wireBytes op).length →
    s.sched = answeredTurns s.cfg op as ++ rest → LinkSilent rest → Fair rest → BoundReachable s.cfg →
    ∃ t, exec op s = .next t ∧ t.rsp = failureResponse op ∧
      t.diag = (if s.cfg.sinkPresent then s.diag ++ [.timeout] else s.diag) ∧
      t.trace = s.trace ++ [.csLow op.slot] ++ exchangeEvents ((s.wireBytes op).zip (as.map (·.byte))) ++
        [.start ((s.wireBytes op).getD as.length 0x00), .csHigh op.slot] ∧
      t.spi.xfer = some ((s.wireBytes op).getD as.length 0x00) ∧
      (∀ h reg len, op = .readN h reg len → ∀ i, t.bufByte i = ((as.map (·.byte)).drop 1).getD i (s.bufByte i)) ∧
      ((∀ h reg len, op ≠ .readN h reg len) → t.buf = s.buf) ∧
      Ended t op.slot ∧ TransactionKeeps s t ∧ OutKeptBut s t k b)

/-- Rules R30, R57, R69, R130, R131, R134 clause (h): the frame of the five transactions on a valid handle, for every
outcome: no parameter, handle, direction register, control register, double-speed bit or latch changes, and of `GPIO.OUT`
only the handle's own bit can. -/
def Obligations.TransactionsTouchOnlyTheirOwnPin : Prop :=
  ∀ (op : Instr) (s t : State) (k b : Nat), isTransaction op = true → Accepts s op → Drives s op.slot k b →
    MemoryCanonical s → exec op s = .next t → TransactionKeeps s t ∧ OutKeptBut s t k b

/-- Rules R41, R102, R137, R145, R181: of all nine operations only `READN` changes `BUF`, and only below its length. -/
def Obligations.OnlyReadNWritesTheBuffer : Prop :=
  ∀ (i : Instr) (s t : State) (a : Nat), exec i s = .next t → t.bufByte a ≠ s.bufByte a →
    ∃ h reg len, i = .readN h reg len ∧ a < len.toNat

/-- Rules R148, R149, R151, R154: an operation adds at most one tag, `badCs` by `BEGIN` on an invalid handle or `timeout` by
a transaction that failed, and none without a sink. -/
def Obligations.EachOperationEmitsAtMostOneTag : Prop :=
  ∀ (i : Instr) (s t : State), exec i s = .next t →
    t.diag = s.diag ∨
    (s.cfg.sinkPresent = true ∧ t.diag = s.diag ++ [.badCs] ∧ ∃ h, i = .begin h ∧ (s.handle h).valid = false) ∨
    (s.cfg.sinkPresent = true ∧ t.diag = s.diag ++ [.timeout] ∧ isTransaction i = true ∧ t.rsp = failureResponse i)

/-- Rule R134 clause (b): from a clean state no operation's data write collides. -/
def Obligations.CleanLinkNeverCollides : Prop :=
  ∀ (i : Instr) (s t : State), s.Clean → exec i s = .next t →
    ∃ es, t.trace = s.trace ++ es ∧ ∀ v, WireEvent.collide v ∉ es

/-- Rules R52, R133: an operation that answers OK from a clean state leaves a clean state. -/
def Obligations.SuccessLeavesTheLinkClean : Prop :=
  ∀ (i : Instr) (s t : State), s.Clean → exec i s = .next t → t.rsp = 0x100#10 → t.Clean

/-! ### Invariants and rules of the whole machine -/

/-- Rules R44, R50 clause (a), R142: with sound handles and canonical memories, every micro-step, every step of LINK and
TIME and every step keeps selection paired: inside a transaction the running operation's handle is selected and its line
low from `select` to `unselect`, and the port is idle whenever it is ready. -/
def Obligations.StepKeepsSelectionPaired : Prop :=
  (∀ s : State, MemoryCanonical s → HandlesSound s → SelectionPaired s → SelectionPaired (microStep s)) ∧
  (∀ (s : State) (r : Byte), SelectionPaired s → SelectionPaired (s.linkComplete r)) ∧
  (∀ (s : State) (d : Nat), SelectionPaired s → SelectionPaired (s.timeStep d)) ∧
  (∀ (s t : State), MemoryCanonical s → HandlesSound s → SelectionPaired s → step s = .next t → SelectionPaired t)

/-- Every step keeps the canonical form of the three memories (the model's own form of rules R53 to R56, log
entry 7). -/
def Obligations.StepKeepsMemoryCanonical : Prop :=
  ∀ (s t : State), MemoryCanonical s → step s = .next t → MemoryCanonical t

/-- Rules R45, R56: every micro-step of an operation under way, every step of LINK and TIME and every step keeps the loop
index below the operation's length while a byte is under way, and `BUF` within its 255 locations (that the rest reads as
unlisted is the model's form, log entry 7). -/
def Obligations.StepKeepsIndexInRange : Prop :=
  (∀ (s : State) (op : Instr) (l : Label), s.eng.phase = .busy op l → IndexInRange s → IndexInRange (microStep s)) ∧
  (∀ (s : State) (r : Byte), IndexInRange s → IndexInRange (s.linkComplete r)) ∧
  (∀ (s : State) (d : Nat), IndexInRange s → IndexInRange (s.timeStep d)) ∧
  (∀ (s t : State), IndexInRange s → step s = .next t → IndexInRange t)

/-- Rules R34, R39, R61, R64, R65: every step keeps an armed flag set, a transfer in flight only on a running bus, and the
reserved control bit 0. -/
def Obligations.StepKeepsLinkSound : Prop :=
  ∀ (s t : State), LinkSound s → step s = .next t → LinkSound t

/-- Rules R42, R163: every step keeps `T` a `TIME_BITS`-wide value. -/
def Obligations.StepKeepsTimeInRange : Prop :=
  ∀ (s t : State), TimeInRange s → step s = .next t → TimeInRange t

/-- Rules R32, R49, R80, R43: no step changes a parameter, clears a direction bit, or removes a tag or a wire event. -/
def Obligations.ParametersFixedAndLogsOnlyGrow : Prop :=
  ∀ (s t : State), MemoryCanonical s → step s = .next t →
    t.cfg = s.cfg ∧ s.diag <+: t.diag ∧ s.trace <+: t.trace ∧
    ∀ k b, (s.dirReg k).getLsbD b = true → (t.dirReg k).getLsbD b = true

/-- Rules R31, R69, R187: a GPIO bit that is no handle's bit, and for a direction register no bus output pin either, is the
same after every step. -/
def Obligations.ForeignGpioBitsNeverChange : Prop :=
  ∀ (s t : State) (k b : Nat), MemoryCanonical s → step s = .next t →
    (∀ h, (s.handle h).bank = some k → (s.handle h).pin.toNat ≠ b) →
    (t.outReg k).getLsbD b = (s.outReg k).getLsbD b ∧
    ((k, b) ∉ s.cfg.busOutPins → (t.dirReg k).getLsbD b = (s.dirReg k).getLsbD b)

/-- Rules R163, R168, R192: when TIME is fair and the bound can be exceeded, every step answers a next state with the port
ready: no operation hangs and none is refused, whatever LINK does. A bound that no elapsed time exceeds
(`TIMEOUT_US = 2^TIME_BITS - 1`) is left out (log entry 5). -/
def Obligations.EveryOperationAnswersWhenTimeIsFair : Prop :=
  ∀ (s : State), s.cfg.wf = true → Fair s.sched → BoundReachable s.cfg →
    ∃ t, step s = .next t ∧ t.eng.phase = .ready

/-- Rules R19, R146, R163: on a configuration a step never refuses; its only stop is the hang of an operation. -/
def Obligations.TheOnlyStopIsTheHang : Prop :=
  ∀ (s : State), s.cfg.wf = true → (∃ t, step s = .next t ∧ t.eng.phase = .ready) ∨ step s = .fault .hang

/-- Rules R43, R151: nothing reads the sink or the log: with another sink and another log a step does the same but for the
log. -/
def Obligations.DiagnosticsAreNeverRead : Prop :=
  ∀ (s : State) (present : Bool) (d : List Tag), ∃ d',
    step (s.withSink present d) =
      match step s with
      | .next t => .next (t.withSink present d')
      | .fault r => .fault r
      | .refused r => .refused r

/-- Rules R59, R97: the mode knobs and their three control bits have no effect on anything else a step computes. -/
def Obligations.ModesChangeNoOtherValue : Prop :=
  ∀ (s : State) (lsb cpol cpha : Bool) (c : Byte), ModeAlike s.spi.ctrl c →
    ∃ c', (∀ t, step s = .next t → ModeAlike t.spi.ctrl c') ∧
      step (s.withModes lsb cpol cpha c) =
        match step s with
        | .next t => .next (t.withModes lsb cpol cpha c')
        | .fault r => .fault r
        | .refused r => .refused r

/-! ### Reset -/

/-- Rules R48, R171, R172: the machine right after reset is a reset state, clean, on a configuration, and meets every
invariant. Its parameters and its unspecified values are the model's choice (log entries 2 and 3). -/
def Obligations.ResetMeetsEveryInvariant : Prop :=
  State.reset.IsReset ∧ State.reset.Clean ∧ State.reset.cfg.wf = true ∧ MemoryCanonical State.reset ∧
  HandlesSound State.reset ∧ BusProgrammed State.reset ∧ SelectionPaired State.reset ∧ IndexInRange State.reset ∧
  LinkSound State.reset ∧ TimeInRange State.reset

/-- Rules R172, R173: from every reset state, whatever the elements the spec leaves unspecified, every word but a
constructor's word on a slot that exists is ILLEGAL, and such a word is accepted. That `CMD` holds the ILLEGAL word
afterwards is the model's choice (log entry 11). -/
def Obligations.OnlyConstructorsAreAcceptedAfterReset : Prop :=
  ∀ (s : State) (w : Word) (hs : List HostAct), s.IsReset → s.cfg.wf = true → s.host = .issue w :: hs →
    ((∀ i, decode w = .ok i → i.isConstructor = true → s.cfg.nHandles ≤ i.slot.toNat) →
      step s = .next { s with host := hs, cmd := w, rsp := 0x300#10 }) ∧
    (∀ i, decode w = .ok i → i.isConstructor = true → i.slot.toNat < s.cfg.nHandles →
      Accepts { s with host := hs, cmd := w } i)
end

