-- ==== Sys2Proof/Laws/Decode.lean ====
section
/-!
SUPPORT. The fields of a command word put together from fields, and the word of its own fields (rule R82).
-/
namespace Sys2Proof

theorem packWord_getLsbD (op : BitVec 4) (h : Slot) (a b c : Byte) (i : Nat) :
    (packWord op h a b c).getLsbD i =
      if i < 8 then c.getLsbD i else if i < 16 then b.getLsbD (i - 8) else if i < 24 then a.getLsbD (i - 16)
      else if i < 28 then h.getLsbD (i - 24) else op.getLsbD (i - 28) := by
  unfold packWord
  erw [BitVec.getLsbD_append, BitVec.getLsbD_append, BitVec.getLsbD_append, BitVec.getLsbD_append]
  repeat' split
  all_goals first | rfl | omega

@[simp] theorem fieldOp_packWord (op : BitVec 4) (h : Slot) (a b c : Byte) : fieldOp (packWord op h a b c) = op := by
  apply BitVec.eq_of_getLsbD_eq
  intro i hi
  rw [fieldOp, BitVec.getLsbD_extractLsb', packWord_getLsbD]
  simp [hi, show ¬ 28 + i < 8 by omega, show ¬ 28 + i < 16 by omega, show ¬ 28 + i < 24 by omega]

@[simp] theorem fieldH_packWord (op : BitVec 4) (h : Slot) (a b c : Byte) : fieldH (packWord op h a b c) = h := by
  apply BitVec.eq_of_getLsbD_eq
  intro i hi
  rw [fieldH, BitVec.getLsbD_extractLsb', packWord_getLsbD]
  simp [hi, show ¬ 24 + i < 8 by omega, show ¬ 24 + i < 16 by omega, show 24 + i < 28 by omega]

@[simp] theorem fieldA_packWord (op : BitVec 4) (h : Slot) (a b c : Byte) : fieldA (packWord op h a b c) = a := by
  apply BitVec.eq_of_getLsbD_eq
  intro i hi
  rw [fieldA, BitVec.getLsbD_extractLsb', packWord_getLsbD]
  simp [hi, show ¬ 16 + i < 8 by omega, show 16 + i < 24 by omega]

@[simp] theorem fieldB_packWord (op : BitVec 4) (h : Slot) (a b c : Byte) : fieldB (packWord op h a b c) = b := by
  apply BitVec.eq_of_getLsbD_eq
  intro i hi
  rw [fieldB, BitVec.getLsbD_extractLsb', packWord_getLsbD]
  simp [hi, show 8 + i < 16 by omega]

@[simp] theorem fieldC_packWord (op : BitVec 4) (h : Slot) (a b c : Byte) : fieldC (packWord op h a b c) = c := by
  apply BitVec.eq_of_getLsbD_eq
  intro i hi
  rw [fieldC, BitVec.getLsbD_extractLsb', packWord_getLsbD]
  simp [hi]

/-- A word is put together from its fields: none of its 32 bits is outside them. -/
theorem packWord_fields (w : Word) : packWord (fieldOp w) (fieldH w) (fieldA w) (fieldB w) (fieldC w) = w := by
  apply BitVec.eq_of_getLsbD_eq
  intro i hi
  rw [packWord_getLsbD]
  simp only [fieldOp, fieldH, fieldA, fieldB, fieldC, BitVec.getLsbD_extractLsb']
  by_cases h0 : i < 8
  · simp [h0]
  by_cases h1 : i < 16
  · rw [if_neg h0, if_pos h1, show 8 + (i - 8) = i by omega, decide_eq_true (by omega), Bool.true_and]
  by_cases h2 : i < 24
  · rw [if_neg h0, if_neg h1, if_pos h2, show 16 + (i - 16) = i by omega, decide_eq_true (by omega), Bool.true_and]
  by_cases h3 : i < 28
  · rw [if_neg h0, if_neg h1, if_neg h2, if_pos h3, show 24 + (i - 24) = i by omega, decide_eq_true (by omega),
      Bool.true_and]
  · rw [if_neg h0, if_neg h1, if_neg h2, if_neg h3, show 28 + (i - 28) = i by omega, decide_eq_true (by omega),
      Bool.true_and]

end Sys2Proof
end

