-- ==== Sys2Proof/Laws/Link.lean ====
section
/-!
SUPPORT. The accesses of the SPI registers and LINK's step, field by field (rules R60 to R66), and the status byte's bits.
-/
namespace Sys2Proof.Machine

/-- The bits of a status byte put together from three flags (rule R35). -/
theorem statusByte_bits : ∀ d c b : Bool,
    (BitVec.ofBool d ++ BitVec.ofBool c ++ (0 : BitVec 5) ++ BitVec.ofBool b : BitVec 8)[7] = d ∧
    (BitVec.ofBool d ++ BitVec.ofBool c ++ (0 : BitVec 5) ++ BitVec.ofBool b : BitVec 8)[6] = c ∧
    (BitVec.ofBool d ++ BitVec.ofBool c ++ (0 : BitVec 5) ++ BitVec.ofBool b : BitVec 8)[0] = b := by
  decide

@[simp] theorem Spi.status_done (p : Spi) : p.status[7] = p.done := (statusByte_bits p.done p.coll p.dbl).1
@[simp] theorem Spi.status_coll (p : Spi) : p.status[6] = p.coll := (statusByte_bits p.done p.coll p.dbl).2.1
@[simp] theorem Spi.status_dbl (p : Spi) : p.status[0] = p.dbl := (statusByte_bits p.done p.coll p.dbl).2.2

@[simp] theorem Spi.arm_ctrl (p : Spi) : p.arm.ctrl = p.ctrl := rfl
@[simp] theorem Spi.arm_done (p : Spi) : p.arm.done = p.done := rfl
@[simp] theorem Spi.arm_coll (p : Spi) : p.arm.coll = p.coll := rfl
@[simp] theorem Spi.arm_dbl (p : Spi) : p.arm.dbl = p.dbl := rfl
@[simp] theorem Spi.arm_rxd (p : Spi) : p.arm.rxd = p.rxd := rfl
@[simp] theorem Spi.arm_xfer (p : Spi) : p.arm.xfer = p.xfer := rfl
@[simp] theorem Spi.arm_armDone (p : Spi) : p.arm.armDone = (p.armDone || p.done) := rfl
@[simp] theorem Spi.arm_armColl (p : Spi) : p.arm.armColl = (p.armColl || p.coll) := rfl

@[simp] theorem Spi.clearArmed_ctrl (p : Spi) : p.clearArmed.ctrl = p.ctrl := rfl
@[simp] theorem Spi.clearArmed_done (p : Spi) : p.clearArmed.done = (p.done && !p.armDone) := rfl
@[simp] theorem Spi.clearArmed_coll (p : Spi) : p.clearArmed.coll = (p.coll && !p.armColl) := rfl
@[simp] theorem Spi.clearArmed_dbl (p : Spi) : p.clearArmed.dbl = p.dbl := rfl
@[simp] theorem Spi.clearArmed_rxd (p : Spi) : p.clearArmed.rxd = p.rxd := rfl
@[simp] theorem Spi.clearArmed_xfer (p : Spi) : p.clearArmed.xfer = p.xfer := rfl
@[simp] theorem Spi.clearArmed_armDone (p : Spi) : p.clearArmed.armDone = false := rfl
@[simp] theorem Spi.clearArmed_armColl (p : Spi) : p.clearArmed.armColl = false := rfl

@[simp] theorem Spi.readData_ctrl (p : Spi) : p.readData.ctrl = p.ctrl := rfl
@[simp] theorem Spi.readData_dbl (p : Spi) : p.readData.dbl = p.dbl := rfl
@[simp] theorem Spi.readData_rxd (p : Spi) : p.readData.rxd = p.rxd := rfl
@[simp] theorem Spi.readData_xfer (p : Spi) : p.readData.xfer = p.xfer := rfl

/-- The three cases of a data write (rule R64). -/
theorem Spi.writeData_cases (p : Spi) (v : Byte) :
    (¬ (p.enabled = true ∧ p.master = true) ∧ p.writeData v = p.clearArmed ∧ p.writeEvents v = []) ∨
    (p.enabled = true ∧ p.master = true ∧ p.xfer = none ∧
      p.writeData v = { p.clearArmed with xfer := some v } ∧ p.writeEvents v = [.start v]) ∨
    (∃ u, p.enabled = true ∧ p.master = true ∧ p.xfer = some u ∧
      p.writeData v = { p.clearArmed with coll := true } ∧ p.writeEvents v = [.collide v]) := by
  have he : p.clearArmed.enabled = p.enabled := rfl
  have hm : p.clearArmed.master = p.master := rfl
  unfold Spi.writeData Spi.writeEvents
  cases h1 : p.enabled <;> cases h2 : p.master <;> cases h3 : p.xfer <;> simp [h1, h2, h3, he, hm]

@[simp] theorem Spi.writeData_ctrl (p : Spi) (v : Byte) : (p.writeData v).ctrl = p.ctrl := by
  obtain ⟨_, h, _⟩ | ⟨_, _, _, h, _⟩ | ⟨_, _, _, _, h, _⟩ := p.writeData_cases v <;> simp [h]
@[simp] theorem Spi.writeData_dbl (p : Spi) (v : Byte) : (p.writeData v).dbl = p.dbl := by
  obtain ⟨_, h, _⟩ | ⟨_, _, _, h, _⟩ | ⟨_, _, _, _, h, _⟩ := p.writeData_cases v <;> simp [h]
@[simp] theorem Spi.writeData_rxd (p : Spi) (v : Byte) : (p.writeData v).rxd = p.rxd := by
  obtain ⟨_, h, _⟩ | ⟨_, _, _, h, _⟩ | ⟨_, _, _, _, h, _⟩ := p.writeData_cases v <;> simp [h]
@[simp] theorem Spi.writeData_armDone (p : Spi) (v : Byte) : (p.writeData v).armDone = false := by
  obtain ⟨_, h, _⟩ | ⟨_, _, _, h, _⟩ | ⟨_, _, _, _, h, _⟩ := p.writeData_cases v <;> simp [h]
@[simp] theorem Spi.writeData_armColl (p : Spi) (v : Byte) : (p.writeData v).armColl = false := by
  obtain ⟨_, h, _⟩ | ⟨_, _, _, h, _⟩ | ⟨_, _, _, _, h, _⟩ := p.writeData_cases v <;> simp [h]

@[simp] theorem Spi.linkComplete_ctrl (p : Spi) (r : Byte) : (p.linkComplete r).ctrl = p.ctrl := by
  unfold Spi.linkComplete; split <;> rfl
@[simp] theorem Spi.linkComplete_dbl (p : Spi) (r : Byte) : (p.linkComplete r).dbl = p.dbl := by
  unfold Spi.linkComplete; split <;> rfl
@[simp] theorem Spi.linkComplete_coll (p : Spi) (r : Byte) : (p.linkComplete r).coll = p.coll := by
  unfold Spi.linkComplete; split <;> rfl
@[simp] theorem Spi.linkComplete_armDone (p : Spi) (r : Byte) : (p.linkComplete r).armDone = p.armDone := by
  unfold Spi.linkComplete; split <;> rfl
@[simp] theorem Spi.linkComplete_armColl (p : Spi) (r : Byte) : (p.linkComplete r).armColl = p.armColl := by
  unfold Spi.linkComplete; split <;> rfl
@[simp] theorem Spi.linkComplete_xfer (p : Spi) (r : Byte) : (p.linkComplete r).xfer = none := by
  unfold Spi.linkComplete; split <;> simp_all

/-- The wire events of LINK's step are completions. -/
theorem Spi.linkEvents_done (p : Spi) (r : Byte) : ∀ e ∈ p.linkEvents r, ∃ tx, e = .done tx r := by
  unfold Spi.linkEvents; split <;> simp

end Sys2Proof.Machine
end

