-- ==== Sys2Proof/Laws/Memory.lean ====
section
/-!
SUPPORT. The laws of memory (Machine/Ops.lean): a read after a write, a write leaves every other address alone, every
operation keeps the canonical form, and what a single-bit update does to each bit.
-/
namespace Sys2Proof.Machine

/-- The empty list is canonical; every memory of the reset state is empty. -/
@[simp] theorem Memory.wf_nil : Memory.wf [] = true := rfl

@[simp] theorem Memory.read_nil (i : Nat) : Memory.read [] i = Memory.unlisted := rfl

theorem Memory.wfAbove_weaken {lo lo' : Nat} (h : lo' ≤ lo) :
    ∀ {m : Memory}, Memory.wfAbove lo m = true → Memory.wfAbove lo' m = true
  | [], _ => rfl
  | (a, v) :: m, hm => by
    simp only [Memory.wfAbove, Bool.and_eq_true, decide_eq_true_eq] at hm ⊢
    exact ⟨⟨by omega, hm.1.2⟩, hm.2⟩

/-- An address below every entry reads as unlisted. -/
theorem Memory.read_below {lo i : Nat} (h : i < lo) :
    ∀ {m : Memory}, Memory.wfAbove lo m = true → Memory.read m i = Memory.unlisted
  | [], _ => rfl
  | (a, v) :: m, hm => by
    simp only [Memory.wfAbove, Bool.and_eq_true, decide_eq_true_eq] at hm
    have hne : i ≠ a := by omega
    simp only [Memory.read, hne, if_false]
    exact Memory.read_below (lo := a + 1) (by omega) hm.2

theorem Memory.insert_wfAbove {lo i : Nat} {v : Byte} (hi : lo ≤ i) (hv : v ≠ Memory.unlisted) :
    ∀ {m : Memory}, Memory.wfAbove lo m = true → Memory.wfAbove lo (Memory.insert m i v) = true
  | [], _ => by simp [Memory.insert, Memory.wfAbove, hi, hv]
  | (a, u) :: m, hm => by
    simp only [Memory.wfAbove, Bool.and_eq_true, decide_eq_true_eq] at hm
    unfold Memory.insert
    split
    · simp only [Memory.wfAbove, Bool.and_eq_true, decide_eq_true_eq]
      exact ⟨⟨hi, hv⟩, ⟨by omega, hm.1.2⟩, hm.2⟩
    · split
      · subst_vars
        simp only [Memory.wfAbove, Bool.and_eq_true, decide_eq_true_eq]
        exact ⟨⟨hi, hv⟩, hm.2⟩
      · simp only [Memory.wfAbove, Bool.and_eq_true, decide_eq_true_eq]
        exact ⟨hm.1, Memory.insert_wfAbove (by omega) hv hm.2⟩

theorem Memory.erase_wfAbove {lo i : Nat} :
    ∀ {m : Memory}, Memory.wfAbove lo m = true → Memory.wfAbove lo (Memory.erase m i) = true
  | [], _ => rfl
  | (a, u) :: m, hm => by
    simp only [Memory.wfAbove, Bool.and_eq_true, decide_eq_true_eq] at hm
    unfold Memory.erase
    split
    · exact Memory.wfAbove_weaken (by omega) hm.2
    · simp only [Memory.wfAbove, Bool.and_eq_true, decide_eq_true_eq]
      exact ⟨hm.1, Memory.erase_wfAbove hm.2⟩

/-- A write keeps the canonical form. -/
theorem Memory.write_wf {m : Memory} (h : m.wf = true) (i : Nat) (v : Byte) : (m.write i v).wf = true := by
  unfold Memory.write Memory.wf at *
  split
  · exact Memory.erase_wfAbove h
  · exact Memory.insert_wfAbove (Nat.zero_le _) (by assumption) h

theorem Memory.insert_read_same (m : Memory) (i : Nat) (v : Byte) : (Memory.insert m i v).read i = v := by
  induction m with
  | nil => simp [Memory.insert, Memory.read]
  | cons x m ih =>
    obtain ⟨a, u⟩ := x
    unfold Memory.insert
    split
    · simp [Memory.read]
    · split
      · simp [Memory.read]
      · simp [Memory.read, *]

theorem Memory.insert_read_other {m : Memory} {i j : Nat} (v : Byte) (h : j ≠ i) :
    (Memory.insert m i v).read j = m.read j := by
  induction m with
  | nil => simp [Memory.insert, Memory.read, h]
  | cons x m ih =>
    obtain ⟨a, u⟩ := x
    unfold Memory.insert
    split
    · simp [Memory.read, h]
    · split
      · subst_vars; simp [Memory.read, h]
      · simp [Memory.read, ih]

theorem Memory.erase_read_other {m : Memory} {i j : Nat} (h : j ≠ i) :
    (Memory.erase m i).read j = m.read j := by
  induction m with
  | nil => rfl
  | cons x m ih =>
    obtain ⟨a, u⟩ := x
    unfold Memory.erase
    split
    · subst_vars; simp [Memory.read, h]
    · simp [Memory.read, ih]

theorem Memory.erase_read_same {m : Memory} {lo : Nat} (i : Nat) (h : Memory.wfAbove lo m = true) :
    (Memory.erase m i).read i = Memory.unlisted := by
  induction m generalizing lo with
  | nil => rfl
  | cons x m ih =>
    obtain ⟨a, u⟩ := x
    simp only [Memory.wfAbove, Bool.and_eq_true, decide_eq_true_eq] at h
    unfold Memory.erase
    split
    · subst_vars; exact Memory.read_below (Nat.lt_succ_self _) h.2
    · simp [Memory.read, *]; exact ih h.2

/-- A read after a write to the same address gives the value written. -/
theorem Memory.write_read_same {m : Memory} (h : m.wf = true) (i : Nat) (v : Byte) : (m.write i v).read i = v := by
  unfold Memory.write
  split
  · subst_vars; exact Memory.erase_read_same i h
  · exact Memory.insert_read_same m i v

/-- A write leaves every other address alone. -/
theorem Memory.write_read_other {m : Memory} {i j : Nat} (v : Byte) (h : j ≠ i) : (m.write i v).read j = m.read j := by
  unfold Memory.write
  split
  · exact Memory.erase_read_other h
  · exact Memory.insert_read_other v h

theorem Memory.setBit_wf {m : Memory} (h : m.wf = true) (k b : Nat) : (m.setBit k b).wf = true :=
  Memory.write_wf h _ _

theorem Memory.clrBit_wf {m : Memory} (h : m.wf = true) (k b : Nat) : (m.clrBit k b).wf = true :=
  Memory.write_wf h _ _

theorem pinMask_getLsbD (b i : Nat) : (pinMask b).getLsbD i = decide (i = b ∧ i < 8) := by
  rw [Bool.eq_iff_iff]
  simp only [pinMask, BitVec.getLsbD_shiftLeft, BitVec.getLsbD_one, Bool.and_eq_true, decide_eq_true_eq,
    Bool.not_eq_true', decide_eq_false_iff_not]
  omega

/-- What `SetBit` does to each bit of the location it names (rule R69). -/
theorem Memory.setBit_read_same {m : Memory} (h : m.wf = true) (k b : Nat) :
    (m.setBit k b).read k = m.read k ||| pinMask b := Memory.write_read_same h _ _

theorem Memory.setBit_read_other {m : Memory} {k j : Nat} (b : Nat) (h : j ≠ k) :
    (m.setBit k b).read j = m.read j := Memory.write_read_other _ h

/-- What `ClrBit` does to each bit of the location it names (rule R69). -/
theorem Memory.clrBit_read_same {m : Memory} (h : m.wf = true) (k b : Nat) :
    (m.clrBit k b).read k = m.read k &&& ~~~(pinMask b) := Memory.write_read_same h _ _

theorem Memory.clrBit_read_other {m : Memory} {k j : Nat} (b : Nat) (h : j ≠ k) :
    (m.clrBit k b).read j = m.read j := Memory.write_read_other _ h

end Sys2Proof.Machine
end

