-- ==== Sys2Proof/Laws/State.lean ====
section
/-!
SUPPORT. One lemma per field per update of State: what each named update of Machine/Ops.lean writes, and that it leaves
every other field as it was. Later proofs never unfold a record update.
-/
namespace Sys2Proof.Machine

/-! #### `State.setHandle` -/
@[simp] theorem State.setHandle_cfg (s : State) (h : Slot) (x : Handle) : (s.setHandle h x).cfg = s.cfg := rfl
@[simp] theorem State.setHandle_handles (s : State) (h : Slot) (x : Handle) :
    (s.setHandle h x).handles = s.handles.set h.toNat x h.isLt := rfl
@[simp] theorem State.setHandle_gpioOut (s : State) (h : Slot) (x : Handle) : (s.setHandle h x).gpioOut = s.gpioOut := rfl
@[simp] theorem State.setHandle_gpioDir (s : State) (h : Slot) (x : Handle) : (s.setHandle h x).gpioDir = s.gpioDir := rfl
@[simp] theorem State.setHandle_spi (s : State) (h : Slot) (x : Handle) : (s.setHandle h x).spi = s.spi := rfl
@[simp] theorem State.setHandle_busInit (s : State) (h : Slot) (x : Handle) : (s.setHandle h x).busInit = s.busInit := rfl
@[simp] theorem State.setHandle_buf (s : State) (h : Slot) (x : Handle) : (s.setHandle h x).buf = s.buf := rfl
@[simp] theorem State.setHandle_time (s : State) (h : Slot) (x : Handle) : (s.setHandle h x).time = s.time := rfl
@[simp] theorem State.setHandle_diag (s : State) (h : Slot) (x : Handle) : (s.setHandle h x).diag = s.diag := rfl
@[simp] theorem State.setHandle_trace (s : State) (h : Slot) (x : Handle) : (s.setHandle h x).trace = s.trace := rfl
@[simp] theorem State.setHandle_eng (s : State) (h : Slot) (x : Handle) : (s.setHandle h x).eng = s.eng := rfl
@[simp] theorem State.setHandle_cmd (s : State) (h : Slot) (x : Handle) : (s.setHandle h x).cmd = s.cmd := rfl
@[simp] theorem State.setHandle_rsp (s : State) (h : Slot) (x : Handle) : (s.setHandle h x).rsp = s.rsp := rfl
@[simp] theorem State.setHandle_host (s : State) (h : Slot) (x : Handle) : (s.setHandle h x).host = s.host := rfl
@[simp] theorem State.setHandle_sched (s : State) (h : Slot) (x : Handle) : (s.setHandle h x).sched = s.sched := rfl

/-! #### `State.setDir` -/
@[simp] theorem State.setDir_cfg (s : State) (k b : Nat) : (s.setDir k b).cfg = s.cfg := rfl
@[simp] theorem State.setDir_handles (s : State) (k b : Nat) : (s.setDir k b).handles = s.handles := rfl
@[simp] theorem State.setDir_gpioOut (s : State) (k b : Nat) : (s.setDir k b).gpioOut = s.gpioOut := rfl
@[simp] theorem State.setDir_gpioDir (s : State) (k b : Nat) :
    (s.setDir k b).gpioDir = s.gpioDir.setBit k b := rfl
@[simp] theorem State.setDir_spi (s : State) (k b : Nat) : (s.setDir k b).spi = s.spi := rfl
@[simp] theorem State.setDir_busInit (s : State) (k b : Nat) : (s.setDir k b).busInit = s.busInit := rfl
@[simp] theorem State.setDir_buf (s : State) (k b : Nat) : (s.setDir k b).buf = s.buf := rfl
@[simp] theorem State.setDir_time (s : State) (k b : Nat) : (s.setDir k b).time = s.time := rfl
@[simp] theorem State.setDir_diag (s : State) (k b : Nat) : (s.setDir k b).diag = s.diag := rfl
@[simp] theorem State.setDir_trace (s : State) (k b : Nat) : (s.setDir k b).trace = s.trace := rfl
@[simp] theorem State.setDir_eng (s : State) (k b : Nat) : (s.setDir k b).eng = s.eng := rfl
@[simp] theorem State.setDir_cmd (s : State) (k b : Nat) : (s.setDir k b).cmd = s.cmd := rfl
@[simp] theorem State.setDir_rsp (s : State) (k b : Nat) : (s.setDir k b).rsp = s.rsp := rfl
@[simp] theorem State.setDir_host (s : State) (k b : Nat) : (s.setDir k b).host = s.host := rfl
@[simp] theorem State.setDir_sched (s : State) (k b : Nat) : (s.setDir k b).sched = s.sched := rfl

/-! #### `State.setOut` -/
@[simp] theorem State.setOut_cfg (s : State) (k b : Nat) : (s.setOut k b).cfg = s.cfg := rfl
@[simp] theorem State.setOut_handles (s : State) (k b : Nat) : (s.setOut k b).handles = s.handles := rfl
@[simp] theorem State.setOut_gpioOut (s : State) (k b : Nat) :
    (s.setOut k b).gpioOut = s.gpioOut.setBit k b := rfl
@[simp] theorem State.setOut_gpioDir (s : State) (k b : Nat) : (s.setOut k b).gpioDir = s.gpioDir := rfl
@[simp] theorem State.setOut_spi (s : State) (k b : Nat) : (s.setOut k b).spi = s.spi := rfl
@[simp] theorem State.setOut_busInit (s : State) (k b : Nat) : (s.setOut k b).busInit = s.busInit := rfl
@[simp] theorem State.setOut_buf (s : State) (k b : Nat) : (s.setOut k b).buf = s.buf := rfl
@[simp] theorem State.setOut_time (s : State) (k b : Nat) : (s.setOut k b).time = s.time := rfl
@[simp] theorem State.setOut_diag (s : State) (k b : Nat) : (s.setOut k b).diag = s.diag := rfl
@[simp] theorem State.setOut_trace (s : State) (k b : Nat) : (s.setOut k b).trace = s.trace := rfl
@[simp] theorem State.setOut_eng (s : State) (k b : Nat) : (s.setOut k b).eng = s.eng := rfl
@[simp] theorem State.setOut_cmd (s : State) (k b : Nat) : (s.setOut k b).cmd = s.cmd := rfl
@[simp] theorem State.setOut_rsp (s : State) (k b : Nat) : (s.setOut k b).rsp = s.rsp := rfl
@[simp] theorem State.setOut_host (s : State) (k b : Nat) : (s.setOut k b).host = s.host := rfl
@[simp] theorem State.setOut_sched (s : State) (k b : Nat) : (s.setOut k b).sched = s.sched := rfl

/-! #### `State.clrOut` -/
@[simp] theorem State.clrOut_cfg (s : State) (k b : Nat) : (s.clrOut k b).cfg = s.cfg := rfl
@[simp] theorem State.clrOut_handles (s : State) (k b : Nat) : (s.clrOut k b).handles = s.handles := rfl
@[simp] theorem State.clrOut_gpioOut (s : State) (k b : Nat) :
    (s.clrOut k b).gpioOut = s.gpioOut.clrBit k b := rfl
@[simp] theorem State.clrOut_gpioDir (s : State) (k b : Nat) : (s.clrOut k b).gpioDir = s.gpioDir := rfl
@[simp] theorem State.clrOut_spi (s : State) (k b : Nat) : (s.clrOut k b).spi = s.spi := rfl
@[simp] theorem State.clrOut_busInit (s : State) (k b : Nat) : (s.clrOut k b).busInit = s.busInit := rfl
@[simp] theorem State.clrOut_buf (s : State) (k b : Nat) : (s.clrOut k b).buf = s.buf := rfl
@[simp] theorem State.clrOut_time (s : State) (k b : Nat) : (s.clrOut k b).time = s.time := rfl
@[simp] theorem State.clrOut_diag (s : State) (k b : Nat) : (s.clrOut k b).diag = s.diag := rfl
@[simp] theorem State.clrOut_trace (s : State) (k b : Nat) : (s.clrOut k b).trace = s.trace := rfl
@[simp] theorem State.clrOut_eng (s : State) (k b : Nat) : (s.clrOut k b).eng = s.eng := rfl
@[simp] theorem State.clrOut_cmd (s : State) (k b : Nat) : (s.clrOut k b).cmd = s.cmd := rfl
@[simp] theorem State.clrOut_rsp (s : State) (k b : Nat) : (s.clrOut k b).rsp = s.rsp := rfl
@[simp] theorem State.clrOut_host (s : State) (k b : Nat) : (s.clrOut k b).host = s.host := rfl
@[simp] theorem State.clrOut_sched (s : State) (k b : Nat) : (s.clrOut k b).sched = s.sched := rfl

/-! #### `State.setBuf` -/
@[simp] theorem State.setBuf_cfg (s : State) (i : Nat) (v : Byte) : (s.setBuf i v).cfg = s.cfg := rfl
@[simp] theorem State.setBuf_handles (s : State) (i : Nat) (v : Byte) : (s.setBuf i v).handles = s.handles := rfl
@[simp] theorem State.setBuf_gpioOut (s : State) (i : Nat) (v : Byte) : (s.setBuf i v).gpioOut = s.gpioOut := rfl
@[simp] theorem State.setBuf_gpioDir (s : State) (i : Nat) (v : Byte) : (s.setBuf i v).gpioDir = s.gpioDir := rfl
@[simp] theorem State.setBuf_spi (s : State) (i : Nat) (v : Byte) : (s.setBuf i v).spi = s.spi := rfl
@[simp] theorem State.setBuf_busInit (s : State) (i : Nat) (v : Byte) : (s.setBuf i v).busInit = s.busInit := rfl
@[simp] theorem State.setBuf_buf (s : State) (i : Nat) (v : Byte) :
    (s.setBuf i v).buf = s.buf.write i v := rfl
@[simp] theorem State.setBuf_time (s : State) (i : Nat) (v : Byte) : (s.setBuf i v).time = s.time := rfl
@[simp] theorem State.setBuf_diag (s : State) (i : Nat) (v : Byte) : (s.setBuf i v).diag = s.diag := rfl
@[simp] theorem State.setBuf_trace (s : State) (i : Nat) (v : Byte) : (s.setBuf i v).trace = s.trace := rfl
@[simp] theorem State.setBuf_eng (s : State) (i : Nat) (v : Byte) : (s.setBuf i v).eng = s.eng := rfl
@[simp] theorem State.setBuf_cmd (s : State) (i : Nat) (v : Byte) : (s.setBuf i v).cmd = s.cmd := rfl
@[simp] theorem State.setBuf_rsp (s : State) (i : Nat) (v : Byte) : (s.setBuf i v).rsp = s.rsp := rfl
@[simp] theorem State.setBuf_host (s : State) (i : Nat) (v : Byte) : (s.setBuf i v).host = s.host := rfl
@[simp] theorem State.setBuf_sched (s : State) (i : Nat) (v : Byte) : (s.setBuf i v).sched = s.sched := rfl

/-! #### `State.emit` -/
@[simp] theorem State.emit_cfg (s : State) (tag : Tag) : (s.emit tag).cfg = s.cfg := rfl
@[simp] theorem State.emit_handles (s : State) (tag : Tag) : (s.emit tag).handles = s.handles := rfl
@[simp] theorem State.emit_gpioOut (s : State) (tag : Tag) : (s.emit tag).gpioOut = s.gpioOut := rfl
@[simp] theorem State.emit_gpioDir (s : State) (tag : Tag) : (s.emit tag).gpioDir = s.gpioDir := rfl
@[simp] theorem State.emit_spi (s : State) (tag : Tag) : (s.emit tag).spi = s.spi := rfl
@[simp] theorem State.emit_busInit (s : State) (tag : Tag) : (s.emit tag).busInit = s.busInit := rfl
@[simp] theorem State.emit_buf (s : State) (tag : Tag) : (s.emit tag).buf = s.buf := rfl
@[simp] theorem State.emit_time (s : State) (tag : Tag) : (s.emit tag).time = s.time := rfl
@[simp] theorem State.emit_diag (s : State) (tag : Tag) :
    (s.emit tag).diag = if s.cfg.sinkPresent then s.diag ++ [tag] else s.diag := rfl
@[simp] theorem State.emit_trace (s : State) (tag : Tag) : (s.emit tag).trace = s.trace := rfl
@[simp] theorem State.emit_eng (s : State) (tag : Tag) : (s.emit tag).eng = s.eng := rfl
@[simp] theorem State.emit_cmd (s : State) (tag : Tag) : (s.emit tag).cmd = s.cmd := rfl
@[simp] theorem State.emit_rsp (s : State) (tag : Tag) : (s.emit tag).rsp = s.rsp := rfl
@[simp] theorem State.emit_host (s : State) (tag : Tag) : (s.emit tag).host = s.host := rfl
@[simp] theorem State.emit_sched (s : State) (tag : Tag) : (s.emit tag).sched = s.sched := rfl

/-! #### `State.record` -/
@[simp] theorem State.record_cfg (s : State) (es : List WireEvent) : (s.record es).cfg = s.cfg := rfl
@[simp] theorem State.record_handles (s : State) (es : List WireEvent) : (s.record es).handles = s.handles := rfl
@[simp] theorem State.record_gpioOut (s : State) (es : List WireEvent) : (s.record es).gpioOut = s.gpioOut := rfl
@[simp] theorem State.record_gpioDir (s : State) (es : List WireEvent) : (s.record es).gpioDir = s.gpioDir := rfl
@[simp] theorem State.record_spi (s : State) (es : List WireEvent) : (s.record es).spi = s.spi := rfl
@[simp] theorem State.record_busInit (s : State) (es : List WireEvent) : (s.record es).busInit = s.busInit := rfl
@[simp] theorem State.record_buf (s : State) (es : List WireEvent) : (s.record es).buf = s.buf := rfl
@[simp] theorem State.record_time (s : State) (es : List WireEvent) : (s.record es).time = s.time := rfl
@[simp] theorem State.record_diag (s : State) (es : List WireEvent) : (s.record es).diag = s.diag := rfl
@[simp] theorem State.record_trace (s : State) (es : List WireEvent) :
    (s.record es).trace = s.trace ++ es := rfl
@[simp] theorem State.record_eng (s : State) (es : List WireEvent) : (s.record es).eng = s.eng := rfl
@[simp] theorem State.record_cmd (s : State) (es : List WireEvent) : (s.record es).cmd = s.cmd := rfl
@[simp] theorem State.record_rsp (s : State) (es : List WireEvent) : (s.record es).rsp = s.rsp := rfl
@[simp] theorem State.record_host (s : State) (es : List WireEvent) : (s.record es).host = s.host := rfl
@[simp] theorem State.record_sched (s : State) (es : List WireEvent) : (s.record es).sched = s.sched := rfl

/-! #### `State.respond` -/
@[simp] theorem State.respond_cfg (s : State) (r : Response) : (s.respond r).cfg = s.cfg := rfl
@[simp] theorem State.respond_handles (s : State) (r : Response) : (s.respond r).handles = s.handles := rfl
@[simp] theorem State.respond_gpioOut (s : State) (r : Response) : (s.respond r).gpioOut = s.gpioOut := rfl
@[simp] theorem State.respond_gpioDir (s : State) (r : Response) : (s.respond r).gpioDir = s.gpioDir := rfl
@[simp] theorem State.respond_spi (s : State) (r : Response) : (s.respond r).spi = s.spi := rfl
@[simp] theorem State.respond_busInit (s : State) (r : Response) : (s.respond r).busInit = s.busInit := rfl
@[simp] theorem State.respond_buf (s : State) (r : Response) : (s.respond r).buf = s.buf := rfl
@[simp] theorem State.respond_time (s : State) (r : Response) : (s.respond r).time = s.time := rfl
@[simp] theorem State.respond_diag (s : State) (r : Response) : (s.respond r).diag = s.diag := rfl
@[simp] theorem State.respond_trace (s : State) (r : Response) : (s.respond r).trace = s.trace := rfl
@[simp] theorem State.respond_eng (s : State) (r : Response) : (s.respond r).eng = s.eng := rfl
@[simp] theorem State.respond_cmd (s : State) (r : Response) : (s.respond r).cmd = s.cmd := rfl
@[simp] theorem State.respond_rsp (s : State) (r : Response) :
    (s.respond r).rsp = r := rfl
@[simp] theorem State.respond_host (s : State) (r : Response) : (s.respond r).host = s.host := rfl
@[simp] theorem State.respond_sched (s : State) (r : Response) : (s.respond r).sched = s.sched := rfl

/-! #### `State.withSpi` -/
@[simp] theorem State.withSpi_cfg (s : State) (p : Spi) : (s.withSpi p).cfg = s.cfg := rfl
@[simp] theorem State.withSpi_handles (s : State) (p : Spi) : (s.withSpi p).handles = s.handles := rfl
@[simp] theorem State.withSpi_gpioOut (s : State) (p : Spi) : (s.withSpi p).gpioOut = s.gpioOut := rfl
@[simp] theorem State.withSpi_gpioDir (s : State) (p : Spi) : (s.withSpi p).gpioDir = s.gpioDir := rfl
@[simp] theorem State.withSpi_spi (s : State) (p : Spi) :
    (s.withSpi p).spi = p := rfl
@[simp] theorem State.withSpi_busInit (s : State) (p : Spi) : (s.withSpi p).busInit = s.busInit := rfl
@[simp] theorem State.withSpi_buf (s : State) (p : Spi) : (s.withSpi p).buf = s.buf := rfl
@[simp] theorem State.withSpi_time (s : State) (p : Spi) : (s.withSpi p).time = s.time := rfl
@[simp] theorem State.withSpi_diag (s : State) (p : Spi) : (s.withSpi p).diag = s.diag := rfl
@[simp] theorem State.withSpi_trace (s : State) (p : Spi) : (s.withSpi p).trace = s.trace := rfl
@[simp] theorem State.withSpi_eng (s : State) (p : Spi) : (s.withSpi p).eng = s.eng := rfl
@[simp] theorem State.withSpi_cmd (s : State) (p : Spi) : (s.withSpi p).cmd = s.cmd := rfl
@[simp] theorem State.withSpi_rsp (s : State) (p : Spi) : (s.withSpi p).rsp = s.rsp := rfl
@[simp] theorem State.withSpi_host (s : State) (p : Spi) : (s.withSpi p).host = s.host := rfl
@[simp] theorem State.withSpi_sched (s : State) (p : Spi) : (s.withSpi p).sched = s.sched := rfl

/-! #### `State.writeData` -/
@[simp] theorem State.writeData_cfg (s : State) (v : Byte) : (s.writeData v).cfg = s.cfg := rfl
@[simp] theorem State.writeData_handles (s : State) (v : Byte) : (s.writeData v).handles = s.handles := rfl
@[simp] theorem State.writeData_gpioOut (s : State) (v : Byte) : (s.writeData v).gpioOut = s.gpioOut := rfl
@[simp] theorem State.writeData_gpioDir (s : State) (v : Byte) : (s.writeData v).gpioDir = s.gpioDir := rfl
@[simp] theorem State.writeData_spi (s : State) (v : Byte) :
    (s.writeData v).spi = s.spi.writeData v := rfl
@[simp] theorem State.writeData_busInit (s : State) (v : Byte) : (s.writeData v).busInit = s.busInit := rfl
@[simp] theorem State.writeData_buf (s : State) (v : Byte) : (s.writeData v).buf = s.buf := rfl
@[simp] theorem State.writeData_time (s : State) (v : Byte) : (s.writeData v).time = s.time := rfl
@[simp] theorem State.writeData_diag (s : State) (v : Byte) : (s.writeData v).diag = s.diag := rfl
@[simp] theorem State.writeData_trace (s : State) (v : Byte) :
    (s.writeData v).trace = s.trace ++ s.spi.writeEvents v := rfl
@[simp] theorem State.writeData_eng (s : State) (v : Byte) : (s.writeData v).eng = s.eng := rfl
@[simp] theorem State.writeData_cmd (s : State) (v : Byte) : (s.writeData v).cmd = s.cmd := rfl
@[simp] theorem State.writeData_rsp (s : State) (v : Byte) : (s.writeData v).rsp = s.rsp := rfl
@[simp] theorem State.writeData_host (s : State) (v : Byte) : (s.writeData v).host = s.host := rfl
@[simp] theorem State.writeData_sched (s : State) (v : Byte) : (s.writeData v).sched = s.sched := rfl

/-! #### `State.linkComplete` -/
@[simp] theorem State.linkComplete_cfg (s : State) (r : Byte) : (s.linkComplete r).cfg = s.cfg := rfl
@[simp] theorem State.linkComplete_handles (s : State) (r : Byte) : (s.linkComplete r).handles = s.handles := rfl
@[simp] theorem State.linkComplete_gpioOut (s : State) (r : Byte) : (s.linkComplete r).gpioOut = s.gpioOut := rfl
@[simp] theorem State.linkComplete_gpioDir (s : State) (r : Byte) : (s.linkComplete r).gpioDir = s.gpioDir := rfl
@[simp] theorem State.linkComplete_spi (s : State) (r : Byte) :
    (s.linkComplete r).spi = s.spi.linkComplete r := rfl
@[simp] theorem State.linkComplete_busInit (s : State) (r : Byte) : (s.linkComplete r).busInit = s.busInit := rfl
@[simp] theorem State.linkComplete_buf (s : State) (r : Byte) : (s.linkComplete r).buf = s.buf := rfl
@[simp] theorem State.linkComplete_time (s : State) (r : Byte) : (s.linkComplete r).time = s.time := rfl
@[simp] theorem State.linkComplete_diag (s : State) (r : Byte) : (s.linkComplete r).diag = s.diag := rfl
@[simp] theorem State.linkComplete_trace (s : State) (r : Byte) :
    (s.linkComplete r).trace = s.trace ++ s.spi.linkEvents r := rfl
@[simp] theorem State.linkComplete_eng (s : State) (r : Byte) : (s.linkComplete r).eng = s.eng := rfl
@[simp] theorem State.linkComplete_cmd (s : State) (r : Byte) : (s.linkComplete r).cmd = s.cmd := rfl
@[simp] theorem State.linkComplete_rsp (s : State) (r : Byte) : (s.linkComplete r).rsp = s.rsp := rfl
@[simp] theorem State.linkComplete_host (s : State) (r : Byte) : (s.linkComplete r).host = s.host := rfl
@[simp] theorem State.linkComplete_sched (s : State) (r : Byte) : (s.linkComplete r).sched = s.sched := rfl

/-! #### `State.timeStep` -/
@[simp] theorem State.timeStep_cfg (s : State) (d : Nat) : (s.timeStep d).cfg = s.cfg := rfl
@[simp] theorem State.timeStep_handles (s : State) (d : Nat) : (s.timeStep d).handles = s.handles := rfl
@[simp] theorem State.timeStep_gpioOut (s : State) (d : Nat) : (s.timeStep d).gpioOut = s.gpioOut := rfl
@[simp] theorem State.timeStep_gpioDir (s : State) (d : Nat) : (s.timeStep d).gpioDir = s.gpioDir := rfl
@[simp] theorem State.timeStep_spi (s : State) (d : Nat) : (s.timeStep d).spi = s.spi := rfl
@[simp] theorem State.timeStep_busInit (s : State) (d : Nat) : (s.timeStep d).busInit = s.busInit := rfl
@[simp] theorem State.timeStep_buf (s : State) (d : Nat) : (s.timeStep d).buf = s.buf := rfl
@[simp] theorem State.timeStep_time (s : State) (d : Nat) :
    (s.timeStep d).time = (s.time + d) % 2 ^ s.cfg.timeBits := rfl
@[simp] theorem State.timeStep_diag (s : State) (d : Nat) : (s.timeStep d).diag = s.diag := rfl
@[simp] theorem State.timeStep_trace (s : State) (d : Nat) : (s.timeStep d).trace = s.trace := rfl
@[simp] theorem State.timeStep_eng (s : State) (d : Nat) : (s.timeStep d).eng = s.eng := rfl
@[simp] theorem State.timeStep_cmd (s : State) (d : Nat) : (s.timeStep d).cmd = s.cmd := rfl
@[simp] theorem State.timeStep_rsp (s : State) (d : Nat) : (s.timeStep d).rsp = s.rsp := rfl
@[simp] theorem State.timeStep_host (s : State) (d : Nat) : (s.timeStep d).host = s.host := rfl
@[simp] theorem State.timeStep_sched (s : State) (d : Nat) : (s.timeStep d).sched = s.sched := rfl

/-! #### `State.withEng` -/
@[simp] theorem State.withEng_cfg (s : State) (e : Eng) : (s.withEng e).cfg = s.cfg := rfl
@[simp] theorem State.withEng_handles (s : State) (e : Eng) : (s.withEng e).handles = s.handles := rfl
@[simp] theorem State.withEng_gpioOut (s : State) (e : Eng) : (s.withEng e).gpioOut = s.gpioOut := rfl
@[simp] theorem State.withEng_gpioDir (s : State) (e : Eng) : (s.withEng e).gpioDir = s.gpioDir := rfl
@[simp] theorem State.withEng_spi (s : State) (e : Eng) : (s.withEng e).spi = s.spi := rfl
@[simp] theorem State.withEng_busInit (s : State) (e : Eng) : (s.withEng e).busInit = s.busInit := rfl
@[simp] theorem State.withEng_buf (s : State) (e : Eng) : (s.withEng e).buf = s.buf := rfl
@[simp] theorem State.withEng_time (s : State) (e : Eng) : (s.withEng e).time = s.time := rfl
@[simp] theorem State.withEng_diag (s : State) (e : Eng) : (s.withEng e).diag = s.diag := rfl
@[simp] theorem State.withEng_trace (s : State) (e : Eng) : (s.withEng e).trace = s.trace := rfl
@[simp] theorem State.withEng_eng (s : State) (e : Eng) :
    (s.withEng e).eng = e := rfl
@[simp] theorem State.withEng_cmd (s : State) (e : Eng) : (s.withEng e).cmd = s.cmd := rfl
@[simp] theorem State.withEng_rsp (s : State) (e : Eng) : (s.withEng e).rsp = s.rsp := rfl
@[simp] theorem State.withEng_host (s : State) (e : Eng) : (s.withEng e).host = s.host := rfl
@[simp] theorem State.withEng_sched (s : State) (e : Eng) : (s.withEng e).sched = s.sched := rfl

/-! #### `State.goto` -/
@[simp] theorem State.goto_cfg (s : State) (op : Instr) (l : Label) : (s.goto op l).cfg = s.cfg := rfl
@[simp] theorem State.goto_handles (s : State) (op : Instr) (l : Label) : (s.goto op l).handles = s.handles := rfl
@[simp] theorem State.goto_gpioOut (s : State) (op : Instr) (l : Label) : (s.goto op l).gpioOut = s.gpioOut := rfl
@[simp] theorem State.goto_gpioDir (s : State) (op : Instr) (l : Label) : (s.goto op l).gpioDir = s.gpioDir := rfl
@[simp] theorem State.goto_spi (s : State) (op : Instr) (l : Label) : (s.goto op l).spi = s.spi := rfl
@[simp] theorem State.goto_busInit (s : State) (op : Instr) (l : Label) : (s.goto op l).busInit = s.busInit := rfl
@[simp] theorem State.goto_buf (s : State) (op : Instr) (l : Label) : (s.goto op l).buf = s.buf := rfl
@[simp] theorem State.goto_time (s : State) (op : Instr) (l : Label) : (s.goto op l).time = s.time := rfl
@[simp] theorem State.goto_diag (s : State) (op : Instr) (l : Label) : (s.goto op l).diag = s.diag := rfl
@[simp] theorem State.goto_trace (s : State) (op : Instr) (l : Label) : (s.goto op l).trace = s.trace := rfl
@[simp] theorem State.goto_eng (s : State) (op : Instr) (l : Label) :
    (s.goto op l).eng = { s.eng with phase := .busy op l } := rfl
@[simp] theorem State.goto_cmd (s : State) (op : Instr) (l : Label) : (s.goto op l).cmd = s.cmd := rfl
@[simp] theorem State.goto_rsp (s : State) (op : Instr) (l : Label) : (s.goto op l).rsp = s.rsp := rfl
@[simp] theorem State.goto_host (s : State) (op : Instr) (l : Label) : (s.goto op l).host = s.host := rfl
@[simp] theorem State.goto_sched (s : State) (op : Instr) (l : Label) : (s.goto op l).sched = s.sched := rfl

/-! #### `State.sampleTime` -/
@[simp] theorem State.sampleTime_cfg (s : State) : (s.sampleTime).cfg = s.cfg := rfl
@[simp] theorem State.sampleTime_handles (s : State) : (s.sampleTime).handles = s.handles := rfl
@[simp] theorem State.sampleTime_gpioOut (s : State) : (s.sampleTime).gpioOut = s.gpioOut := rfl
@[simp] theorem State.sampleTime_gpioDir (s : State) : (s.sampleTime).gpioDir = s.gpioDir := rfl
@[simp] theorem State.sampleTime_spi (s : State) : (s.sampleTime).spi = s.spi := rfl
@[simp] theorem State.sampleTime_busInit (s : State) : (s.sampleTime).busInit = s.busInit := rfl
@[simp] theorem State.sampleTime_buf (s : State) : (s.sampleTime).buf = s.buf := rfl
@[simp] theorem State.sampleTime_time (s : State) : (s.sampleTime).time = s.time := rfl
@[simp] theorem State.sampleTime_diag (s : State) : (s.sampleTime).diag = s.diag := rfl
@[simp] theorem State.sampleTime_trace (s : State) : (s.sampleTime).trace = s.trace := rfl
@[simp] theorem State.sampleTime_eng (s : State) :
    (s.sampleTime).eng = { s.eng with t0 := s.time } := rfl
@[simp] theorem State.sampleTime_cmd (s : State) : (s.sampleTime).cmd = s.cmd := rfl
@[simp] theorem State.sampleTime_rsp (s : State) : (s.sampleTime).rsp = s.rsp := rfl
@[simp] theorem State.sampleTime_host (s : State) : (s.sampleTime).host = s.host := rfl
@[simp] theorem State.sampleTime_sched (s : State) : (s.sampleTime).sched = s.sched := rfl

/-! #### `State.setIdx` -/
@[simp] theorem State.setIdx_cfg (s : State) (i : Nat) : (s.setIdx i).cfg = s.cfg := rfl
@[simp] theorem State.setIdx_handles (s : State) (i : Nat) : (s.setIdx i).handles = s.handles := rfl
@[simp] theorem State.setIdx_gpioOut (s : State) (i : Nat) : (s.setIdx i).gpioOut = s.gpioOut := rfl
@[simp] theorem State.setIdx_gpioDir (s : State) (i : Nat) : (s.setIdx i).gpioDir = s.gpioDir := rfl
@[simp] theorem State.setIdx_spi (s : State) (i : Nat) : (s.setIdx i).spi = s.spi := rfl
@[simp] theorem State.setIdx_busInit (s : State) (i : Nat) : (s.setIdx i).busInit = s.busInit := rfl
@[simp] theorem State.setIdx_buf (s : State) (i : Nat) : (s.setIdx i).buf = s.buf := rfl
@[simp] theorem State.setIdx_time (s : State) (i : Nat) : (s.setIdx i).time = s.time := rfl
@[simp] theorem State.setIdx_diag (s : State) (i : Nat) : (s.setIdx i).diag = s.diag := rfl
@[simp] theorem State.setIdx_trace (s : State) (i : Nat) : (s.setIdx i).trace = s.trace := rfl
@[simp] theorem State.setIdx_eng (s : State) (i : Nat) :
    (s.setIdx i).eng = { s.eng with idx := i } := rfl
@[simp] theorem State.setIdx_cmd (s : State) (i : Nat) : (s.setIdx i).cmd = s.cmd := rfl
@[simp] theorem State.setIdx_rsp (s : State) (i : Nat) : (s.setIdx i).rsp = s.rsp := rfl
@[simp] theorem State.setIdx_host (s : State) (i : Nat) : (s.setIdx i).host = s.host := rfl
@[simp] theorem State.setIdx_sched (s : State) (i : Nat) : (s.setIdx i).sched = s.sched := rfl

/-! #### `State.openOp` -/
@[simp] theorem State.openOp_cfg (s : State) (op : Instr) : (s.openOp op).cfg = s.cfg := rfl
@[simp] theorem State.openOp_handles (s : State) (op : Instr) : (s.openOp op).handles = s.handles := rfl
@[simp] theorem State.openOp_gpioOut (s : State) (op : Instr) : (s.openOp op).gpioOut = s.gpioOut := rfl
@[simp] theorem State.openOp_gpioDir (s : State) (op : Instr) : (s.openOp op).gpioDir = s.gpioDir := rfl
@[simp] theorem State.openOp_spi (s : State) (op : Instr) : (s.openOp op).spi = s.spi := rfl
@[simp] theorem State.openOp_busInit (s : State) (op : Instr) : (s.openOp op).busInit = s.busInit := rfl
@[simp] theorem State.openOp_buf (s : State) (op : Instr) : (s.openOp op).buf = s.buf := rfl
@[simp] theorem State.openOp_time (s : State) (op : Instr) : (s.openOp op).time = s.time := rfl
@[simp] theorem State.openOp_diag (s : State) (op : Instr) : (s.openOp op).diag = s.diag := rfl
@[simp] theorem State.openOp_trace (s : State) (op : Instr) : (s.openOp op).trace = s.trace := rfl
@[simp] theorem State.openOp_eng (s : State) (op : Instr) :
    (s.openOp op).eng = { s.eng with cur := op.slot, tmp := none } := rfl
@[simp] theorem State.openOp_cmd (s : State) (op : Instr) : (s.openOp op).cmd = s.cmd := rfl
@[simp] theorem State.openOp_rsp (s : State) (op : Instr) : (s.openOp op).rsp = s.rsp := rfl
@[simp] theorem State.openOp_host (s : State) (op : Instr) : (s.openOp op).host = s.host := rfl
@[simp] theorem State.openOp_sched (s : State) (op : Instr) : (s.openOp op).sched = s.sched := rfl

/-! #### `State.finish` -/
@[simp] theorem State.finish_cfg (s : State) (r : Response) : (s.finish r).cfg = s.cfg := rfl
@[simp] theorem State.finish_handles (s : State) (r : Response) : (s.finish r).handles = s.handles := rfl
@[simp] theorem State.finish_gpioOut (s : State) (r : Response) : (s.finish r).gpioOut = s.gpioOut := rfl
@[simp] theorem State.finish_gpioDir (s : State) (r : Response) : (s.finish r).gpioDir = s.gpioDir := rfl
@[simp] theorem State.finish_spi (s : State) (r : Response) : (s.finish r).spi = s.spi := rfl
@[simp] theorem State.finish_busInit (s : State) (r : Response) : (s.finish r).busInit = s.busInit := rfl
@[simp] theorem State.finish_buf (s : State) (r : Response) : (s.finish r).buf = s.buf := rfl
@[simp] theorem State.finish_time (s : State) (r : Response) : (s.finish r).time = s.time := rfl
@[simp] theorem State.finish_diag (s : State) (r : Response) : (s.finish r).diag = s.diag := rfl
@[simp] theorem State.finish_trace (s : State) (r : Response) : (s.finish r).trace = s.trace := rfl
@[simp] theorem State.finish_eng (s : State) (r : Response) :
    (s.finish r).eng = { s.eng with phase := .ready } := rfl
@[simp] theorem State.finish_cmd (s : State) (r : Response) : (s.finish r).cmd = s.cmd := rfl
@[simp] theorem State.finish_rsp (s : State) (r : Response) :
    (s.finish r).rsp = r := rfl
@[simp] theorem State.finish_host (s : State) (r : Response) : (s.finish r).host = s.host := rfl
@[simp] theorem State.finish_sched (s : State) (r : Response) : (s.finish r).sched = s.sched := rfl

/-! #### `State.takeError` -/
@[simp] theorem State.takeError_cfg (s : State) (op : Instr) : (s.takeError op).cfg = s.cfg := rfl
@[simp] theorem State.takeError_handles (s : State) (op : Instr) : (s.takeError op).handles = s.handles := rfl
@[simp] theorem State.takeError_gpioOut (s : State) (op : Instr) : (s.takeError op).gpioOut = s.gpioOut := rfl
@[simp] theorem State.takeError_gpioDir (s : State) (op : Instr) : (s.takeError op).gpioDir = s.gpioDir := rfl
@[simp] theorem State.takeError_spi (s : State) (op : Instr) : (s.takeError op).spi = s.spi := rfl
@[simp] theorem State.takeError_busInit (s : State) (op : Instr) : (s.takeError op).busInit = s.busInit := rfl
@[simp] theorem State.takeError_buf (s : State) (op : Instr) : (s.takeError op).buf = s.buf := rfl
@[simp] theorem State.takeError_time (s : State) (op : Instr) : (s.takeError op).time = s.time := rfl
@[simp] theorem State.takeError_diag (s : State) (op : Instr) : (s.takeError op).diag = s.diag := rfl
@[simp] theorem State.takeError_trace (s : State) (op : Instr) : (s.takeError op).trace = s.trace := rfl
@[simp] theorem State.takeError_eng (s : State) (op : Instr) :
    (s.takeError op).eng = { s.eng with phase := .busy op (.unselect false) } := rfl
@[simp] theorem State.takeError_cmd (s : State) (op : Instr) : (s.takeError op).cmd = s.cmd := rfl
@[simp] theorem State.takeError_rsp (s : State) (op : Instr) : (s.takeError op).rsp = s.rsp := rfl
@[simp] theorem State.takeError_host (s : State) (op : Instr) : (s.takeError op).host = s.host := rfl
@[simp] theorem State.takeError_sched (s : State) (op : Instr) : (s.takeError op).sched = s.sched := rfl

/-! #### `State.respondIllegal` -/
@[simp] theorem State.respondIllegal_cfg (s : State) : (s.respondIllegal).cfg = s.cfg := rfl
@[simp] theorem State.respondIllegal_handles (s : State) : (s.respondIllegal).handles = s.handles := rfl
@[simp] theorem State.respondIllegal_gpioOut (s : State) : (s.respondIllegal).gpioOut = s.gpioOut := rfl
@[simp] theorem State.respondIllegal_gpioDir (s : State) : (s.respondIllegal).gpioDir = s.gpioDir := rfl
@[simp] theorem State.respondIllegal_spi (s : State) : (s.respondIllegal).spi = s.spi := rfl
@[simp] theorem State.respondIllegal_busInit (s : State) : (s.respondIllegal).busInit = s.busInit := rfl
@[simp] theorem State.respondIllegal_buf (s : State) : (s.respondIllegal).buf = s.buf := rfl
@[simp] theorem State.respondIllegal_time (s : State) : (s.respondIllegal).time = s.time := rfl
@[simp] theorem State.respondIllegal_diag (s : State) : (s.respondIllegal).diag = s.diag := rfl
@[simp] theorem State.respondIllegal_trace (s : State) : (s.respondIllegal).trace = s.trace := rfl
@[simp] theorem State.respondIllegal_eng (s : State) : (s.respondIllegal).eng = s.eng := rfl
@[simp] theorem State.respondIllegal_cmd (s : State) : (s.respondIllegal).cmd = s.cmd := rfl
@[simp] theorem State.respondIllegal_rsp (s : State) :
    (s.respondIllegal).rsp = response .illegal 0x00 := rfl
@[simp] theorem State.respondIllegal_host (s : State) : (s.respondIllegal).host = s.host := rfl
@[simp] theorem State.respondIllegal_sched (s : State) : (s.respondIllegal).sched = s.sched := rfl

/-! #### Reads of a handle, of the running handle and of the chip-select level -/

@[simp] theorem State.setDir_handle (s : State) (k b : Nat) (g : Slot) : (s.setDir k b).handle g = s.handle g := rfl
@[simp] theorem State.setOut_handle (s : State) (k b : Nat) (g : Slot) : (s.setOut k b).handle g = s.handle g := rfl
@[simp] theorem State.clrOut_handle (s : State) (k b : Nat) (g : Slot) : (s.clrOut k b).handle g = s.handle g := rfl
@[simp] theorem State.setBuf_handle (s : State) (i : Nat) (v : Byte) (g : Slot) : (s.setBuf i v).handle g = s.handle g := rfl
@[simp] theorem State.emit_handle (s : State) (tag : Tag) (g : Slot) : (s.emit tag).handle g = s.handle g := rfl
@[simp] theorem State.record_handle (s : State) (es : List WireEvent) (g : Slot) : (s.record es).handle g = s.handle g := rfl
@[simp] theorem State.respond_handle (s : State) (r : Response) (g : Slot) : (s.respond r).handle g = s.handle g := rfl
@[simp] theorem State.withSpi_handle (s : State) (p : Spi) (g : Slot) : (s.withSpi p).handle g = s.handle g := rfl
@[simp] theorem State.writeData_handle (s : State) (v : Byte) (g : Slot) : (s.writeData v).handle g = s.handle g := rfl
@[simp] theorem State.linkComplete_handle (s : State) (r : Byte) (g : Slot) : (s.linkComplete r).handle g = s.handle g := rfl
@[simp] theorem State.timeStep_handle (s : State) (d : Nat) (g : Slot) : (s.timeStep d).handle g = s.handle g := rfl
@[simp] theorem State.withEng_handle (s : State) (e : Eng) (g : Slot) : (s.withEng e).handle g = s.handle g := rfl
@[simp] theorem State.goto_handle (s : State) (op : Instr) (l : Label) (g : Slot) : (s.goto op l).handle g = s.handle g := rfl
@[simp] theorem State.sampleTime_handle (s : State) (g : Slot) : (s.sampleTime).handle g = s.handle g := rfl
@[simp] theorem State.setIdx_handle (s : State) (i : Nat) (g : Slot) : (s.setIdx i).handle g = s.handle g := rfl
@[simp] theorem State.openOp_handle (s : State) (op : Instr) (g : Slot) : (s.openOp op).handle g = s.handle g := rfl
@[simp] theorem State.finish_handle (s : State) (r : Response) (g : Slot) : (s.finish r).handle g = s.handle g := rfl
@[simp] theorem State.takeError_handle (s : State) (op : Instr) (g : Slot) : (s.takeError op).handle g = s.handle g := rfl
@[simp] theorem State.respondIllegal_handle (s : State) (g : Slot) : (s.respondIllegal).handle g = s.handle g := rfl

@[simp] theorem State.setHandle_handle_same (s : State) (h : Slot) (x : Handle) : (s.setHandle h x).handle h = x := by
  simp [State.handle]

theorem State.setHandle_handle_other (s : State) {h g : Slot} (x : Handle) (hg : g ≠ h) :
    (s.setHandle h x).handle g = s.handle g := by
  have : h.toNat ≠ g.toNat := fun e => hg (BitVec.eq_of_toNat_eq e.symm)
  simp [State.handle, this]

end Sys2Proof.Machine
end

