-- ==== Sys2Proof/Laws/Micro.lean ====
section
/-!
SUPPORT. What one micro-step of ENGINE can do, field by field: the fields no micro-step writes, and the labels that write
each of the others. Provers cite these and never unfold a micro-step for a frame.
-/
namespace Sys2Proof.Machine

set_option linter.unusedSimpArgs false

/-- No micro-step writes a parameter (rule R49). -/
@[simp] theorem microLabel_cfg (op : Instr) (l : Label) (s : State) :
    (microLabel op l s).cfg = s.cfg := by
  cases l <;>
    (simp only [microLabel, microBadCs, microCsDir, microCsOut, microBusPin, microCtrl, microStatus, microSelect, microLoad,
      microSend, microSample, microPoll, microReceive, microClock, microTimedOut, microStore, microDelayStart, microDelayWait,
      microUnselect, enterInitializeOnce, afterExchange, nextByte, loopHead, State.endTxn, State.select, State.unselect,
      State.finishBegin, Spi.writeCtrl, Spi.writeStatus]
     (repeat' split) <;> simp)

/-- No micro-step writes a handle (rule R30). -/
@[simp] theorem microLabel_handles (op : Instr) (l : Label) (s : State) :
    (microLabel op l s).handles = s.handles := by
  cases l <;>
    (simp only [microLabel, microBadCs, microCsDir, microCsOut, microBusPin, microCtrl, microStatus, microSelect, microLoad,
      microSend, microSample, microPoll, microReceive, microClock, microTimedOut, microStore, microDelayStart, microDelayWait,
      microUnselect, enterInitializeOnce, afterExchange, nextByte, loopHead, State.endTxn, State.select, State.unselect,
      State.finishBegin, Spi.writeCtrl, Spi.writeStatus]
     (repeat' split) <;> simp)

/-- No micro-step of ENGINE moves `T` (rule R42). -/
@[simp] theorem microLabel_time (op : Instr) (l : Label) (s : State) :
    (microLabel op l s).time = s.time := by
  cases l <;>
    (simp only [microLabel, microBadCs, microCsDir, microCsOut, microBusPin, microCtrl, microStatus, microSelect, microLoad,
      microSend, microSample, microPoll, microReceive, microClock, microTimedOut, microStore, microDelayStart, microDelayWait,
      microUnselect, enterInitializeOnce, afterExchange, nextByte, loopHead, State.endTxn, State.select, State.unselect,
      State.finishBegin, Spi.writeCtrl, Spi.writeStatus]
     (repeat' split) <;> simp)

/-- No micro-step writes `CMD` (rule R78). -/
@[simp] theorem microLabel_cmd (op : Instr) (l : Label) (s : State) :
    (microLabel op l s).cmd = s.cmd := by
  cases l <;>
    (simp only [microLabel, microBadCs, microCsDir, microCsOut, microBusPin, microCtrl, microStatus, microSelect, microLoad,
      microSend, microSample, microPoll, microReceive, microClock, microTimedOut, microStore, microDelayStart, microDelayWait,
      microUnselect, enterInitializeOnce, afterExchange, nextByte, loopHead, State.endTxn, State.select, State.unselect,
      State.finishBegin, Spi.writeCtrl, Spi.writeStatus]
     (repeat' split) <;> simp)

/-- No micro-step uses up an action of HOST. -/
@[simp] theorem microLabel_host (op : Instr) (l : Label) (s : State) :
    (microLabel op l s).host = s.host := by
  cases l <;>
    (simp only [microLabel, microBadCs, microCsDir, microCsOut, microBusPin, microCtrl, microStatus, microSelect, microLoad,
      microSend, microSample, microPoll, microReceive, microClock, microTimedOut, microStore, microDelayStart, microDelayWait,
      microUnselect, enterInitializeOnce, afterExchange, nextByte, loopHead, State.endTxn, State.select, State.unselect,
      State.finishBegin, Spi.writeCtrl, Spi.writeStatus]
     (repeat' split) <;> simp)

/-- No micro-step uses up a turn. -/
@[simp] theorem microLabel_sched (op : Instr) (l : Label) (s : State) :
    (microLabel op l s).sched = s.sched := by
  cases l <;>
    (simp only [microLabel, microBadCs, microCsDir, microCsOut, microBusPin, microCtrl, microStatus, microSelect, microLoad,
      microSend, microSample, microPoll, microReceive, microClock, microTimedOut, microStore, microDelayStart, microDelayWait,
      microUnselect, enterInitializeOnce, afterExchange, nextByte, loopHead, State.endTxn, State.select, State.unselect,
      State.finishBegin, Spi.writeCtrl, Spi.writeStatus]
     (repeat' split) <;> simp)

/-- No micro-step writes `ENG.cur`. -/
@[simp] theorem microLabel_cur (op : Instr) (l : Label) (s : State) :
    (microLabel op l s).eng.cur = s.eng.cur := by
  cases l <;>
    (simp only [microLabel, microBadCs, microCsDir, microCsOut, microBusPin, microCtrl, microStatus, microSelect, microLoad,
      microSend, microSample, microPoll, microReceive, microClock, microTimedOut, microStore, microDelayStart, microDelayWait,
      microUnselect, enterInitializeOnce, afterExchange, nextByte, loopHead, State.endTxn, State.select, State.unselect,
      State.finishBegin, Spi.writeCtrl, Spi.writeStatus]
     (repeat' split) <;> simp)

/-- No micro-step writes a handle. -/
@[simp] theorem microLabel_handle (op : Instr) (l : Label) (s : State) (g : Slot) :
    (microLabel op l s).handle g = s.handle g := by
  simp [State.handle]

/-- Only the last micro-step of `initializeOnce` writes the latch (rule R119). -/
theorem microLabel_busInit (op : Instr) (l : Label) (s : State) (h0 : l ≠ .status) :
    (microLabel op l s).busInit = s.busInit := by
  cases l <;>
    first
    | (exfalso; simp_all; done)
    | (simp only [microLabel, microBadCs, microCsDir, microCsOut, microBusPin, microCtrl, microStatus, microSelect, microLoad,
      microSend, microSample, microPoll, microReceive, microClock, microTimedOut, microStore, microDelayStart, microDelayWait,
      microUnselect, enterInitializeOnce, afterExchange, nextByte, loopHead, State.endTxn, State.select, State.unselect,
      State.finishBegin, Spi.writeCtrl, Spi.writeStatus]
       (repeat' split) <;> simp)

/-- Only step 4 of `initializeOnce` writes `SPI.CTRL` (rule R124). -/
theorem microLabel_spi_ctrl (op : Instr) (l : Label) (s : State) (h0 : l ≠ .ctrl) :
    (microLabel op l s).spi.ctrl = s.spi.ctrl := by
  cases l <;>
    first
    | (exfalso; simp_all; done)
    | (simp only [microLabel, microBadCs, microCsDir, microCsOut, microBusPin, microCtrl, microStatus, microSelect, microLoad,
      microSend, microSample, microPoll, microReceive, microClock, microTimedOut, microStore, microDelayStart, microDelayWait,
      microUnselect, enterInitializeOnce, afterExchange, nextByte, loopHead, State.endTxn, State.select, State.unselect,
      State.finishBegin, Spi.writeCtrl, Spi.writeStatus]
       (repeat' split) <;> simp)

/-- Only step 4 of `initializeOnce` writes `DBL` (rule R124). -/
theorem microLabel_spi_dbl (op : Instr) (l : Label) (s : State) (h0 : l ≠ .status) :
    (microLabel op l s).spi.dbl = s.spi.dbl := by
  cases l <;>
    first
    | (exfalso; simp_all; done)
    | (simp only [microLabel, microBadCs, microCsDir, microCsOut, microBusPin, microCtrl, microStatus, microSelect, microLoad,
      microSend, microSample, microPoll, microReceive, microClock, microTimedOut, microStore, microDelayStart, microDelayWait,
      microUnselect, enterInitializeOnce, afterExchange, nextByte, loopHead, State.endTxn, State.select, State.unselect,
      State.finishBegin, Spi.writeCtrl, Spi.writeStatus]
       (repeat' split) <;> simp)

/-- Only `BEGIN` writes a direction register (rules R32, R118, R120). -/
theorem microLabel_gpioDir (op : Instr) (l : Label) (s : State) (h0 : l ≠ .csDir) (h1 : ∀ n, l ≠ .busPin n) :
    (microLabel op l s).gpioDir = s.gpioDir := by
  cases l <;>
    first
    | (exfalso; simp_all; done)
    | (simp only [microLabel, microBadCs, microCsDir, microCsOut, microBusPin, microCtrl, microStatus, microSelect, microLoad,
      microSend, microSample, microPoll, microReceive, microClock, microTimedOut, microStore, microDelayStart, microDelayWait,
      microUnselect, enterInitializeOnce, afterExchange, nextByte, loopHead, State.endTxn, State.select, State.unselect,
      State.finishBegin, Spi.writeCtrl, Spi.writeStatus]
       (repeat' split) <;> simp)

/-- Only `configureChipSelect`, `select` and `unselect` write an output register (rule R57). -/
theorem microLabel_gpioOut (op : Instr) (l : Label) (s : State) (h0 : l ≠ .csOut) (h1 : l ≠ .select) (h2 : ∀ ok, l ≠ .unselect ok) :
    (microLabel op l s).gpioOut = s.gpioOut := by
  cases l <;>
    first
    | (exfalso; simp_all; done)
    | (simp only [microLabel, microBadCs, microCsDir, microCsOut, microBusPin, microCtrl, microStatus, microSelect, microLoad,
      microSend, microSample, microPoll, microReceive, microClock, microTimedOut, microStore, microDelayStart, microDelayWait,
      microUnselect, enterInitializeOnce, afterExchange, nextByte, loopHead, State.endTxn, State.select, State.unselect,
      State.finishBegin, Spi.writeCtrl, Spi.writeStatus]
       (repeat' split) <;> simp)

/-- Only `READN`'s store writes `BUF` (rule R145). -/
theorem microLabel_buf (op : Instr) (l : Label) (s : State) (h0 : ∀ r, l ≠ .store r) :
    (microLabel op l s).buf = s.buf := by
  cases l <;>
    first
    | (exfalso; simp_all; done)
    | (simp only [microLabel, microBadCs, microCsDir, microCsOut, microBusPin, microCtrl, microStatus, microSelect, microLoad,
      microSend, microSample, microPoll, microReceive, microClock, microTimedOut, microStore, microDelayStart, microDelayWait,
      microUnselect, enterInitializeOnce, afterExchange, nextByte, loopHead, State.endTxn, State.select, State.unselect,
      State.finishBegin, Spi.writeCtrl, Spi.writeStatus]
       (repeat' split) <;> simp)

/-- Only the two diagnostics write the log (rule R43). -/
theorem microLabel_diag (op : Instr) (l : Label) (s : State) (h0 : l ≠ .badCs) (h1 : l ≠ .timedOut) :
    (microLabel op l s).diag = s.diag := by
  cases l <;>
    first
    | (exfalso; simp_all; done)
    | (simp only [microLabel, microBadCs, microCsDir, microCsOut, microBusPin, microCtrl, microStatus, microSelect, microLoad,
      microSend, microSample, microPoll, microReceive, microClock, microTimedOut, microStore, microDelayStart, microDelayWait,
      microUnselect, enterInitializeOnce, afterExchange, nextByte, loopHead, State.endTxn, State.select, State.unselect,
      State.finishBegin, Spi.writeCtrl, Spi.writeStatus]
       (repeat' split) <;> simp)

/-- The micro-steps of ENGINE that record a wire event (rule R80). -/
theorem microLabel_trace (op : Instr) (l : Label) (s : State) (h0 : l ≠ .csOut) (h1 : l ≠ .select) (h2 : ∀ x v, l ≠ .send x v) (h3 : ∀ ok, l ≠ .unselect ok) :
    (microLabel op l s).trace = s.trace := by
  cases l <;>
    first
    | (exfalso; simp_all; done)
    | (simp only [microLabel, microBadCs, microCsDir, microCsOut, microBusPin, microCtrl, microStatus, microSelect, microLoad,
      microSend, microSample, microPoll, microReceive, microClock, microTimedOut, microStore, microDelayStart, microDelayWait,
      microUnselect, enterInitializeOnce, afterExchange, nextByte, loopHead, State.endTxn, State.select, State.unselect,
      State.finishBegin, Spi.writeCtrl, Spi.writeStatus]
       (repeat' split) <;> simp)

/-- Only `select` and `unselect` write `ENG.txn` (rule R44). -/
theorem microLabel_eng_txn (op : Instr) (l : Label) (s : State) (h0 : l ≠ .select) (h1 : ∀ ok, l ≠ .unselect ok) :
    (microLabel op l s).eng.txn = s.eng.txn := by
  cases l <;>
    first
    | (exfalso; simp_all; done)
    | (simp only [microLabel, microBadCs, microCsDir, microCsOut, microBusPin, microCtrl, microStatus, microSelect, microLoad,
      microSend, microSample, microPoll, microReceive, microClock, microTimedOut, microStore, microDelayStart, microDelayWait,
      microUnselect, enterInitializeOnce, afterExchange, nextByte, loopHead, State.endTxn, State.select, State.unselect,
      State.finishBegin, Spi.writeCtrl, Spi.writeStatus]
       (repeat' split) <;> simp)

/-! #### Where a micro-step leads -/

/-- `loopHead` writes the phase alone: to a payload byte's first micro-step below the length, to what follows the loop
otherwise (rules R137, R139). -/
theorem loopHead_cases (op : Instr) (s : State) :
    (loopHead op s = s.goto op (.unselect true) ∧ direction op ≠ .read) ∨
    (loopHead op s = s.goto op .tailStart ∧ direction op = .read ∧ byteCount op ≤ s.eng.idx) ∨
    (loopHead op s = s.goto op .settleStart ∧ direction op = .read ∧ s.eng.idx < byteCount op) ∨
    (loopHead op s = s.goto op .load ∧ direction op = .write ∧ s.eng.idx < byteCount op ∧ operandPayload op = none) ∨
    (∃ v, loopHead op s = s.goto op (.send .byte v) ∧ direction op = .write ∧ s.eng.idx < byteCount op ∧
      operandPayload op = some v) := by
  unfold loopHead
  by_cases h : s.eng.idx < byteCount op <;> cases direction op <;> cases operandPayload op <;> simp [h] <;> omega

/-- The labels between `select` and `unselect`. -/
theorem microLabel_within {op : Instr} {l : Label} (s : State) (hb : l.ofBegin = false) (hs : l ≠ .select)
    (hu : ∀ ok, l ≠ .unselect ok) :
    ∃ l', (microLabel op l s).eng.phase = .busy op l' ∧ l'.ofBegin = false ∧ l' ≠ .select := by
  have hloop : ∀ s : State, ∃ l', (loopHead op s).eng.phase = .busy op l' ∧ l'.ofBegin = false ∧ l' ≠ .select := by
    intro s
    obtain ⟨h, _⟩ | ⟨h, _⟩ | ⟨h, _⟩ | ⟨h, _⟩ | ⟨v, h, _⟩ := loopHead_cases op s <;>
      exact ⟨_, by rw [h]; rfl, rfl, by simp⟩
  cases l with
  | badCs | csDir | csOut | busPin | ctrl | status => simp [Label.ofBegin] at hb
  | select => simp at hs
  | unselect ok => simp at hu
  | load => exact ⟨_, rfl, rfl, by simp⟩
  | send x v => exact ⟨_, rfl, rfl, by simp⟩
  | sample x => exact ⟨_, rfl, rfl, by simp⟩
  | poll x =>
    simp only [microLabel, microPoll]
    repeat' split
    all_goals exact ⟨_, rfl, rfl, by simp⟩
  | receive x =>
    simp only [microLabel, microReceive, afterExchange]
    repeat' split
    all_goals first
    | exact hloop _
    | exact ⟨_, rfl, rfl, by simp⟩
  | clock x =>
    simp only [microLabel, microClock]
    split
    all_goals exact ⟨_, rfl, rfl, by simp⟩
  | timedOut => exact ⟨_, rfl, rfl, by simp⟩
  | store r => exact hloop _
  | settleStart | tailStart => exact ⟨_, rfl, rfl, by simp⟩
  | settleWait | tailWait =>
    simp only [microLabel, microDelayWait]
    split
    all_goals exact ⟨_, rfl, rfl, by simp⟩

/-- The labels of `BEGIN` lead to its end or to one another. -/
theorem microLabel_begin {op : Instr} {l : Label} (s : State) (hb : l.ofBegin = true) :
    (microLabel op l s).eng.phase = .ready ∨
    ∃ l', (microLabel op l s).eng.phase = .busy op l' ∧ l'.ofBegin = true := by
  cases l <;> simp [Label.ofBegin] at hb
  · exact .inl rfl
  · exact .inr ⟨_, rfl, rfl⟩
  · simp only [microLabel, microCsOut, enterInitializeOnce, nextBusPin]
    repeat' split
    all_goals first
    | exact .inl rfl
    | exact .inr ⟨_, rfl, rfl⟩
  · refine .inr ⟨_, rfl, ?_⟩
    unfold nextBusPin; split <;> rfl
  · exact .inr ⟨_, rfl, rfl⟩
  · exact .inl rfl

/-- The labels of `initializeOnce` are labels of `BEGIN`. -/
theorem Label.ofInitialize_of_ofBegin {l : Label} (h : l.ofBegin = false) : l.ofInitialize = false := by
  cases l <;> simp_all [Label.ofBegin, Label.ofInitialize]

/-- `unselect` ends the operation (rule R156). -/
theorem microLabel_unselect_ready (op : Instr) (ok : Bool) (s : State) :
    (microLabel op (.unselect ok) s).eng.phase = .ready := rfl

end Sys2Proof.Machine
end

