-- ==== Sys2Proof/Laws/Ops.lean ====
section
/-!
SUPPORT. The shared operations of Machine/Ops.lean, each said once: bits of the GPIO registers after `SetBit` and `ClrBit`,
`select` and `unselect` on a handle that drives a line and on an invalid one, the chip-select level, the waits.
-/
namespace Sys2Proof.Machine

/-- A bit of an output register after `ClrBit` (rule R69). -/
theorem clrOut_bit {s : State} (hm : s.gpioOut.wf = true) (k b k' b' : Nat) :
    ((s.clrOut k b).outReg k').getLsbD b' = ((s.outReg k').getLsbD b' && !decide ((k', b') = (k, b))) := by
  unfold State.outReg State.clrOut
  by_cases hk : k' = k
  · subst hk
    rw [Memory.clrBit_read_same hm]
    by_cases h8 : b' < 8
    · have := pinMask_getLsbD b b'
      rw [BitVec.getLsbD_and, BitVec.getLsbD_not, this]
      simp [h8]
    · rw [BitVec.getLsbD_of_ge _ _ (by omega), BitVec.getLsbD_of_ge _ _ (by omega)]; simp
  · rw [Memory.clrBit_read_other _ hk]; simp [hk]

/-- A bit of an output register after `SetBit` (rule R69). -/
theorem setOut_bit {s : State} (hm : s.gpioOut.wf = true) (k b k' b' : Nat) :
    ((s.setOut k b).outReg k').getLsbD b' = ((s.outReg k').getLsbD b' || decide ((k', b') = (k, b) ∧ b' < 8)) := by
  unfold State.outReg State.setOut
  by_cases hk : k' = k
  · subst hk
    rw [Memory.setBit_read_same hm]
    simp [pinMask_getLsbD]
  · rw [Memory.setBit_read_other _ hk]; simp [hk]

/-- A bit of a direction register after `SetBit` (rule R69). -/
theorem setDir_bit {s : State} (hm : s.gpioDir.wf = true) (k b k' b' : Nat) :
    ((s.setDir k b).dirReg k').getLsbD b' = ((s.dirReg k').getLsbD b' || decide ((k', b') = (k, b) ∧ b' < 8)) := by
  unfold State.dirReg State.setDir
  by_cases hk : k' = k
  · subst hk
    rw [Memory.setBit_read_same hm]
    simp [pinMask_getLsbD]
  · rw [Memory.setBit_read_other _ hk]; simp [hk]

/-- The chip-select level of a handle that drives a line is its bit (rule R33). -/
theorem cs_of_drives {s : State} {h : Slot} {k b : Nat} (hd : Drives s h k b) :
    s.cs h = (s.outReg k).getLsbD b := by
  obtain ⟨_, hk, hb, _⟩ := hd
  unfold State.cs
  rw [hk, hb]

/-- `select` on a handle that drives a line (rule R130). -/
theorem select_of_drives {s : State} {k b : Nat} (hd : Drives s s.eng.cur k b) :
    s.select = ((s.clrOut k b).record [.csLow s.eng.cur]).withEng { s.eng with txn := .selected s.eng.cur } := by
  obtain ⟨hv, hk, rfl, _⟩ := hd
  simp [State.select, State.curHandle, hv, hk]

/-- `unselect` on a handle that drives a line (rule R131). -/
theorem unselect_of_drives {s : State} {k b : Nat} (hd : Drives s s.eng.cur k b) :
    s.unselect = ((s.setOut k b).record [.csHigh s.eng.cur]).withEng { s.eng with txn := .idle } := by
  obtain ⟨hv, hk, rfl, _⟩ := hd
  simp [State.unselect, State.curHandle, hv, hk]

/-- `select` on an invalid handle is a no-op (rule R130). -/
theorem select_of_invalid {s : State} (h : s.curHandle.valid = false) : s.select = s := by
  simp [State.select, h]

/-- `unselect` on an invalid handle is a no-op (rule R131). -/
theorem unselect_of_invalid {s : State} (h : s.curHandle.valid = false) : s.unselect = s := by
  simp [State.unselect, h]

/-- The line is low after `select` (rules R33, R130). -/
theorem select_cs {s : State} {k b : Nat} (hm : s.gpioOut.wf = true) (hd : Drives s s.eng.cur k b) :
    s.select.cs s.eng.cur = false := by
  have hd' : Drives s.select s.eng.cur k b := by rw [select_of_drives hd]; exact hd
  rw [cs_of_drives hd', select_of_drives hd]
  exact (clrOut_bit hm k b k b).trans (by simp)

/-- The line is high after `unselect` (rules R33, R131). -/
theorem unselect_cs {s : State} {k b : Nat} (hm : s.gpioOut.wf = true) (hd : Drives s s.eng.cur k b) :
    s.unselect.cs s.eng.cur = true := by
  have hd' : Drives s.unselect s.eng.cur k b := by rw [unselect_of_drives hd]; exact hd
  rw [cs_of_drives hd', unselect_of_drives hd]
  exact (setOut_bit hm k b k b).trans (by simp [hd.2.2.2])

/-- The elapsed time is below the counter's period (rule R162). -/
theorem elapsed_lt (c : Config) (t1 t0 : Nat) : elapsed c t1 t0 < 2 ^ c.timeBits :=
  Nat.mod_lt _ (Nat.two_pow_pos _)

/-- The elapsed time after a further advance, modulo the counter's period (rule R162). -/
theorem elapsed_add (c : Config) (t1 t0 d : Nat) :
    elapsed c ((t1 + d) % 2 ^ c.timeBits) t0 = (elapsed c t1 t0 + d) % 2 ^ c.timeBits := by
  unfold elapsed
  rw [Nat.mod_add_mod, Nat.mod_add_mod]
  congr 1
  omega

/-- No time has elapsed since a sample taken now (rule R162). -/
@[simp] theorem elapsed_self (c : Config) (t : Nat) : elapsed c t t = 0 := by
  unfold elapsed
  have hp := Nat.two_pow_pos c.timeBits
  have h := Nat.mod_lt t hp
  rw [Nat.add_mod]
  by_cases h0 : t % 2 ^ c.timeBits = 0
  · simp [h0]
  · rw [Nat.mod_eq_of_lt (a := 2 ^ c.timeBits - t % 2 ^ c.timeBits) (by omega)]
    rw [Nat.add_sub_cancel' (by omega), Nat.mod_self]

end Sys2Proof.Machine
end

