-- ==== Sys2Proof/Laws/PerInstr.lean ====
section
/-!
SUPPORT. Statements for all instructions, one lemma per constructor: the encoder puts the slot an operation acts on into
the field `h` of its word (rules R82, R90).
-/
namespace Sys2Proof.Laws.EncodesSlot

/-- The field `h` of the encoded word is the operation's slot. -/
def Statement (i : Instr) : Prop := fieldH (encode i) = i.slot

theorem constructPin (h : Slot) (pin : Byte) : Statement (.constructPin h pin) := by
  simp [Statement, encode, Instr.slot]
theorem constructExplicit (h : Slot) (regid pinIndex : Byte) (invert : Bool) :
    Statement (.constructExplicit h regid pinIndex invert) := by
  simp [Statement, encode, Instr.slot]
theorem begin (h : Slot) : Statement (.begin h) := by
  simp [Statement, encode, Instr.slot]
theorem isConnected (h : Slot) : Statement (.isConnected h) := by
  simp [Statement, encode, Instr.slot]
theorem command (h : Slot) (cmd : Byte) : Statement (.command h cmd) := by
  simp [Statement, encode, Instr.slot]
theorem write1 (h : Slot) (reg value : Byte) : Statement (.write1 h reg value) := by
  simp [Statement, encode, Instr.slot]
theorem writeN (h : Slot) (reg len : Byte) : Statement (.writeN h reg len) := by
  simp [Statement, encode, Instr.slot]
theorem read1 (h : Slot) (reg : Byte) : Statement (.read1 h reg) := by
  simp [Statement, encode, Instr.slot]
theorem readN (h : Slot) (reg len : Byte) : Statement (.readN h reg len) := by
  simp [Statement, encode, Instr.slot]

end Sys2Proof.Laws.EncodesSlot
end

