-- ==== Sys2Proof/Laws/Run.lean ====
section
/-!
SUPPORT. What a run can do, said once: the port's check, the body of each operation, the induction over the turns of an
operation, the inversion of exec and of step, and the two packaged inductions every invariant and every frame uses.
-/
namespace Sys2Proof.Machine

/-! ### The port -/

/-- What an accepted operation does (the meanings of Machine/Resolver.lean, Begin.lean and Transactions.lean behind
`atPort`). -/
def opBody (i : Instr) (s : State) : Host.Outcome State Fault Refusal :=
  match i with
  | .constructPin h pin => .next (construct h (resolve s.cfg pin) false s)
  | .constructExplicit h regid pinIndex invert =>
      .next (construct h (resolveExplicit s.cfg regid pinIndex invert) invert s)
  | .begin h => complete (s.goto (.begin h) (if (s.handle h).valid then .csDir else .badCs))
  | .isConnected h => .next (s.respond (boolResponse (s.handle h).valid))
  | .command h cmd =>
      if (s.handle h).valid then complete (s.goto (.command h cmd) .select)
      else .next (s.respond (txnResponse (.command h cmd) false none))
  | .write1 h reg value =>
      if (s.handle h).valid then complete (s.goto (.write1 h reg value) .select)
      else .next (s.respond (txnResponse (.write1 h reg value) false none))
  | .writeN h reg len =>
      if (s.handle h).valid then complete (s.goto (.writeN h reg len) .select)
      else .next (s.respond (txnResponse (.writeN h reg len) false none))
  | .read1 h reg =>
      if (s.handle h).valid then complete (s.goto (.read1 h reg) .select)
      else .next (s.respond (txnResponse (.read1 h reg) false none))
  | .readN h reg len =>
      if (s.handle h).valid then complete (s.goto (.readN h reg len) .select)
      else .next (s.respond (txnResponse (.readN h reg len) false none))

theorem exec_eq_atPort (i : Instr) (s : State) : exec i s = atPort i s (opBody i) := by
  cases i <;> rfl

/-- An accepted operation is its body, at the state in which it is open. -/
theorem exec_of_accepts {i : Instr} {s : State} (h : Accepts s i) : exec i s = opBody i (s.openOp i) := by
  obtain ⟨hw, hp, hi⟩ := h
  simp [exec_eq_atPort, atPort, hw, hp, hi]

/-- A transaction's body: the guard, then the run from `select`. -/
theorem opBody_transaction {i : Instr} (hi : isTransaction i = true) (s : State) :
    opBody i s = if (s.handle i.slot).valid then complete (s.goto i .select)
      else .next (s.respond (txnResponse i false none)) := by
  cases i <;> first | rfl | simp [isTransaction] at hi

/-- Everything exec can answer `next` for: an ILLEGAL operation, or an accepted one's body. -/
theorem exec_next_cases {i : Instr} {s t : State} (h : exec i s = .next t) :
    s.cfg.wf = true ∧ s.eng.phase = .ready ∧
    ((s.illegal i = true ∧ t = s.respondIllegal) ∨
     (s.illegal i = false ∧ opBody i (s.openOp i) = .next t)) := by
  rw [exec_eq_atPort, atPort] at h
  split at h
  · rename_i hw
    cases hp : s.eng.phase with
    | busy op l => simp [hp] at h
    | ready =>
      simp only [hp] at h
      split at h
      · rename_i hi
        exact ⟨hw, rfl, .inl ⟨hi, by simpa using h.symm⟩⟩
      · rename_i hi
        exact ⟨hw, rfl, .inr ⟨by simpa using hi, h⟩⟩
  · simp at h

/-- Everything step can answer `next` for: the rest of an operation, an idle turn, a buffer fill, an ILLEGAL word, an
operation. -/
theorem step_next_cases {s t : State} (h : step s = .next t) :
    s.cfg.wf = true ∧
    ((∃ op l, s.eng.phase = .busy op l ∧ complete s = .next t) ∨
     (s.eng.phase = .ready ∧
      ((∃ hs, t = idleTurn { s with host := hs }) ∨
       (∃ i v hs, s.host = .fill i v :: hs ∧ t = { s with host := hs }.setBuf i.val v) ∨
       (∃ w hs e, s.host = .issue w :: hs ∧ decode w = .error e ∧
          t = { s with host := hs, cmd := w }.respondIllegal) ∨
       (∃ w hs i, s.host = .issue w :: hs ∧ decode w = .ok i ∧
          exec i { s with host := hs, cmd := w } = .next t)))) := by
  unfold step at h
  split at h
  · rename_i hw
    refine ⟨hw, ?_⟩
    cases hp : s.eng.phase with
    | busy op l => exact .inl ⟨op, l, rfl, by simpa [hp] using h⟩
    | ready =>
      right
      refine ⟨rfl, ?_⟩
      simp only [hp, hostAct] at h
      split at h
      · rename_i hh
        injection h with h
        exact .inl ⟨[], by rw [← h, ← hh]⟩
      · rename_i hs _
        injection h with h
        exact .inl ⟨hs, h.symm⟩
      · rename_i i v hs hh
        injection h with h
        exact .inr (.inl ⟨i, v, hs, hh, h.symm⟩)
      · rename_i w hs hh
        simp only [acceptWord] at h
        split at h
        · rename_i i hd
          exact .inr (.inr (.inr ⟨w, hs, i, hh, hd, h⟩))
        · rename_i e hd
          injection h with h
          exact .inr (.inr (.inl ⟨w, hs, e, hh, hd, h.symm⟩))
  · simp at h

/-! ### The turns of an operation -/

theorem microStep_busy {s : State} {op : Instr} {l : Label} (h : s.eng.phase = .busy op l) :
    microStep s = microLabel op l s := by simp [microStep, h]

/-- No turn is left. -/
@[simp] theorem runTurns_nil (s : State) : runTurns [] s = { s with sched := [] } := rfl

/-- An operation that has answered takes no further turn. -/
theorem runTurns_ready {s : State} (h : s.eng.phase = .ready) (ts : List Turn) :
    runTurns ts s = { s with sched := ts } := by
  cases ts <;> simp [runTurns, h]

/-- ENGINE's turn is the micro-step its label names. -/
theorem runTurns_engine {s : State} {op : Instr} {l : Label} (h : s.eng.phase = .busy op l) (ts : List Turn) :
    runTurns (.engine :: ts) s = runTurns ts (microLabel op l s) := by
  simp [runTurns, h, agentTurn, microStep]

/-- LINK's turn. -/
theorem runTurns_link {s : State} {op : Instr} {l : Label} (h : s.eng.phase = .busy op l) (r : Byte)
    (ts : List Turn) : runTurns (.link r :: ts) s = runTurns ts (s.linkComplete r) := by
  simp [runTurns, h, agentTurn]

/-- TIME's turn. -/
theorem runTurns_time {s : State} {op : Instr} {l : Label} (h : s.eng.phase = .busy op l) (d : Nat)
    (ts : List Turn) : runTurns (.time d :: ts) s = runTurns ts (s.timeStep d) := by
  simp [runTurns, h, agentTurn]

/-- The tail of an operation that has answered is empty. -/
theorem runTail_ready {s : State} (h : s.eng.phase = .ready) (n : Nat) : runTail n s = s := by
  cases n <;> simp [runTail, h]

/-- One micro-step of the tail. -/
theorem runTail_succ {s : State} {op : Instr} {l : Label} (h : s.eng.phase = .busy op l) (n : Nat) :
    runTail (n + 1) s = runTail n (tailStep s) := by
  simp [runTail, h]

/-- An operation that answers within its turns. -/
theorem complete_of_turns {s t : State} (h : runTurns s.sched s = t) (ht : t.eng.phase = .ready) :
    complete s = .next t := by
  simp [complete, settled, h, runTail_ready ht, ht]

/-- TIME's turns in a row. -/
theorem runTurns_times {op : Instr} {l : Label} (ds : List Nat) (ts : List Turn) {s : State}
    (hp : s.eng.phase = .busy op l) :
    runTurns (ds.map .time ++ ts) s = runTurns ts { s with time := timeAfter s.cfg s.time ds } := by
  induction ds generalizing s with
  | nil => rfl
  | cons d ds ih =>
    rw [List.map_cons, List.cons_append, runTurns_time hp, ih (by simpa using hp)]
    rfl

/-- Flagless poll rounds within the bound come back to the status read, with `T` advanced (rule R133). -/
theorem runTurns_waits {op : Instr} {x : Exchange} (ds : List Nat) (ts : List Turn) {s : State}
    (hp : s.eng.phase = .busy op (.poll x)) (hd : s.spi.done = false) (hc : s.spi.coll = false)
    (ht : s.waited + ds.sum ≤ s.cfg.timeoutUs) (hb : s.cfg.timeoutUs < 2 ^ s.cfg.timeBits) :
    runTurns ((ds.flatMap fun d => [.engine, .time d, .engine]) ++ ts) s =
      runTurns ts { s with time := timeAfter s.cfg s.time ds } := by
  induction ds generalizing s with
  | nil => rfl
  | cons d ds ih =>
    have harm : s.spi.arm = s.spi := by
      cases hs : s.spi
      simp_all [Spi.arm]
    have hpoll : microLabel op (.poll x) s = s.goto op (.clock x) := by
      simp [microLabel, microPoll, hd, hc, harm, State.withSpi]
    have hw : (s.timeStep d).waited = s.waited + d := by
      simp only [State.waited, State.timeStep_cfg, State.timeStep_time, State.timeStep_eng]
      rw [elapsed_add, Nat.mod_eq_of_lt]
      simp only [List.sum_cons, State.waited] at ht
      omega
    have hsum : s.waited + d + ds.sum ≤ s.cfg.timeoutUs := by simpa [Nat.add_assoc] using ht
    have hclock : microLabel op (.clock x) ((s.goto op (.clock x)).timeStep d) = s.timeStep d := by
      have h : ¬ s.cfg.timeoutUs < ((s.goto op (.clock x)).timeStep d).waited := by
        have : ((s.goto op (.clock x)).timeStep d).waited = (s.timeStep d).waited := rfl
        omega
      refine (if_neg h).trans ?_
      simp [State.goto, State.withEng, State.timeStep, ← hp]
    rw [List.flatMap_cons, List.append_assoc]
    simp only [List.cons_append, List.nil_append]
    rw [runTurns_engine hp, hpoll, runTurns_time (op := op) (l := .clock x) rfl,
      runTurns_engine (op := op) (l := .clock x) rfl, hclock,
      ih (s := s.timeStep d) (by simpa using hp) (by simpa using hd) (by simpa using hc) (by rw [hw]; exact hsum) hb]
    rfl

/-- An exchange of `v` from a clean, running link that answers in time (rules R133, R134 clause (b)): the byte goes out,
the answer comes in, the flags are clear again. -/
theorem runTurns_answer {s : State} {op : Instr} {x : Exchange} {v : Byte} (a : Answer) (ts : List Turn)
    (hp : s.eng.phase = .busy op (.send x v)) (hc : s.spi.Clean) (hr : s.spi.Running) (ha : a.InTime s.cfg)
    (hb : s.cfg.timeoutUs < 2 ^ s.cfg.timeBits) :
    runTurns (a.turns ++ ts) s =
      runTurns ts (afterExchange op x a.byte
        { s with spi := { s.spi with rxd := a.byte }, trace := s.trace ++ [.start v, .done v a.byte],
                 time := timeAfter s.cfg (timeAfter s.cfg s.time a.waits) a.late,
                 eng := { s.eng with t0 := s.time, phase := .busy op (.receive x) } }) := by
  obtain ⟨hx, hd, hcl, had, hac⟩ := hc
  obtain ⟨he, hm⟩ := hr
  have hw : s.spi.writeData v = { s.spi with xfer := some v } := by
    have h1 : s.spi.clearArmed.enabled = true := he
    have h2 : s.spi.clearArmed.master = true := hm
    have h3 : s.spi.clearArmed.xfer = none := hx
    have h4 : s.spi.clearArmed = s.spi := by
      cases hs : s.spi
      simp_all [Spi.clearArmed]
    simp only [Spi.writeData, h1, h2, h3]
    simp [h4]
  have hev : s.spi.writeEvents v = [.start v] := by simp [Spi.writeEvents, he, hm, hx]
  simp only [Answer.turns, List.append_assoc, List.cons_append, List.nil_append]
  rw [runTurns_engine hp, runTurns_engine (op := op) (l := .sample x) (by rfl)]
  have h2 : microLabel op (.sample x) (microLabel op (.send x v) s) =
      { s with spi := { s.spi with xfer := some v }, trace := s.trace ++ [.start v],
               eng := { s.eng with t0 := s.time, phase := .busy op (.poll x) } } := by
    simp [microLabel, microSend, microSample, State.writeData, State.goto, State.withEng, State.sampleTime,
      State.withSpi, State.record, hw, hev]
  obtain ⟨u, hu⟩ : ∃ u, u = microLabel op (.sample x) (microLabel op (.send x v) s) := ⟨_, rfl⟩
  rw [← hu] at h2 ⊢
  have hph : u.eng.phase = .busy op (.poll x) := by rw [h2]
  rw [runTurns_waits a.waits _ hph (by rw [h2]; exact hd) (by rw [h2]; exact hcl)
      (by rw [h2]; simpa [State.waited, Answer.InTime] using ha) (by rw [h2]; exact hb),
    runTurns_link (op := op) (l := .poll x) (by exact hph), runTurns_times (op := op) (l := .poll x) _ _ (by exact hph),
    runTurns_engine (op := op) (l := .poll x) (by exact hph), h2]
  simp only [microLabel, microPoll]
  simp [State.linkComplete, State.goto, State.withEng, State.withSpi, State.record, Spi.linkComplete, Spi.linkEvents,
    Spi.arm, hcl, had, hac]
  rw [runTurns_engine (op := op) (l := .receive x) (by rfl)]
  congr 1
  simp only [microLabel, microReceive]
  congr 1
  simp only [State.withSpi, Spi.readData, Spi.clearArmed]
  cases hs : s.spi
  simp_all

/-- A delay of exactly its parameter (rule R132): the wait ends at its second sample. -/
theorem runTurns_promptDelay {s : State} {op : Instr} {d : Nat} {start wait done : Label} (ts : List Turn)
    (hp : s.eng.phase = .busy op start) (hd : d < 2 ^ s.cfg.timeBits)
    (h1 : ∀ s : State, microLabel op start s = microDelayStart op wait s)
    (h2 : ∀ s' : State, s'.cfg = s.cfg → microLabel op wait s' = microDelayWait op d wait done s') :
    runTurns (promptDelay d ++ ts) s = runTurns ts ((s.sampleTime.timeStep d).goto op done) := by
  simp only [promptDelay, List.cons_append, List.nil_append]
  rw [runTurns_engine hp, h1, runTurns_time (op := op) (l := wait) (by rfl),
    runTurns_engine (op := op) (l := wait) (by rfl), h2 _ (by rfl)]
  have : d ≤ ((microDelayStart op wait s).timeStep d).waited := by
    simp only [State.waited, State.timeStep_cfg, State.timeStep_time, State.timeStep_eng, microDelayStart,
      State.goto_cfg, State.goto_time, State.goto_eng, State.sampleTime_cfg, State.sampleTime_time, State.sampleTime_eng]
    rw [elapsed_add, elapsed_self, Nat.zero_add, Nat.mod_eq_of_lt hd]
  simp only [microDelayWait, this, if_true]
  rfl

/-- The wait of a tail is long enough: after `n - waited` more microseconds at least `n` have elapsed (rules R132, R133,
R163). -/
theorem waited_after_lack {s : State} {n : Nat} (hn : n < 2 ^ s.cfg.timeBits) :
    n ≤ (s.timeStep (n - s.waited)).waited := by
  have hw : s.waited < 2 ^ s.cfg.timeBits := elapsed_lt _ _ _
  simp only [State.waited, State.timeStep_cfg, State.timeStep_time, State.timeStep_eng] at *
  rw [elapsed_add]
  by_cases h : n ≤ elapsed s.cfg s.time s.eng.t0
  · rw [Nat.sub_eq_zero_of_le h, Nat.add_zero, Nat.mod_eq_of_lt hw]; exact h
  · rw [Nat.add_sub_cancel' (by omega), Nat.mod_eq_of_lt hn]

/-- In the tail a poll loop that samples the time times out (rules R133, R149, R163). -/
theorem tailStep_clock {s : State} {op : Instr} {x : Exchange} (hp : s.eng.phase = .busy op (.clock x))
    (hs : s.stalled = false) (hb : BoundReachable s.cfg) :
    tailStep s = (s.timeStep (s.cfg.timeoutUs + 1 - s.waited)).goto op .timedOut := by
  have h := waited_after_lack (s := s) hb
  have hl : s.lack = s.cfg.timeoutUs + 1 - s.waited := by simp [State.lack, hp]
  unfold tailStep
  rw [hs, hl, if_neg (by simp), microStep_busy (op := op) (l := .clock x) (by simpa using hp)]
  exact if_pos h

/-- In the tail a settling delay ends (rules R132, R163). -/
theorem tailStep_settleWait {s : State} {op : Instr} (hp : s.eng.phase = .busy op .settleWait)
    (hs : s.stalled = false) (hb : s.cfg.readSettleUs < 2 ^ s.cfg.timeBits) :
    tailStep s = (s.timeStep (s.cfg.readSettleUs - s.waited)).goto op (.send .byte filler) := by
  have h := waited_after_lack (s := s) hb
  have hl : s.lack = s.cfg.readSettleUs - s.waited := by simp [State.lack, hp]
  unfold tailStep
  rw [hs, hl, if_neg (by simp), microStep_busy (op := op) (l := .settleWait) (by simpa using hp)]
  exact if_pos h

/-- In the tail a tail delay ends (rules R132, R163). -/
theorem tailStep_tailWait {s : State} {op : Instr} (hp : s.eng.phase = .busy op .tailWait)
    (hs : s.stalled = false) (hb : s.cfg.readTailUs < 2 ^ s.cfg.timeBits) :
    tailStep s = (s.timeStep (s.cfg.readTailUs - s.waited)).goto op (.unselect true) := by
  have h := waited_after_lack (s := s) hb
  have hl : s.lack = s.cfg.readTailUs - s.waited := by simp [State.lack, hp]
  unfold tailStep
  rw [hs, hl, if_neg (by simp), microStep_busy (op := op) (l := .tailWait) (by simpa using hp)]
  exact if_pos h

/-- Induction over the turns: what every turn of an operation under way keeps, `runTurns` keeps. -/
theorem runTurns_keeps {P : State → Prop}
    (hmicro : ∀ s op l, s.eng.phase = .busy op l → P s → P (microLabel op l s))
    (hlink : ∀ s r, P s → P (s.linkComplete r))
    (htime : ∀ s d, P s → P (s.timeStep d))
    (hsched : ∀ (s : State) ts, P s → P { s with sched := ts }) :
    ∀ ts s, P s → P (runTurns ts s)
  | [], s, h => hsched s [] h
  | t :: ts, s, h => by
    unfold runTurns
    cases hp : s.eng.phase with
    | ready => exact hsched s _ h
    | busy op l =>
      cases t with
      | stall => exact hsched s _ h
      | engine =>
        refine runTurns_keeps hmicro hlink htime hsched ts _ ?_
        simpa [agentTurn, microStep_busy hp] using hmicro s op l hp h
      | link r => exact runTurns_keeps hmicro hlink htime hsched ts _ (hlink s r h)
      | time d => exact runTurns_keeps hmicro hlink htime hsched ts _ (htime s d h)

theorem tailStep_keeps {P : State → Prop}
    (hmicro : ∀ s op l, s.eng.phase = .busy op l → P s → P (microLabel op l s))
    (htime : ∀ s d, P s → P (s.timeStep d)) {s : State} {op : Instr} {l : Label}
    (hp : s.eng.phase = .busy op l) (h : P s) : P (tailStep s) := by
  unfold tailStep
  split
  · rw [microStep_busy hp]; exact hmicro s op l hp h
  · rw [microStep_busy (s := s.timeStep s.lack) (by simpa using hp)]
    exact hmicro _ op l (by simpa using hp) (htime s _ h)

theorem runTail_keeps {P : State → Prop}
    (hmicro : ∀ s op l, s.eng.phase = .busy op l → P s → P (microLabel op l s))
    (htime : ∀ s d, P s → P (s.timeStep d)) :
    ∀ n s, P s → P (runTail n s)
  | 0, _, h => h
  | n + 1, s, h => by
    unfold runTail
    cases hp : s.eng.phase with
    | ready => exact h
    | busy op l => exact runTail_keeps hmicro htime n _ (tailStep_keeps hmicro htime hp h)

/-- The packaged induction of an operation: what holds when it starts, and every micro-step, LINK step and TIME step
keeps, holds at its response. -/
theorem complete_keeps {P : State → Prop}
    (hmicro : ∀ s op l, s.eng.phase = .busy op l → P s → P (microLabel op l s))
    (hlink : ∀ s r, P s → P (s.linkComplete r))
    (htime : ∀ s d, P s → P (s.timeStep d))
    (hsched : ∀ (s : State) ts, P s → P { s with sched := ts })
    {s t : State} (hc : complete s = .next t) (h : P s) : P t := by
  unfold complete at hc
  split at hc
  · injection hc with hc
    subst hc
    exact runTail_keeps hmicro htime _ _ (runTurns_keeps hmicro hlink htime hsched _ _ h)
  · simp at hc

/-- An operation that answers has returned to `Ready` (rule R192). -/
theorem complete_ready {s t : State} (h : complete s = .next t) : t.eng.phase = .ready := by
  unfold complete at h
  split at h
  · rename_i hp; injection h with h; exact h ▸ hp
  · simp at h

/-- An operation under way answers a next state or hangs. -/
theorem complete_next_or_hang (s : State) : (∃ t, complete s = .next t) ∨ complete s = .fault .hang := by
  unfold complete
  split
  · exact .inl ⟨_, rfl⟩
  · exact .inr rfl

theorem idleTurn_cases (s : State) :
    idleTurn s = s ∨ ∃ ts, (idleTurn s = microStep { s with sched := ts } ∨
      (∃ r, idleTurn s = ({ s with sched := ts } : State).linkComplete r) ∨
      (∃ d, idleTurn s = ({ s with sched := ts } : State).timeStep d)) := by
  unfold idleTurn
  split
  · exact .inl rfl
  · exact .inl rfl
  · rename_i t ts _ _
    cases t with
    | stall => simp_all
    | engine => exact .inr ⟨ts, .inl rfl⟩
    | link r => exact .inr ⟨ts, .inr (.inl ⟨r, rfl⟩)⟩
    | time d => exact .inr ⟨ts, .inr (.inr ⟨d, rfl⟩)⟩

/-- The packaged induction of an operation at the port: what every micro-step, LINK step, TIME step, construction,
response and opening of an operation keeps, exec keeps. -/
theorem exec_keeps {P : State → Prop}
    (hmicro : ∀ s op l, s.eng.phase = .busy op l → P s → P (microLabel op l s))
    (hlink : ∀ s r, P s → P (s.linkComplete r))
    (htime : ∀ s d, P s → P (s.timeStep d))
    (hsched : ∀ (s : State) ts, P s → P { s with sched := ts })
    (hrespond : ∀ s r, P s → P (s.respond r))
    (hopen : ∀ s i, s.eng.phase = .ready → P s → P (s.openOp i))
    (hconstruct : ∀ s h x inv, s.cfg.wf = true → s.eng.phase = .ready →
      (s.handle h).constructed = false →
      ((∃ pin, x = resolve s.cfg pin) ∨ (∃ a b, x = resolveExplicit s.cfg a b inv)) →
      P s → P (s.setHandle h ⟨true, x.bank, x.pin, x.valid, inv⟩))
    (hbegin : ∀ s h, s.eng.phase = .ready → s.eng.cur = h → (s.handle h).constructed = true → P s →
      P (s.goto (.begin h) (if (s.handle h).valid then .csDir else .badCs)))
    (hselect : ∀ s i, isTransaction i = true → s.eng.phase = .ready → s.eng.cur = i.slot →
      (s.handle i.slot).constructed = true → (s.handle i.slot).valid = true → P s → P (s.goto i .select))
    {i : Instr} {s t : State} (he : exec i s = .next t) (h : P s) : P t := by
  obtain ⟨hw, hp, ⟨_, rfl⟩ | ⟨hleg, hb⟩⟩ := exec_next_cases he
  · exact hrespond _ _ h
  have h2 := hopen s i hp h
  have hcon : (s.handle i.slot).constructed = !i.isConstructor := by
    have := (Bool.or_eq_false_iff.mp hleg).2
    cases hc : (s.handle i.slot).constructed <;> cases hi : i.isConstructor <;> simp_all
  cases htx : isTransaction i with
  | true =>
    rw [opBody_transaction htx] at hb
    split at hb
    · rename_i hv
      have hc : i.isConstructor = false := by cases i <;> first | rfl | simp [isTransaction] at htx
      rw [hc] at hcon
      exact complete_keeps hmicro hlink htime hsched hb (hselect (s.openOp i) i htx hp rfl hcon hv h2)
    · injection hb with hb; subst hb; exact hrespond _ _ h2
  | false =>
    cases i with
    | constructPin g pin =>
      injection hb with hb
      subst hb
      exact hrespond _ _ (hconstruct (s.openOp _) g _ _ hw hp hcon (.inl ⟨pin, rfl⟩) h2)
    | constructExplicit g a b inv =>
      injection hb with hb
      subst hb
      exact hrespond _ _ (hconstruct (s.openOp _) g _ _ hw hp hcon (.inr ⟨a, b, rfl⟩) h2)
    | begin g => exact complete_keeps hmicro hlink htime hsched hb (hbegin (s.openOp _) g hp rfl hcon h2)
    | isConnected g =>
      injection hb with hb
      subst hb
      exact hrespond _ _ h2
    | command g c => simp [isTransaction] at htx
    | write1 g a b => simp [isTransaction] at htx
    | writeN g a b => simp [isTransaction] at htx
    | read1 g a => simp [isTransaction] at htx
    | readN g a b => simp [isTransaction] at htx

/-- The packaged induction of a step: what exec's moves keep, and HOST's actions keep, every step keeps. -/
theorem step_keeps {P : State → Prop}
    (hmicro : ∀ s op l, s.eng.phase = .busy op l → P s → P (microLabel op l s))
    (hlink : ∀ s r, P s → P (s.linkComplete r))
    (htime : ∀ s d, P s → P (s.timeStep d))
    (hsched : ∀ (s : State) ts, P s → P { s with sched := ts })
    (hhost : ∀ (s : State) hs, P s → P { s with host := hs })
    (hcmd : ∀ (s : State) w, P s → P { s with cmd := w })
    (hfill : ∀ (s : State) (i : Fin 255) v, P s → P (s.setBuf i.val v))
    (hrespond : ∀ s r, P s → P (s.respond r))
    (hopen : ∀ s i, s.eng.phase = .ready → P s → P (s.openOp i))
    (hconstruct : ∀ s h x inv, s.cfg.wf = true → s.eng.phase = .ready →
      (s.handle h).constructed = false →
      ((∃ pin, x = resolve s.cfg pin) ∨ (∃ a b, x = resolveExplicit s.cfg a b inv)) →
      P s → P (s.setHandle h ⟨true, x.bank, x.pin, x.valid, inv⟩))
    (hbegin : ∀ s h, s.eng.phase = .ready → s.eng.cur = h → (s.handle h).constructed = true → P s →
      P (s.goto (.begin h) (if (s.handle h).valid then .csDir else .badCs)))
    (hselect : ∀ s i, isTransaction i = true → s.eng.phase = .ready → s.eng.cur = i.slot →
      (s.handle i.slot).constructed = true → (s.handle i.slot).valid = true → P s → P (s.goto i .select))
    {s t : State} (hs : step s = .next t) (h : P s) : P t := by
  obtain ⟨hw, ⟨op, l, _, hc⟩ | ⟨hp, hcase⟩⟩ := step_next_cases hs
  · exact complete_keeps hmicro hlink htime hsched hc h
  · obtain ⟨hs', rfl⟩ | ⟨i, v, hs', _, rfl⟩ | ⟨w, hs', e, _, _, rfl⟩ | ⟨w, hs', i, _, _, he⟩ := hcase
    · have h1 := hhost s hs' h
      obtain hid | ⟨ts, hid | ⟨r, hid⟩ | ⟨d, hid⟩⟩ := idleTurn_cases { s with host := hs' }
      · rw [hid]; exact h1
      · rw [hid]
        have : microStep { s with host := hs', sched := ts } = { s with host := hs', sched := ts } := by
          simp [microStep, hp]
        rw [this]; exact hsched _ ts h1
      · rw [hid]; exact hlink _ r (hsched _ ts h1)
      · rw [hid]; exact htime _ d (hsched _ ts h1)
    · exact hfill _ i v (hhost s hs' h)
    · exact hrespond _ _ (hcmd _ w (hhost s hs' h))
    · exact exec_keeps hmicro hlink htime hsched hrespond hopen hconstruct hbegin hselect he
        (hcmd _ w (hhost s hs' h))

end Sys2Proof.Machine
end

