-- ==== Sys2Proof/Tests/Slice0.lean ====
section
/-!
SUPPORT. Tests. Expected results are the spec's: the vectors V1 to V72 of 95_test_vectors.md and the formats of
30_encoding.md. First the well-formedness smoke tests, then decoding, then one step per test, then for every obligation
that has hypotheses a witness that meets them.
-/
namespace Sys2Proof.Tests
open Sys2Proof.Machine

set_option maxRecDepth 20000

/-! ### Helpers -/

/-- What a step answers, seen through `f`; `none` where it does not answer a next state. -/
def answer {α : Type} (o : Host.Outcome State Fault Refusal) (f : State → α) : Option α :=
  match o with
  | .next t => some (f t)
  | .fault _ => none
  | .refused _ => none

/-- The fault or the refusal a step stops with. -/
def stop (o : Host.Outcome State Fault Refusal) : Option (Fault ⊕ Refusal) :=
  match o with
  | .next _ => none
  | .fault f => some (.inl f)
  | .refused r => some (.inr r)

/-- The handles of 95_test_vectors.md section 1, on RS0. -/
def rs0 : State :=
  ((State.reset.setHandle 0 ⟨true, some Config.bankB, 2, true, false⟩).setHandle 1
    ⟨true, some Config.bankD, 4, true, true⟩).setHandle 2 ⟨true, none, 0, false, false⟩

/-- The registers `BEGIN 0` leaves (V58), the given link state and turns. -/
def bus (p : Spi) (ts : List Turn) : State :=
  { rs0 with busInit := true, gpioOut := [(Config.bankB, 0x04)], gpioDir := [(Config.bankB, 0x2C)], spi := p, sched := ts }

/-- The SPI registers after `BEGIN` on TP, clean. -/
def cleanSpi : Spi := ⟨0x50, false, false, true, 0x00, none, false, false⟩

/-- The answer of a link that completes the transfer before the first status read. -/
def now (r : Byte) : Answer := ⟨[], [], r⟩

/-- `s` with the word of the table's numbering issued next, stepped. -/
def run (s : State) (w : Nat) : Host.Outcome State Fault Refusal := step (s.withFetchWord 32 w)

/-! ### WellFormed: an ill-formed term for each check -/

theorem test_tp_wellFormed : Config.tp.wf = true := by decide
theorem test_wf_fBase_zero : ({ Config.tp with fBase := 0 } : Config).clocksPositive = false := by decide
theorem test_wf_fSpi_zero : ({ Config.tp with fSpi := 0 } : Config).clocksPositive = false := by decide
theorem test_wf_divider_V31 : ({ Config.tp with fSpi := 4000001 } : Config).dividerLegal = false := by decide
theorem test_wf_mask_zero_V4 :
    ({ Config.tp with pinTable := [⟨0, Config.bankA, 0x00⟩] } : Config).masksSingle = false := by decide
theorem test_wf_mask_double_V4 :
    ({ Config.tp with pinTable := [⟨0, Config.bankA, 0x18⟩] } : Config).masksSingle = false := by decide
theorem test_wf_pin_bank_unknown :
    ({ Config.tp with pinTable := [⟨0, 9, 0x01⟩] } : Config).banksKnown = false := by decide
theorem test_wf_bus_pin_bank_unknown :
    ({ Config.tp with busOutPins := [(9, 0)] } : Config).banksKnown = false := by decide
theorem test_wf_bus_pin_bit_8 :
    ({ Config.tp with busOutPins := [(Config.bankB, 8)] } : Config).banksKnown = false := by decide
theorem test_wf_ids_equal :
    ({ Config.tp with banks := [⟨0, 0x22, 0x21⟩, ⟨1, 0x23, 0x22⟩] } : Config).idsLegal = false := by decide
theorem test_wf_tokens_equal :
    ({ Config.tp with banks := [⟨0, 0x22, 0x21⟩, ⟨0, 0x25, 0x24⟩] } : Config).idsLegal = false := by decide
theorem test_wf_offset : ({ Config.tp with dirOffset := 1 } : Config).idsLegal = false := by decide
theorem test_wf_timeout : ({ Config.tp with timeBits := 6 } : Config).timesLegal = false := by decide
theorem test_wf_settle : ({ Config.tp with readSettleUs := 2 ^ 32 } : Config).timesLegal = false := by decide
theorem test_wf_tail : ({ Config.tp with readTailUs := 2 ^ 32 } : Config).timesLegal = false := by decide
theorem test_wf_no_slots : ({ Config.tp with nHandles := 0 } : Config).slotsLegal = false := by decide
theorem test_wf_seventeen_slots : ({ Config.tp with nHandles := 17 } : Config).slotsLegal = false := by decide
theorem test_wf_slot_4_of_4 : Instr.wellFormed Config.tp (.begin 4) = false := by decide
theorem test_wf_slot_3_of_4 : Instr.wellFormed Config.tp (.begin 3) = true := by decide
theorem test_step_refuses_ill_formed :
    stop (step { State.reset with cfg := { Config.tp with fSpi := 8000000 } }) = some (.inr .notAConfiguration) := by
  decide

/-! ### Decoding: words written out from the formats, and rejected words -/

theorem test_decode_constructPin : decode 0b0000_0010_11001000_00000000_00000000#32 = .ok (.constructPin 2 200) := by decide
theorem test_decode_constructExplicit :
    decode 0b0001_0001_00101011_00000100_00000001#32 = .ok (.constructExplicit 1 0x2B 4 true) := by decide
theorem test_decode_constructExplicit_plain :
    decode 0b0001_0011_00100100_00000010_00000000#32 = .ok (.constructExplicit 3 0x24 2 false) := by decide
theorem test_decode_begin : decode 0b0010_0010_00000000_00000000_00000000#32 = .ok (.begin 2) := by decide
theorem test_decode_isConnected : decode 0b0011_0011_00000000_00000000_00000000#32 = .ok (.isConnected 3) := by decide
theorem test_decode_command : decode 0b0100_0000_00000110_00000000_00000000#32 = .ok (.command 0 6) := by decide
theorem test_decode_write1 : decode 0b0101_0001_00010000_10101010_00000000#32 = .ok (.write1 1 0x10 0xAA) := by decide
theorem test_decode_writeN_V47 : decode 0x607FFF00#32 = .ok (.writeN 0 0x7F 255) := by decide
theorem test_decode_read1 : decode 0b0111_0010_00010000_00000000_00000000#32 = .ok (.read1 2 0x10) := by decide
theorem test_decode_readN : decode 0b1000_0000_00010000_00000011_00000000#32 = .ok (.readN 0 0x10 3) := by decide
theorem test_decode_reserved_op_V45 :
    decode 0x90000000#32 = .error .reservedOp ∧ decode 0xF0000000#32 = .error .reservedOp ∧
    decode 0xFFFFFFFF#32 = .error .reservedOp := by decide
theorem test_decode_unused_field_V46 :
    decode 0x20000001#32 = .error .unusedField ∧ decode 0x30010000#32 = .error .unusedField ∧
    decode 0x40060100#32 = .error .unusedField ∧ decode 0x5010AA01#32 = .error .unusedField ∧
    decode 0x13260202#32 = .error .unusedField := by decide
theorem test_encode_words :
    encode (.constructExplicit 1 0x2B 4 true) = 0x112B0401#32 ∧ encode (.write1 0 0x10 0xAA) = 0x5010AA00#32 ∧
    encode (.readN 0 0x10 2) = 0x80100200#32 := by decide

/-! ### Resolver, divider, command bytes -/

theorem test_bitIndex_V1_V3_S1 :
    bitIndex 0x01 = some 0 ∧ bitIndex 0x80 = some 7 ∧ bitIndex 0x10 = some 4 := by decide
theorem test_resolve_V6_V7 :
    resolve Config.tp 7 = ⟨some Config.bankD, 7, true⟩ ∧ resolve Config.tp 8 = ⟨some Config.bankB, 0, true⟩ ∧
    resolve Config.tp 19 = ⟨some Config.bankC, 5, true⟩ ∧ resolve Config.tp 20 = ⟨none, 0, false⟩ := by decide
theorem test_validate_V8_V12 :
    validate Config.tp 0x2B 0x2A 7 true = true ∧ validate Config.tp 0x26 0x25 2 false = false ∧
    validate Config.tp 0x25 0x24 8 false = false ∧ validate Config.tp 0x25 0x21 2 false = false ∧
    validate Config.tp 0x24 0x25 2 false = false := by decide
theorem test_divider_V19_V28 :
    (busFields Config.tp, ctrlWord Config.tp, statusWord Config.tp) = (⟨true, 0⟩, 0x50, 0x01) ∧
    (let c := { Config.tp with fSpi := 2500000 }; (busFields c, ctrlWord c, statusWord c) = (⟨false, 0⟩, 0x50, 0x00)) ∧
    (let c := { Config.tp with fSpi := 400000 }; (busFields c, ctrlWord c, statusWord c) = (⟨true, 2⟩, 0x52, 0x01)) ∧
    (let c := { Config.tp with fSpi := 100000 }; (busFields c, ctrlWord c, statusWord c) = (⟨false, 3⟩, 0x53, 0x00)) := by
  decide
theorem test_ctrlWord_modes :
    ctrlWord { Config.tp with cpha := true } = 0x54 ∧ ctrlWord { Config.tp with cpol := true } = 0x58 ∧
    ctrlWord { Config.tp with lsbFirst := true } = 0x70 ∧
    ctrlWord { Config.tp with lsbFirst := true, cpol := true, cpha := true, fSpi := 1000 } = 0x7F := by decide
theorem test_commandBytes_V33_V40 :
    writeCmd 0x10 false = 0x10 ∧ readCmd 0x10 false = 0x90 ∧ writeCmd 0x10 true = 0x90 ∧ readCmd 0x10 true = 0x10 ∧
    writeCmd 0xFF false = 0x7F ∧ readCmd 0x7F false = 0xFF ∧ readCmd 0x00 true = 0x00 := by decide

/-! ### One step: at most two tests per instruction -/

theorem test_constructPin_V17 :
    answer (run State.reset 0x000A0000) (fun t => (t.handle 0, t.rsp)) =
      some (⟨true, some Config.bankB, 2, true, false⟩, 0x200) := by decide
theorem test_constructPin_V18 :
    answer (run State.reset 0x02C80000) (fun t => (t.handle 2, t.rsp, t.diag)) =
      some (⟨true, none, 0, false, false⟩, 0x200, []) := by decide
theorem test_constructExplicit_V16 :
    answer (run State.reset 0x112B0401) (fun t => (t.handle 1, t.rsp)) =
      some (⟨true, some Config.bankD, 4, true, true⟩, 0x200) := by decide
theorem test_constructExplicit_V15 :
    answer (run State.reset 0x122B0800) (fun t => (t.handle 2, t.rsp)) =
      some (⟨true, some Config.bankD, 8, false, false⟩, 0x200) := by decide
theorem test_begin_V58 :
    answer (run rs0 0x20000000) (fun t => (t.gpioDir, t.gpioOut, t.trace)) =
      some ([(Config.bankB, 0x2C)], [(Config.bankB, 0x04)], [.csHigh 0]) ∧
    answer (run rs0 0x20000000) (fun t => (t.spi.ctrl, t.spi.status, t.busInit, t.rsp)) =
      some (0x50, 0x01, true, 0x200) := by decide
theorem test_begin_V61 :
    answer (run rs0 0x22000000) (fun t => (t.diag, t.gpioDir, t.spi, t.busInit, t.rsp)) =
      some ([.badCs], [], Spi.reset, false, 0x200) := by decide
theorem test_isConnected_V16 : answer (run rs0 0x31000000) (·.rsp) = some 0x100 := by decide
theorem test_isConnected_P2 : answer (run rs0 0x32000000) (·.rsp) = some 0x000 := by decide
theorem test_command_V63 :
    answer (run (bus cleanSpi (promptTurns Config.tp (.command 0 0x06) [now 0xFF])) 0x40060000) (fun t => (t.rsp, t.trace, t.spi, t.gpioOut)) =
      some (0x100, [.csLow 0, .start 0x06, .done 0x06 0xFF, .csHigh 0], { cleanSpi with rxd := 0xFF },
        [(Config.bankB, 0x04)]) := by decide
theorem test_command_collision_V63 :
    answer (run (bus { cleanSpi with xfer := some 0x06 } []) 0x40060000) (fun t => (t.rsp, t.trace, t.spi.armColl, t.diag)) =
      some (0x000, [.csLow 0, .collide 0x06, .csHigh 0], true, []) := by decide
theorem test_write1_V64 :
    answer (run (bus cleanSpi (promptTurns Config.tp (.write1 1 0x10 0xAA) [now 0x00, now 0x00])) 0x5110AA00) (fun t => (t.rsp, t.trace, t.gpioOut)) =
      some (0x100, [.csLow 1, .start 0x90, .done 0x90 0x00, .start 0xAA, .done 0xAA 0x00, .csHigh 1],
        [(Config.bankB, 0x04), (Config.bankD, 0x10)]) := by decide
theorem test_writeN_V65 :
    answer (run { bus cleanSpi (answeredTurns Config.tp (.writeN 0 0x10 3) [now 0x00, now 0x00]) with
        buf := [(0, 0x01), (1, 0x02), (2, 0x03)] } 0x60100300) (fun t => (t.rsp, t.trace, t.spi.xfer, t.diag)) =
      some (0x000, [.csLow 0, .start 0x10, .done 0x10 0x00, .start 0x01, .done 0x01 0x00, .start 0x02, .csHigh 0],
        some 0x02, [.timeout]) := by decide
theorem test_writeN_V70 :
    answer (run (bus cleanSpi (promptTurns Config.tp (.writeN 0 0x10 0) [now 0x00])) 0x60100000) (fun t => (t.rsp, t.trace)) =
      some (0x100, [.csLow 0, .start 0x10, .done 0x10 0x00, .csHigh 0]) := by decide
theorem test_read1_V66 :
    answer (run (bus cleanSpi (promptTurns Config.tp (.read1 0 0x10) [now 0x00, now 0x5A])) 0x70100000) (fun t => (t.rsp, t.trace, t.time)) =
      some (0x25A, [.csLow 0, .start 0x90, .done 0x90 0x00, .start 0x00, .done 0x00 0x5A, .csHigh 0], 1006) := by decide
theorem test_read1_V67 :
    answer (run (bus cleanSpi []) 0x70100000) (fun t => (t.rsp, t.trace, t.diag)) =
      some (0x2FF, [.csLow 0, .start 0x90, .csHigh 0], [.timeout]) := by decide
theorem test_readN_V68 :
    answer (run (bus cleanSpi (promptTurns Config.tp (.readN 0 0x10 2) [now 0x00, now 0xAA, now 0x55])) 0x80100200) (fun t => (t.rsp, t.buf)) =
      some (0x100, [(0, 0xAA), (1, 0x55)]) := by decide
/-- The collision at byte 1 comes of a stale completion: byte 0 takes 0xAA and leaves its own transfer in flight. -/
theorem test_readN_V69 :
    answer (run { bus { cleanSpi with done := true } (List.replicate 5 .engine ++ [.link 0xAA]) with
        buf := [(0, 0x11), (1, 0x22), (2, 0x33)] } 0x80100300) (fun t => (t.rsp, t.buf, t.diag, t.spi.coll)) =
      some (0x000, [(0, 0xAA), (1, 0x22), (2, 0x33)], [], true) := by decide

/-! ### The micro-steps of one exchange and of a delay -/

theorem test_timeout_wrap_V56 :
    elapsed Config.tp 0x00000010 0xFFFFFFF0 = 32 ∧ elapsed Config.tp 0x00000055 0xFFFFFFF0 = 101 := by decide
theorem test_completion_within_the_bound_V48 :
    answer (run (bus cleanSpi (promptTurns Config.tp (.command 0 0x90) [⟨[3, 4], [], 0x3C⟩])) 0x40900000)
      (fun t => (t.rsp, t.spi.rxd, t.diag, t.trace)) =
      some (0x100, 0x3C, [], [.csLow 0, .start 0x90, .done 0x90 0x3C, .csHigh 0]) := by decide
theorem test_completion_past_the_bound_but_not_sampled_V50 :
    answer (run (bus cleanSpi (promptTurns Config.tp (.command 0 0x90) [⟨[40, 60], [400], 0x3C⟩])) 0x40900000)
      (fun t => (t.rsp, t.spi.rxd, t.diag, t.time)) = some (0x100, 0x3C, [], 1500) := by decide
theorem test_delay_wrap_V57 :
    elapsed Config.tp 0x00000002 0xFFFFFFFE = 4 ∧ elapsed Config.tp 0x00000003 0xFFFFFFFE = 5 := by decide
theorem test_stale_done_V54 :
    ({ cleanSpi with done := true, rxd := 0x77 } : Spi).writeData 0x90 =
      { cleanSpi with done := true, rxd := 0x77, xfer := some 0x90 } := by decide
theorem test_collision_keeps_transfer_V52 :
    (({ cleanSpi with xfer := some 0x06 } : Spi).writeData 0x05).arm =
      { cleanSpi with xfer := some 0x06, coll := true, armColl := true } := by decide
theorem test_ignored_write_V55 : Spi.reset.writeData 0x90 = Spi.reset := by decide
theorem test_memory_write_keeps_form :
    Memory.write [(1, 0x04), (3, 0x10)] 2 0x2C = [(1, 0x04), (2, 0x2C), (3, 0x10)] ∧
    Memory.write [(1, 0x04), (3, 0x10)] 1 0x00 = [(3, 0x10)] := by decide

/-! ### Witnesses: for every obligation with hypotheses, a concrete state and operands that meet them all -/

/-- HOST's next action is the given word. -/
def issuing (s : State) (w : Word) : State := { s with host := [.issue w] }

/-- `COMMAND 0, 0x06` under way, its byte in flight and its next micro-step the one named. -/
def underWay (l : Label) : State :=
  { bus { cleanSpi with xfer := some 0x06 } [.link 0xFF] with
    gpioOut := [], eng := ⟨.busy (.command 0 0x06) l, .selected 0, 0, 1000, 0, none⟩ }

/-- Its next micro-step is the status read. -/
abbrev polling : State := underWay (.poll .cmd)

/-- Rule R189: with TIME stalled and nothing to see, the poll never ends. -/
theorem test_stalled_poll_hangs : stop (step { polling with sched := [.stall] }) = some (.inl .hang) := by decide

/-- A configuration with the ratio `q = floor(F_BASE / F_SPI)`. -/
def ratio (q : Nat) : Config := { Config.tp with fBase := q, fSpi := 1 }

theorem rs0_handlesSound : HandlesSound rs0 := by
  intro h hc
  have hh : h = 0 ∨ h = 1 ∨ h = 2 := by revert h; decide
  rcases hh with rfl | rfl | rfl
  · refine ⟨by decide, fun k hk => ?_⟩
    have : some Config.bankB = some k := hk
    injection this with this; subst this; decide
  · refine ⟨by decide, fun k hk => ?_⟩
    have : some Config.bankD = some k := hk
    injection this with this; subst this; decide
  · refine ⟨by decide, fun k hk => ?_⟩
    have : (none : Option Nat) = some k := hk
    cases this

theorem rs0_programmed (w : Word) : BusProgrammed (issuing rs0 w) :=
  ⟨(fun h => by cases h), fun _ => ⟨rfl, (fun _ h => by cases h), fun _ => rfl⟩⟩

theorem polling_programmed : BusProgrammed polling :=
  ⟨fun _ => ⟨by decide, by decide, (fun _ _ h => by injection h with _ h; subst h; rfl)⟩, fun h => by cases h⟩

theorem polling_paired : SelectionPaired polling :=
  ⟨rfl, ⟨Config.bankB, 2, rfl, rfl, rfl, by decide⟩, by decide⟩

theorem bus_drives (p : Spi) (ts : List Turn) : Drives (bus p ts) 0 Config.bankB 2 := ⟨rfl, rfl, rfl, by decide⟩

theorem bus_canonical (p : Spi) (ts : List Turn) : MemoryCanonical (bus p ts) := ⟨rfl, rfl, rfl⟩

theorem cleanSpi_clean : cleanSpi.Clean := ⟨rfl, rfl, rfl, rfl, rfl⟩

theorem cleanSpi_running : cleanSpi.Running := by unfold Spi.Running; decide

theorem witness_EncodeOfDecodeIsWord : decode 0x60100300#32 = .ok (.writeN 0 0x10 3) := by decide

theorem witness_StepRunsTheDecodedOperation :
    (issuing rs0 0x31000000).cfg.wf = true ∧ (issuing rs0 0x31000000).eng.phase = .ready ∧
    (issuing rs0 0x31000000).host = .issue 0x31000000 :: [] ∧ decode 0x31000000#32 = .ok (.isConnected 1) := by decide

theorem witness_StepRuns_fill : ∀ a ∈ [HostAct.fill 0 0x00, .fill 254 0xAA],
    ({ rs0 with host := [a] } : State).cfg.wf = true ∧ ({ rs0 with host := [a] } : State).eng.phase = .ready ∧
    MemoryCanonical { rs0 with host := [a] } := by unfold MemoryCanonical; decide
theorem witness_StepRuns_waits : ∀ hs ∈ [[HostAct.wait], []],
    ∀ ts ∈ [[], [Turn.stall], [.engine], [.link 0x3C], [.time 0], [.time 4294967295]],
    ∀ s : State, s = { polling with eng := Eng.reset, host := hs, sched := ts } →
      s.cfg.wf = true ∧ s.eng.phase = .ready ∧ (s.host = .wait :: [] ∨ s.host = [] ∧ s.host.tail = []) ∧
      s.sched = ts ∧ s.spi.xfer = some 0x06 := by
  intro hs hh ts _ s e; subst e
  refine ⟨(by decide : Config.tp.wf = true), rfl, ?_, rfl, rfl⟩
  rcases List.mem_cons.1 hh with h | h
  · exact .inl h
  · exact .inr ⟨by simpa using h, by simp [List.mem_singleton.1 h]⟩
theorem witness_StepRuns_nothing_in_flight :
    ({ rs0 with host := [.wait], sched := [.link 0x3C] } : State).cfg.wf = true ∧ rs0.eng.phase = .ready ∧
    rs0.spi.xfer = none := by decide

theorem witness_IllegalWordWritesOnlyTheResponse (w : Word) :
    (issuing rs0 w).cfg.wf = true ∧ (issuing rs0 w).eng.phase = .ready ∧ (issuing rs0 w).host = .issue w :: [] :=
  ⟨(show rs0.cfg.wf = true by decide), rfl, rfl⟩
theorem witness_IllegalWord_a : IllegalWord (issuing rs0 0x90000000) 0x90000000 ∧
    IllegalWord (issuing rs0 0xF0000000) 0xF0000000 :=
  ⟨.inl (by decide), .inl (by decide)⟩
theorem witness_IllegalWord_b : IllegalWord (issuing rs0 0x24000000) 0x24000000 := .inr (.inl (by decide))
theorem witness_IllegalWord_c : IllegalWord (issuing rs0 0x20000001) 0x20000001 :=
  .inr (.inr (.inl (show fieldA 0x20000001#32 ≠ 0 ∨ fieldB 0x20000001#32 ≠ 0 ∨ fieldC 0x20000001#32 ≠ 0 by decide)))
theorem witness_IllegalWord_d : IllegalWord (issuing rs0 0x000B0000) 0x000B0000 := .inr (.inr (.inr (.inl (by decide))))
theorem witness_IllegalWord_e : IllegalWord (issuing rs0 0x23000000) 0x23000000 := .inr (.inr (.inr (.inr (by decide))))
theorem witness_IllegalWord_none : ¬ IllegalWord (issuing rs0 0x31000000) 0x31000000 := by
  rintro (h | h | h | h | h)
  · revert h; decide
  · revert h; decide
  · have h : fieldA 0x31000000#32 ≠ 0 ∨ fieldB 0x31000000#32 ≠ 0 ∨ fieldC 0x31000000#32 ≠ 0 := h
    revert h; decide
  · revert h; decide
  · revert h; decide

theorem witness_IllFormedConfigurationIsRefused : ({ State.reset with cfg := ratio 3 } : State).cfg.wf = false := by decide

theorem witness_BusyPortRefusesASecondOperation :
    polling.cfg.wf = true ∧ polling.eng.phase = .busy (.command 0 0x06) (.poll .cmd) := by decide

theorem witness_ConstructPin_unmapped : Accepts State.reset (.constructPin 0 20) ∧
    (State.reset.cfg.pinTable.find? fun e => e.pin == 20) = none := by unfold Accepts; decide
theorem witness_ConstructPin_mapped : Accepts State.reset (.constructPin 3 19) ∧
    (State.reset.cfg.pinTable.find? fun e => e.pin == 19) = some ⟨19, Config.bankC, 0x20⟩ := by unfold Accepts; decide
theorem witness_ConstructPin_first : Accepts State.reset (.constructPin 0 0) ∧
    (State.reset.cfg.pinTable.find? fun e => e.pin == 0) = some ⟨0, Config.bankD, 0x01⟩ := by unfold Accepts; decide

theorem witness_ConstructExplicit_named (invert : Bool) : Accepts State.reset (.constructExplicit 0 0x2B 7 invert) ∧
    Accepts State.reset (.constructExplicit 0 0x2B 8 invert) ∧ ∃ k ∈ State.reset.cfg.banks, k.outId = 0x2B := by
  unfold Accepts; cases invert <;> decide
theorem witness_ConstructExplicit_unnamed : Accepts State.reset (.constructExplicit 0 0x26 2 true) ∧
    ∀ k ∈ State.reset.cfg.banks, k.outId ≠ 0x26 := by unfold Accepts; decide

theorem witness_IsConnectedAnswersTheValidity : Accepts rs0 (.isConnected 1) ∧ Accepts rs0 (.isConnected 2) := by
  unfold Accepts; decide

theorem witness_FailedValidation_register : Accepts State.reset (.constructExplicit 3 0x26 2 true) ∧
    (∀ k ∈ State.reset.cfg.banks, k.outId ≠ 0x26) ∧
    ∃ t, exec (.constructExplicit 3 0x26 2 true) State.reset = .next t :=
  ⟨by unfold Accepts; decide, by decide, _, rfl⟩
theorem witness_FailedValidation_index : Accepts State.reset (.constructExplicit 2 0x2B 8 false) ∧
    8 ≤ (8 : Byte).toNat ∧ ∃ t, exec (.constructExplicit 2 0x2B 8 false) State.reset = .next t :=
  ⟨by unfold Accepts; decide, by decide, _, rfl⟩

theorem witness_ConstructedHandleNeverChanges :
    (rs0.handle 0).constructed = true ∧ ∃ t, step (issuing rs0 0x130A0000) = .next t := ⟨by decide, _, rfl⟩

theorem witness_StepKeepsHandlesSound :
    HandlesSound (issuing rs0 0x030A0000) ∧ ∃ t, step (issuing rs0 0x030A0000) = .next t := ⟨rs0_handlesSound, _, rfl⟩

theorem witness_PositionIsTheCeilingLogarithm :
    (2 ≤ 2 ∧ 2 ^ 1 ≤ 2 ∧ 2 < 2 ^ (1 + 1)) ∧ (2 ≤ 3 ∧ 2 ^ 1 ≤ 3 ∧ 3 < 2 ^ (1 + 1)) ∧
    (2 ≤ 8000 ∧ 2 ^ 12 ≤ 8000 ∧ 8000 < 2 ^ (12 + 1)) := by decide

theorem witness_DividerFieldsFollowThePosition :
    (1 ≤ 7 ∧ 7 ≤ 7) ∧ (1 ≤ 1 ∧ 1 < 7 ∧ (divFields 1).dbl = true) ∧ (1 ≤ 6 ∧ 6 < 7 ∧ (divFields 6).dbl = false) := by decide

theorem witness_DividerFollowsTheTable :
    [3, 4, 5, 6, 9, 10, 17, 18, 33, 34, 65, 66, 129, 130].map (fun q => (ratio q).fBase / (ratio q).fSpi) =
      [3, 4, 5, 6, 9, 10, 17, 18, 33, 34, 65, 66, 129, 130] ∧
    Config.tp.fBase = 16000000 ∧ Config.tp.fSpi = 4000000 := by decide

theorem witness_FirstBeginProgramsTheBus :
    Accepts rs0 (.begin 0) ∧ Drives rs0 0 Config.bankB 2 ∧ rs0.busInit = false ∧ MemoryCanonical rs0 ∧
    LinkSilent rs0.sched :=
  ⟨by unfold Accepts; decide, ⟨rfl, rfl, rfl, by decide⟩, rfl, ⟨rfl, rfl, rfl⟩, fun _ h => by cases h⟩

theorem witness_LaterBeginTouchesOnlyItsPin :
    Accepts (bus cleanSpi []) (.begin 1) ∧ Drives (bus cleanSpi []) 1 Config.bankD 4 ∧
    (bus cleanSpi []).busInit = true ∧ MemoryCanonical (bus cleanSpi []) ∧ LinkSilent (bus cleanSpi []).sched :=
  ⟨by unfold Accepts; decide, ⟨rfl, rfl, rfl, by decide⟩, rfl, bus_canonical _ _, fun _ h => by cases h⟩

theorem witness_BeginOnAnInvalidHandleEmitsBadCs :
    Accepts rs0 (.begin 2) ∧ (rs0.handle 2).valid = false ∧ LinkSilent rs0.sched ∧
    ∃ t, exec (.begin 2) rs0 = .next t ∧ t.diag = rs0.diag ++ [.badCs] :=
  ⟨by unfold Accepts; decide, by decide, (fun _ h => by cases h), _, rfl, by decide⟩

theorem witness_StepKeepsBusProgrammed :
    BusProgrammed (issuing rs0 0x20000000) ∧ ∃ t, step (issuing rs0 0x20000000) = .next t :=
  ⟨rs0_programmed _, _, rfl⟩

theorem witness_InitialisedBusIsNeverReprogrammed :
    BusProgrammed polling ∧ polling.busInit = true ∧ ∃ t, step polling = .next t := ⟨polling_programmed, rfl, _, rfl⟩

theorem witness_OnlyBeginInitialisesTheBus :
    ∃ t, exec (.begin 0) rs0 = .next t ∧ rs0.busInit = false ∧ t.busInit = true := ⟨_, rfl, rfl, by decide⟩

theorem witness_DataWrite_ignored : Spi.reset.enabled = false ∨ Spi.reset.master = false := by decide
theorem witness_DataWrite_starts : cleanSpi.Running ∧ cleanSpi.xfer = none := ⟨cleanSpi_running, rfl⟩
theorem witness_DataWrite_collides : polling.spi.Running ∧ polling.spi.xfer = some 0x06 := by
  unfold Spi.Running; decide

theorem witness_LinkCompleteEndsTheTransfer : polling.spi.xfer = some 0x06 ∧ rs0.spi.xfer = none := by decide

theorem witness_PollTestsCollisionThenCompletion : polling.eng.phase = .busy (.command 0 0x06) (.poll .cmd) := rfl

/-- The samples of V49 (100 and 101 microseconds) and of V56, across a wrap of the counter (32 and 101). -/
theorem witness_Timeout : ∀ x ∈ [(1000, 1100, 100), (1000, 1101, 101), (0xFFFFFFF0, 0x10, 32), (0xFFFFFFF0, 0x55, 101)],
    ∀ s : State, s = { underWay (.clock .cmd) with
        eng := ⟨.busy (.command 0 0x06) (.clock .cmd), .selected 0, 0, x.1, 0, none⟩, time := x.2.1 } →
      s.eng.phase = .busy (.command 0 0x06) (.clock .cmd) ∧ s.eng.t0 < 2 ^ s.cfg.timeBits ∧
      x.2.2 < 2 ^ s.cfg.timeBits ∧ s.time = (s.eng.t0 + x.2.2) % 2 ^ s.cfg.timeBits ∧
      (s.cfg.timeoutUs < x.2.2 ↔ x.2.2 = 101) := by
  intro x hx s e; subst e
  show _ ∧ x.1 < 2 ^ 32 ∧ x.2.2 < 2 ^ 32 ∧ x.2.1 = (x.1 + x.2.2) % 2 ^ 32 ∧ (100 < x.2.2 ↔ x.2.2 = 101)
  exact ⟨rfl, by revert x; decide⟩

theorem witness_Delay_settle (s : State) (hs : s = { underWay .settleWait with time := 1005 }) :
    s.eng.t0 < 2 ^ s.cfg.timeBits ∧ 5 < 2 ^ s.cfg.timeBits ∧ s.time = (s.eng.t0 + 5) % 2 ^ s.cfg.timeBits ∧
    s.eng.phase = .busy (.command 0 0x06) .settleWait := by subst hs; decide
theorem witness_Delay_tail (s : State) (hs : s = { underWay .tailWait with time := 1000 }) :
    s.eng.t0 < 2 ^ s.cfg.timeBits ∧ 0 < 2 ^ s.cfg.timeBits ∧ s.time = (s.eng.t0 + 0) % 2 ^ s.cfg.timeBits ∧
    s.eng.phase = .busy (.command 0 0x06) .tailWait := by subst hs; decide

/-- The premises all the transactions on a clean, running link share. -/
theorem bus_ready (ts : List Turn) : Drives (bus cleanSpi ts) 0 Config.bankB 2 ∧ MemoryCanonical (bus cleanSpi ts) ∧
    (bus cleanSpi ts).spi.Clean ∧ (bus cleanSpi ts).spi.Running :=
  ⟨bus_drives _ _, bus_canonical _ _, cleanSpi_clean, cleanSpi_running⟩

/-- The operation is accepted whatever the link and the turns. -/
theorem bus_accepts {op : Instr} (h : Accepts rs0 op) (p : Spi) (ts : List Turn) : Accepts (bus p ts) op := h

/-- All the premises of a statement about a prompt link, the answers' own apart. -/
def PromptPremises (s : State) (op : Instr) (ts rest : List Turn) : Prop :=
  Accepts s op ∧ Drives s op.slot Config.bankB 2 ∧ MemoryCanonical s ∧ s.spi.Clean ∧ s.spi.Running ∧
  s.sched = ts ++ rest

theorem bus_premises {op : Instr} (h : Accepts rs0 op) (h0 : op.slot = 0) (ts rest : List Turn) :
    PromptPremises (bus cleanSpi (ts ++ rest)) op ts rest :=
  ⟨bus_accepts h _ _, h0 ▸ bus_drives _ _, bus_canonical _ _, cleanSpi_clean, cleanSpi_running, rfl⟩

/-- V50's answer: two flagless rounds, the second at the bound itself; TIME passes the bound before the status read. -/
def atBound : Answer := ⟨[40, 60], [400], 0x3C⟩

theorem answers_inTime (ts : List Turn) : ∀ x ∈ [now 0x00, now 0xFF, atBound], x.InTime (bus cleanSpi ts).cfg := by
  show ∀ x ∈ [now 0x00, now 0xFF, atBound], x.waits.sum ≤ 100
  decide

theorem witness_CommandSucceedsOnAPromptLink (ts : List Turn)
    (ht : ts = promptTurns Config.tp (.command 0 0x06) [atBound]) :
    PromptPremises (bus cleanSpi (ts ++ [])) (.command 0 0x06) ts [] ∧ atBound.InTime (bus cleanSpi (ts ++ [])).cfg ∧
    ts = promptTurns (bus cleanSpi (ts ++ [])).cfg (.command 0 0x06) [atBound] :=
  ⟨bus_premises (by unfold Accepts; decide) rfl _ _, answers_inTime _ _ (by decide), ht⟩
theorem witness_Write1SucceedsOnAPromptLink (ts : List Turn)
    (ht : ts = promptTurns Config.tp (.write1 0 0x10 0xAA) [atBound, now 0xFF]) :
    PromptPremises (bus cleanSpi (ts ++ [.stall])) (.write1 0 0x10 0xAA) ts [.stall] ∧
    atBound.InTime (bus cleanSpi (ts ++ [.stall])).cfg ∧ (now 0xFF).InTime (bus cleanSpi (ts ++ [.stall])).cfg ∧
    ts = promptTurns (bus cleanSpi (ts ++ [.stall])).cfg (.write1 0 0x10 0xAA) [atBound, now 0xFF] :=
  ⟨bus_premises (by unfold Accepts; decide) rfl _ _, answers_inTime _ _ (by decide), answers_inTime _ _ (by decide), ht⟩
theorem witness_WriteNSucceedsOnAPromptLink (len : Byte) (hl : len = 0 ∨ len = 2 ∨ len = 255) (as : List Answer)
    (ha : as = List.replicate len.toNat atBound) (ts : List Turn)
    (ht : ts = promptTurns Config.tp (.writeN 0 0x10 len) (now 0x00 :: as)) :
    as.length = len.toNat ∧ (∀ x ∈ now 0x00 :: as, x.InTime (bus cleanSpi (ts ++ [])).cfg) ∧
    PromptPremises (bus cleanSpi (ts ++ [])) (.writeN 0 0x10 len) ts [] ∧
    ts = promptTurns (bus cleanSpi (ts ++ [])).cfg (.writeN 0 0x10 len) (now 0x00 :: as) := by
  refine ⟨by simp [ha], fun x hx => answers_inTime _ _ ?_,
    bus_premises (by rcases hl with rfl | rfl | rfl <;> (unfold Accepts; decide)) rfl _ _, ht⟩
  rcases List.mem_cons.1 hx with rfl | hx
  · decide
  · rw [ha] at hx; rw [List.eq_of_mem_replicate hx]; decide
theorem witness_Read1SucceedsOnAPromptLink (ts : List Turn)
    (ht : ts = promptTurns Config.tp (.read1 0 0x10) [now 0x00, atBound]) :
    PromptPremises (bus cleanSpi (ts ++ [])) (.read1 0 0x10) ts [] ∧
    (now 0x00).InTime (bus cleanSpi (ts ++ [])).cfg ∧ atBound.InTime (bus cleanSpi (ts ++ [])).cfg ∧
    ts = promptTurns (bus cleanSpi (ts ++ [])).cfg (.read1 0 0x10) [now 0x00, atBound] :=
  ⟨bus_premises (by unfold Accepts; decide) rfl _ _, answers_inTime _ _ (by decide), answers_inTime _ _ (by decide), ht⟩
theorem witness_ReadNSucceedsOnAPromptLink (len : Byte) (hl : len = 0 ∨ len = 2 ∨ len = 255) (as : List Answer)
    (ha : as = List.replicate len.toNat atBound) (ts : List Turn)
    (ht : ts = promptTurns Config.tp (.readN 0 0x10 len) (now 0x00 :: as)) :
    as.length = len.toNat ∧ (∀ x ∈ now 0x00 :: as, x.InTime (bus cleanSpi (ts ++ [])).cfg) ∧
    PromptPremises (bus cleanSpi (ts ++ [])) (.readN 0 0x10 len) ts [] ∧
    ts = promptTurns (bus cleanSpi (ts ++ [])).cfg (.readN 0 0x10 len) (now 0x00 :: as) := by
  refine ⟨by simp [ha], fun x hx => answers_inTime _ _ ?_,
    bus_premises (by rcases hl with rfl | rfl | rfl <;> (unfold Accepts; decide)) rfl _ _, ht⟩
  rcases List.mem_cons.1 hx with rfl | hx
  · decide
  · rw [ha] at hx; rw [List.eq_of_mem_replicate hx]; decide

theorem witness_InvalidHandleIsRefused : ∀ op ∈ [Instr.command 2 0x06, .write1 2 0x10 0xAA, .writeN 2 0x10 2,
      .read1 2 0x10, .readN 2 0x10 2],
    isTransaction op = true ∧ Accepts rs0 op ∧ (rs0.handle op.slot).valid = false := by unfold Accepts; decide

theorem witness_SilentLinkEndsInOneTimeout : ∀ op ∈ [Instr.command 0 0x06, .write1 0 0x10 0xAA, .writeN 0 0x10 255,
      .read1 0 0x10, .readN 0 0x10 0],
    isTransaction op = true ∧ Accepts (bus cleanSpi []) op ∧ Drives (bus cleanSpi []) op.slot Config.bankB 2 ∧
    MemoryCanonical (bus cleanSpi []) ∧ (bus cleanSpi []).spi.Clean ∧ LinkSilent (bus cleanSpi []).sched ∧
    Fair (bus cleanSpi []).sched ∧ BoundReachable (bus cleanSpi []).cfg := by
  intro op hop
  have h : isTransaction op = true ∧ op.slot = 0 ∧ Accepts (bus cleanSpi []) op := by
    revert op; unfold Accepts; decide
  exact ⟨h.1, h.2.2, h.2.1 ▸ bus_drives _ _, bus_canonical _ _, cleanSpi_clean, (fun _ h => by cases h),
    (fun h => by cases h), by unfold BoundReachable; decide⟩
theorem witness_SilentLink_bus_not_initialised : Accepts rs0 (.command 0 0x06) ∧ Drives rs0 0 Config.bankB 2 ∧
    MemoryCanonical rs0 ∧ rs0.spi.Clean ∧ LinkSilent rs0.sched ∧ Fair rs0.sched ∧ BoundReachable rs0.cfg :=
  ⟨by unfold Accepts; decide, ⟨rfl, rfl, rfl, by decide⟩, ⟨rfl, rfl, rfl⟩, ⟨rfl, rfl, rfl, rfl, rfl⟩,
    (fun _ h => by cases h), (fun h => by cases h), by unfold BoundReachable; decide⟩

theorem witness_HeldTransferMakesEveryTransactionCollide (s : State)
    (hs : s = bus { cleanSpi with xfer := some 0x06 } [.stall]) :
    Accepts s (.command 0 0x05) ∧ Drives s 0 Config.bankB 2 ∧ MemoryCanonical s ∧ s.spi.Held ∧ LinkSilent s.sched := by
  subst hs
  refine ⟨bus_accepts (by unfold Accepts; decide) _ _, bus_drives _ _, bus_canonical _ _, ?_, fun r h => ?_⟩
  · unfold Spi.Held Spi.Running; decide
  · have : Turn.link r ∈ [Turn.stall] := h
    simp at this

theorem witness_StaleCompletionAnswersForAnotherByte (s : State)
    (hs : s = bus { cleanSpi with done := true, rxd := 0x77 } []) :
    Accepts s (.command 0 0x90) ∧ Drives s 0 Config.bankB 2 ∧ MemoryCanonical s ∧ s.spi.Running ∧ s.spi.xfer = none ∧
    s.spi.done = true ∧ s.spi.armDone = false ∧ s.spi.coll = false ∧ LinkSilent s.sched := by
  subst hs
  exact ⟨bus_accepts (by unfold Accepts; decide) _ _, bus_drives _ _, bus_canonical _ _,
    by unfold Spi.Running; decide, rfl, rfl, rfl, rfl, fun _ h => by cases h⟩

/-- A transaction that collides: selected, one collision, deselected. -/
theorem witness_SelectionAlwaysPairs (s : State) (hs : s = bus { cleanSpi with xfer := some 0x06 } []) :
    isTransaction (.write1 0 0x10 0xAA) = true ∧ Accepts s (.write1 0 0x10 0xAA) ∧ Drives s 0 Config.bankB 2 ∧
    ∃ t, exec (.write1 0 0x10 0xAA) s = .next t ∧ t.trace = [.csLow 0] ++ ([] ++ .collide 0x10 :: []) ++ [.csHigh 0] := by
  subst hs
  exact ⟨rfl, bus_accepts (by unfold Accepts; decide) _ _, bus_drives _ _, _, rfl, by decide⟩

/-- `READN` on a running bus that fails at response byte 1 (V69), and a `COMMAND` that answers OK. -/
theorem witness_SelectionAlwaysPairs_running (s u : State)
    (hs : s = bus { cleanSpi with done := true } (List.replicate 5 .engine ++ [.link 0xAA]))
    (hu : u = bus cleanSpi (promptTurns Config.tp (.command 0 0x06) [atBound])) :
    Accepts s (.readN 0 0x10 3) ∧ Drives s 0 Config.bankB 2 ∧ s.spi.Running ∧
    (∃ t, exec (.readN 0 0x10 3) s = .next t ∧ t.rsp = 0x000#10 ∧
      t.trace.filterMap presentedByte = [0x90, 0x00, 0x00]) ∧
    Accepts u (.command 0 0x06) ∧ Drives u 0 Config.bankB 2 ∧ u.spi.Running ∧
    (∃ t, exec (.command 0 0x06) u = .next t ∧ t.rsp = 0x100#10) := by
  subst hs hu
  exact ⟨bus_accepts (by unfold Accepts; decide) _ _, bus_drives _ _, by unfold Spi.Running; decide,
    ⟨_, rfl, by decide, by decide⟩, bus_accepts (by unfold Accepts; decide) _ _, bus_drives _ _, cleanSpi_running,
    _, rfl, by decide⟩

/-- A silent link from the command byte on, and from the last byte on. -/
theorem witness_SelectionAlwaysPairs_silent : ∀ x ∈ [(Instr.command 0 0x06, []), (.write1 0 0x10 0xAA, [atBound]),
      (.writeN 0 0x10 255, [now 0x00, atBound]), (.read1 0 0x10, [now 0x00]), (.readN 0 0x10 2, [now 0x00, atBound])],
    ∀ s : State, s = bus cleanSpi (answeredTurns Config.tp x.1 x.2 ++ []) →
      isTransaction x.1 = true ∧ PromptPremises s x.1 (answeredTurns s.cfg x.1 x.2) [] ∧
      (∀ a ∈ x.2, a.InTime s.cfg) ∧ x.2.length < (s.wireBytes x.1).length ∧ BoundReachable s.cfg := by
  intro x hx s e
  have h : isTransaction x.1 = true ∧ x.1.slot = 0 ∧ Accepts rs0 x.1 ∧
      (∀ a ∈ x.2, a ∈ [now 0x00, now 0xFF, atBound]) ∧ x.2.length < (rs0.wireBytes x.1).length := by
    clear e s; revert x; unfold Accepts; decide
  subst e
  exact ⟨h.1, bus_premises h.2.2.1 h.2.1 _ _, fun a ha => answers_inTime _ a (h.2.2.2.1 a ha), h.2.2.2.2,
    (by decide : (100 : Nat) + 1 < 2 ^ 32)⟩

theorem witness_TransactionsTouchOnlyTheirOwnPin (s : State) (hs : s = bus cleanSpi (promptTurns Config.tp (.command 0 0x06) [now 0xFF])) :
    isTransaction (.command 0 0x06) = true ∧ Accepts s (.command 0 0x06) ∧ Drives s 0 Config.bankB 2 ∧
    MemoryCanonical s ∧ ∃ t, exec (.command 0 0x06) s = .next t := by
  subst hs
  exact ⟨rfl, bus_accepts (by unfold Accepts; decide) _ _, bus_drives _ _, bus_canonical _ _, _, rfl⟩

theorem witness_OnlyReadNWritesTheBuffer (s : State) 
    (hs : s = bus cleanSpi (promptTurns Config.tp (.readN 0 0x10 1) [now 0x00, now 0xAA])) :
    ∃ t, exec (.readN 0 0x10 1) s = .next t ∧ t.bufByte 0 ≠ s.bufByte 0 := by
  subst hs
  exact ⟨_, rfl, by decide⟩

theorem witness_EachOperationEmitsAtMostOneTag (s : State) (hs : s = bus cleanSpi []) :
    ∃ t, exec (.read1 0 0x10) s = .next t ∧ t.diag = s.diag ++ [.timeout] := by
  subst hs
  exact ⟨_, rfl, by decide⟩

theorem witness_CleanLinkNeverCollides_SuccessLeavesTheLinkClean (s : State)
    (hs : s = bus cleanSpi (promptTurns Config.tp (.command 0 0x06) [now 0xFF])) :
    s.Clean ∧ ∃ t, exec (.command 0 0x06) s = .next t ∧ t.rsp = 0x100#10 := by
  subst hs
  exact ⟨⟨rfl, rfl, cleanSpi_clean⟩, _, rfl, by decide⟩

theorem witness_StepKeepsSelectionPaired : MemoryCanonical polling ∧ HandlesSound polling ∧ SelectionPaired polling ∧
    ∃ t, step polling = .next t := ⟨⟨rfl, rfl, rfl⟩, rs0_handlesSound, polling_paired, _, rfl⟩

theorem witness_StepKeepsMemoryCanonical :
    MemoryCanonical (issuing rs0 0x20000000) ∧ ∃ t, step (issuing rs0 0x20000000) = .next t :=
  ⟨⟨rfl, rfl, rfl⟩, _, rfl⟩

theorem witness_StepKeepsIndexInRange (s : State)
    (hs : s = { underWay (.store 0xAA) with eng := ⟨.busy (.readN 0 0x10 255) (.store 0xAA), .selected 0, 254, 1000, 0, none⟩ }) :
    s.eng.phase = .busy (.readN 0 0x10 255) (.store 0xAA) ∧ IndexInRange s ∧ ∃ t, step s = .next t := by
  subst hs
  exact ⟨rfl, ⟨fun _ _ h _ => by injection h with h _; subst h; decide, fun _ _ => rfl⟩, _, rfl⟩

theorem witness_StepKeepsLinkSound : LinkSound polling ∧ ∃ t, step polling = .next t :=
  ⟨⟨(fun h => by cases h), (fun h => by cases h), fun _ => by unfold Spi.Running; decide, by decide⟩, _, rfl⟩

theorem witness_StepKeepsTimeInRange : TimeInRange polling ∧ ∃ t, step polling = .next t :=
  ⟨by unfold TimeInRange; decide, _, rfl⟩

theorem witness_ParametersFixedAndLogsOnlyGrow :
    MemoryCanonical polling ∧ (∃ t, step polling = .next t) ∧ (polling.dirReg Config.bankB).getLsbD 5 = true :=
  ⟨⟨rfl, rfl, rfl⟩, ⟨_, rfl⟩, by decide⟩

theorem witness_ForeignGpioBitsNeverChange :
    MemoryCanonical polling ∧ (∃ t, step polling = .next t) ∧
    (∀ h, (polling.handle h).bank = some Config.bankB → (polling.handle h).pin.toNat ≠ 0) ∧
    (Config.bankB, 0) ∉ polling.cfg.busOutPins := ⟨⟨rfl, rfl, rfl⟩, ⟨_, rfl⟩, by decide, by decide⟩

theorem witness_EveryOperationAnswersWhenTimeIsFair_TheOnlyStopIsTheHang :
    polling.cfg.wf = true ∧ Fair polling.sched ∧ BoundReachable polling.cfg := by
  refine ⟨by decide, fun h => ?_, by unfold BoundReachable; decide⟩
  have : Turn.stall ∈ [Turn.link 0xFF] := h
  simp at this

theorem witness_ModesChangeNoOtherValue : ModeAlike polling.spi.ctrl 0x7C := by unfold ModeAlike; decide

theorem reset_isReset (w : Word) : (issuing State.reset w).IsReset :=
  ⟨(show ∀ h, (State.reset.handle h).constructed = false by decide), rfl, rfl, ⟨rfl, rfl, rfl, rfl, rfl⟩, rfl, rfl, rfl,
    rfl, rfl⟩
/-- No constructor, a constructor's code with an unused field set, a constructor on a slot that does not exist. -/
theorem witness_OnlyConstructors_illegal : ∀ w ∈ [0x20000000#32, 0x112B0403#32, 0x040A0000#32],
    (issuing State.reset w).IsReset ∧ (issuing State.reset w).cfg.wf = true ∧
    (issuing State.reset w).host = .issue w :: [] ∧
    ∀ i, decode w = .ok i → i.isConstructor = true → (issuing State.reset w).cfg.nHandles ≤ i.slot.toNat := by
  intro w hw
  refine ⟨reset_isReset _, (by decide : Config.tp.wf = true), rfl, fun i h hc => ?_⟩
  have hd : decode 0x20000000#32 = .ok (.begin 0) ∧ decode 0x112B0403#32 = .error .unusedField ∧
      decode 0x040A0000#32 = .ok (.constructPin 4 10) := by decide
  simp only [List.mem_cons, List.not_mem_nil, or_false] at hw
  rcases hw with rfl | rfl | rfl
  · rw [hd.1] at h; injection h with h; subst h; cases hc
  · rw [hd.2.1] at h; cases h
  · rw [hd.2.2] at h; injection h with h; subst h; decide
theorem witness_OnlyConstructors_accepted :
    (issuing State.reset 0x030A0000).IsReset ∧ (issuing State.reset 0x030A0000).cfg.wf = true ∧
    (issuing State.reset 0x030A0000).host = .issue 0x030A0000 :: [] ∧
    decode 0x030A0000#32 = .ok (.constructPin 3 10) ∧ (Instr.constructPin 3 10).isConstructor = true ∧
    (Instr.constructPin 3 10).slot.toNat < (issuing State.reset 0x030A0000).cfg.nHandles :=
  ⟨reset_isReset _, by decide, rfl, by decide, by decide, by decide⟩

end Sys2Proof.Tests
end

section
/-!
PROOFS. The scope of the model (spec/00_scope.md): what is no configuration is refused (O7), and on a configuration the
only stop is the hang (O56). O56 goes bottom-up through the run of an operation, an operation's body, `exec` and HOST's
action.
-/
namespace Sys2Proof.Machine

/-! ### What is no configuration -/

/-- Rule R14: the port refuses every operation on parameters that fail `WF`. -/
theorem exec_of_not_wf {s : State} (h : s.cfg.wf = false) (i : Instr) : exec i s = .refused .notAConfiguration := by
  simp [exec_eq_atPort, atPort, h]

theorem step_of_not_wf {s : State} (h : s.cfg.wf = false) : step s = .refused .notAConfiguration := by
  simp [step, h]

/-- Settles O7: the step and the port both test `WF` before anything else. -/
theorem illFormedConfigurationIsRefused : Obligations.IllFormedConfigurationIsRefused :=
  fun _ h => ⟨step_of_not_wf h, exec_of_not_wf h⟩

/-! ### The step by the phase -/

theorem step_of_ready {s : State} (hw : s.cfg.wf = true) (hp : s.eng.phase = .ready) : step s = hostAct s := by
  simp [step, hw, hp]

theorem step_of_busy {s : State} {op : Instr} {l : Label} (hw : s.cfg.wf = true) (hp : s.eng.phase = .busy op l) :
    step s = complete s := by
  simp [step, hw, hp]

/-! ### A ready answer or the hang -/

/-- The outcome is a next state with the port ready, or the hang: no refusal (rules R19, R163). -/
def AnswersOrHangs (o : Host.Outcome State Fault Refusal) : Prop :=
  (∃ t, o = .next t ∧ t.eng.phase = .ready) ∨ o = .fault .hang

theorem answersOrHangs_next {t : State} (hp : t.eng.phase = .ready) : AnswersOrHangs (.next t) :=
  .inl ⟨t, rfl, hp⟩

theorem complete_answersOrHangs (s : State) : AnswersOrHangs (complete s) := by
  obtain ⟨t, ht⟩ | hh := complete_next_or_hang s
  · exact .inl ⟨t, ht, complete_ready ht⟩
  · exact .inr hh

/-- An accepted operation that takes no micro-step leaves the port ready; any other runs to its response or hangs. -/
theorem opBody_answersOrHangs {s : State} (hp : s.eng.phase = .ready) (i : Instr) : AnswersOrHangs (opBody i s) := by
  by_cases hi : isTransaction i = true
  · rw [opBody_transaction hi]
    split
    · exact complete_answersOrHangs _
    · exact answersOrHangs_next hp
  · cases i with
    | constructPin | constructExplicit | isConnected => exact answersOrHangs_next hp
    | begin => exact complete_answersOrHangs _
    | command | write1 | writeN | read1 | readN => exact absurd rfl hi

/-- Rule R104: an operation that is ILLEGAL in this state changes nothing but `RSP`. -/
theorem exec_of_illegal {s : State} {i : Instr} (hw : s.cfg.wf = true) (hp : s.eng.phase = .ready)
    (hi : s.illegal i = true) : exec i s = .next s.respondIllegal := by
  simp [exec_eq_atPort, atPort, hw, hp, hi]

/-- Rules R46, R104: at a ready port of a configuration an operation is answered ILLEGAL or accepted. -/
theorem exec_answersOrHangs {s : State} (hw : s.cfg.wf = true) (hp : s.eng.phase = .ready) (i : Instr) :
    AnswersOrHangs (exec i s) := by
  by_cases hi : s.illegal i = true
  · rw [exec_of_illegal hw hp hi]
    exact answersOrHangs_next hp
  · rw [exec_of_accepts ⟨hw, hp, by simpa using hi⟩]
    exact opBody_answersOrHangs (by simpa using hp) i

/-- Rule R172: while HOST waits at a ready port, no agent's turn starts an operation. -/
theorem idleTurn_ready {s : State} (hp : s.eng.phase = .ready) : (idleTurn s).eng.phase = .ready := by
  obtain h | ⟨ts, h | ⟨r, h⟩ | ⟨d, h⟩⟩ := idleTurn_cases s
  · rw [h]; exact hp
  · simp [h, microStep, hp]
  · simpa [h] using hp
  · simpa [h] using hp

theorem acceptWord_answersOrHangs {s : State} (hw : s.cfg.wf = true) (hp : s.eng.phase = .ready) (w : Word) :
    AnswersOrHangs (acceptWord w s) := by
  unfold acceptWord
  split
  · exact exec_answersOrHangs (s := { s with cmd := w }) hw hp _
  · exact answersOrHangs_next hp

theorem hostAct_answersOrHangs {s : State} (hw : s.cfg.wf = true) (hp : s.eng.phase = .ready) :
    AnswersOrHangs (hostAct s) := by
  unfold hostAct
  split
  · exact answersOrHangs_next (idleTurn_ready hp)
  · exact answersOrHangs_next (idleTurn_ready hp)
  · exact answersOrHangs_next hp
  · next w hs _ => exact acceptWord_answersOrHangs (s := { s with host := hs }) hw hp w

/-- Settles O56: a step is HOST's action at a ready port or the rest of an operation under way. -/
theorem theOnlyStopIsTheHang : Obligations.TheOnlyStopIsTheHang := by
  intro s hw
  cases hp : s.eng.phase with
  | ready => rw [step_of_ready hw hp]; exact hostAct_answersOrHangs hw hp
  | busy op l => rw [step_of_busy hw hp]; exact complete_answersOrHangs s

end Sys2Proof.Machine
end
section
/-!
PROOFS. What one micro-step of ENGINE writes in each space, as cases: the running handle's output bit, a direction bit,
a byte of `BUF`, one access of the SPI registers.
-/
namespace Sys2Proof.Machine

/-! ### What a micro-step writes -/

theorem enterInitializeOnce_cases (op : Instr) (s : State) :
    (s.busInit = true ∧ enterInitializeOnce op s = s.finishBegin) ∨
    (s.busInit = false ∧ enterInitializeOnce op s = s.goto op (nextBusPin s.cfg 0)) := by
  unfold enterInitializeOnce
  cases s.busInit <;> simp

/-- A micro-step writes at most the running handle's bit of `GPIO.OUT` (rules R57, R69). -/
theorem microLabel_gpioOut_cases (op : Instr) (l : Label) (s : State) :
    (microLabel op l s).gpioOut = s.gpioOut ∨
    ∃ k, s.curHandle.bank = some k ∧
      ((microLabel op l s).gpioOut = s.gpioOut.setBit k s.curHandle.pin.toNat ∨
       (microLabel op l s).gpioOut = s.gpioOut.clrBit k s.curHandle.pin.toNat) := by
  cases l with
  | csOut =>
    cases hb : s.curHandle.bank with
    | none => left; simp only [microLabel, microCsOut, hb, enterInitializeOnce]; split <;> rfl
    | some k =>
      refine .inr ⟨k, rfl, .inl ?_⟩
      simp only [microLabel, microCsOut, hb, enterInitializeOnce]; split <;> rfl
  | select =>
    simp only [microLabel, microSelect, State.select, State.goto_gpioOut]
    split
    · split
      · exact .inl rfl
      · next k hk => exact .inr ⟨k, hk, .inr rfl⟩
    · exact .inl rfl
  | unselect ok =>
    simp only [microLabel, microUnselect, State.endTxn, State.unselect, State.finish_gpioOut]
    split
    · split
      · exact .inl rfl
      · next k hk => exact .inr ⟨k, hk, .inl rfl⟩
    · exact .inl rfl
  | _ => exact .inl (microLabel_gpioOut _ _ _ (by simp) (by simp) (by simp))

/-- A micro-step sets at most one bit of `GPIO.DIR`: the running handle's, or a bus output pin's (rules R118, R120). -/
theorem microLabel_gpioDir_cases (op : Instr) (l : Label) (s : State) :
    (microLabel op l s).gpioDir = s.gpioDir ∨
    ∃ k b, (microLabel op l s).gpioDir = s.gpioDir.setBit k b ∧
      ((s.curHandle.bank = some k ∧ s.curHandle.pin.toNat = b) ∨ (k, b) ∈ s.cfg.busOutPins) := by
  cases l with
  | csDir =>
    simp only [microLabel, microCsDir, State.goto_gpioDir]
    split
    · exact .inl rfl
    · next k hk => exact .inr ⟨k, _, rfl, .inl ⟨hk, rfl⟩⟩
  | busPin n =>
    simp only [microLabel, microBusPin, State.goto_gpioDir]
    split
    · exact .inl rfl
    · next kb hk => exact .inr ⟨kb.1, kb.2, rfl, .inr (List.mem_of_getElem? hk)⟩
  | _ => exact .inl (microLabel_gpioDir _ _ _ (by simp) (by simp))

@[simp] theorem loopHead_buf (op : Instr) (s : State) : (loopHead op s).buf = s.buf := by
  obtain ⟨h, _⟩ | ⟨h, _⟩ | ⟨h, _⟩ | ⟨h, _⟩ | ⟨v, h, _⟩ := loopHead_cases op s <;> rw [h] <;> rfl

/-- A micro-step writes at most the byte of `BUF` at `ENG.idx`, in a store (rule R145). -/
theorem microLabel_buf_cases (op : Instr) (l : Label) (s : State) :
    (microLabel op l s).buf = s.buf ∨
    ∃ r, l = .store r ∧ (microLabel op l s).buf = s.buf.write s.eng.idx r := by
  cases l with
  | store r => exact .inr ⟨r, rfl, loopHead_buf _ _⟩
  | _ => exact .inl (microLabel_buf _ _ _ (by simp))

@[simp] theorem loopHead_spi (op : Instr) (s : State) : (loopHead op s).spi = s.spi := by
  obtain ⟨h, _⟩ | ⟨h, _⟩ | ⟨h, _⟩ | ⟨h, _⟩ | ⟨v, h, _⟩ := loopHead_cases op s <;> rw [h] <;> rfl

@[simp] theorem afterExchange_spi (op : Instr) (x : Exchange) (r : Byte) (s : State) :
    (afterExchange op x r s).spi = s.spi := by
  cases x with
  | cmd => exact loopHead_spi _ _
  | byte =>
    simp only [afterExchange]
    split
    · rfl
    · exact loopHead_spi _ _
    · split
      · exact loopHead_spi _ _
      · rfl

@[simp] theorem microPoll_spi (op : Instr) (x : Exchange) (s : State) : (microPoll op x s).spi = s.spi.arm := by
  simp only [microPoll]
  split
  · rfl
  · split <;> rfl

@[simp] theorem select_spi (s : State) : s.select.spi = s.spi := by
  simp only [State.select]
  split
  · split <;> rfl
  · rfl

@[simp] theorem unselect_spi (s : State) : s.unselect.spi = s.spi := by
  simp only [State.unselect]
  split
  · split <;> rfl
  · rfl

@[simp] theorem microCsOut_spi (op : Instr) (s : State) : (microCsOut op s).spi = s.spi := by
  simp only [microCsOut, enterInitializeOnce]
  cases s.curHandle.bank <;> cases hi : s.busInit <;> simp [hi, State.finishBegin]

/-- The register access of a label, `spi` after it (rules R60 to R65): the only SPI accesses ENGINE makes. -/
def Label.access (c : Config) (l : Label) (p : Spi) : Spi :=
  match l with
  | .ctrl => p.writeCtrl (ctrlWord c)
  | .status => p.writeStatus (statusWord c)
  | .send _ v => p.writeData v
  | .poll _ => p.arm
  | .receive _ => p.readData
  | .badCs | .csDir | .csOut | .busPin _ | .select | .load | .sample _ | .clock _ | .timedOut | .store _ | .settleStart
  | .settleWait | .tailStart | .tailWait | .unselect _ => p

/-- A micro-step does to the SPI registers what its label's access does. -/
theorem microLabel_spi (op : Instr) (l : Label) (s : State) :
    (microLabel op l s).spi = l.access s.cfg s.spi := by
  cases l with
  | badCs | ctrl | status | load | send | sample | timedOut | settleStart | tailStart => rfl
  | csDir => simp only [microLabel, microCsDir, Label.access, State.goto_spi]; split <;> rfl
  | csOut => exact microCsOut_spi _ _
  | busPin n => simp only [microLabel, microBusPin, Label.access, State.goto_spi]; split <;> rfl
  | select => exact select_spi _
  | poll x => exact microPoll_spi _ _ _
  | receive x => exact afterExchange_spi _ _ _ _
  | clock x => simp only [microLabel, microClock, Label.access]; split <;> rfl
  | store r => exact loopHead_spi _ _
  | settleWait | tailWait => simp only [microLabel, microDelayWait, Label.access]; split <;> rfl
  | unselect ok => exact unselect_spi _

end Sys2Proof.Machine
end
section
/-!
PROOFS. The invariants of a step packaged by its moves, and the first of them: the width of `T` (O52), constructed handles
(O13), sound handles (O14).
-/
namespace Sys2Proof.Machine

/-! ### The moves of a step -/

/-- Every move of a step keeps `P` while `Q` holds: the hypotheses of `step_keeps`, where a move that leaves `P` alone by
computation need not be named. -/
structure MovesKeep (Q P : State → Prop) : Prop where
  micro : ∀ s op l, s.eng.phase = .busy op l → Q s → P s → P (microLabel op l s)
  link : ∀ s r, Q s → P s → P (s.linkComplete r) := by exact fun _ _ _ h => h
  time : ∀ s d, Q s → P s → P (s.timeStep d) := by exact fun _ _ _ h => h
  sched : ∀ (s : State) ts, Q s → P s → P { s with sched := ts } := by exact fun _ _ _ h => h
  host : ∀ (s : State) hs, Q s → P s → P { s with host := hs } := by exact fun _ _ _ h => h
  cmd : ∀ (s : State) w, Q s → P s → P { s with cmd := w } := by exact fun _ _ _ h => h
  fill : ∀ (s : State) (i : Fin 255) v, Q s → P s → P (s.setBuf i.val v) := by exact fun _ _ _ _ h => h
  respond : ∀ s r, Q s → P s → P (s.respond r) := by exact fun _ _ _ h => h
  opened : ∀ s i, s.eng.phase = .ready → Q s → P s → P (s.openOp i) := by exact fun _ _ _ _ h => h
  construct : ∀ s h x inv, s.cfg.wf = true → s.eng.phase = .ready → (s.handle h).constructed = false →
      ((∃ pin, x = resolve s.cfg pin) ∨ (∃ a b, x = resolveExplicit s.cfg a b inv)) →
      Q s → P s → P (s.setHandle h ⟨true, x.bank, x.pin, x.valid, inv⟩) := by exact fun _ _ _ _ _ _ _ _ _ h => h
  begins : ∀ s h, s.eng.phase = .ready → s.eng.cur = h → (s.handle h).constructed = true → Q s → P s →
      P (s.goto (.begin h) (if (s.handle h).valid then .csDir else .badCs)) := by exact fun _ _ _ _ _ _ h => h
  selects : ∀ s i, isTransaction i = true → s.eng.phase = .ready → s.eng.cur = i.slot →
      (s.handle i.slot).constructed = true → (s.handle i.slot).valid = true → Q s → P s →
      P (s.goto i .select) := by exact fun _ _ _ _ _ _ _ _ h => h

/-- What every move keeps, every step keeps. -/
theorem MovesKeep.step {P : State → Prop} (m : MovesKeep (fun _ => True) P) {s t : State} (hs : step s = .next t)
    (h : P s) : P t :=
  step_keeps (fun s op l hp => m.micro s op l hp trivial) (fun s r => m.link s r trivial)
    (fun s d => m.time s d trivial) (fun s ts => m.sched s ts trivial) (fun s hs => m.host s hs trivial)
    (fun s w => m.cmd s w trivial) (fun s i v => m.fill s i v trivial) (fun s r => m.respond s r trivial)
    (fun s i hp => m.opened s i hp trivial) (fun s h x inv hw hp hc hx => m.construct s h x inv hw hp hc hx trivial)
    (fun s h hp hc hk => m.begins s h hp hc hk trivial)
    (fun s i hi hp hc hk hv => m.selects s i hi hp hc hk hv trivial) hs h

/-- What every move keeps under `Q`, it keeps under a stronger condition. -/
theorem MovesKeep.mono {Q R P : State → Prop} (m : MovesKeep Q P) (hr : ∀ s, R s → Q s) : MovesKeep R P where
  micro s op l hp r := m.micro s op l hp (hr s r)
  link s r q := m.link s r (hr s q)
  time s d q := m.time s d (hr s q)
  sched s ts q := m.sched s ts (hr s q)
  host s hs q := m.host s hs (hr s q)
  cmd s w q := m.cmd s w (hr s q)
  fill s i v q := m.fill s i v (hr s q)
  respond s r q := m.respond s r (hr s q)
  opened s i hp q := m.opened s i hp (hr s q)
  construct s g x inv hw hp hc hx q := m.construct s g x inv hw hp hc hx (hr s q)
  begins s g hp hc hk q := m.begins s g hp hc hk (hr s q)
  selects s i hi hp hc hk hv q := m.selects s i hi hp hc hk hv (hr s q)

/-- An invariant kept on its own, and one kept while it holds, are kept together. -/
theorem MovesKeep.and {Q P : State → Prop} (q : MovesKeep (fun _ => True) Q) (p : MovesKeep Q P) :
    MovesKeep (fun _ => True) (fun s => Q s ∧ P s) where
  micro s op l hp _ h := ⟨q.micro s op l hp trivial h.1, p.micro s op l hp h.1 h.2⟩
  link s r _ h := ⟨q.link s r trivial h.1, p.link s r h.1 h.2⟩
  time s d _ h := ⟨q.time s d trivial h.1, p.time s d h.1 h.2⟩
  sched s ts _ h := ⟨q.sched s ts trivial h.1, p.sched s ts h.1 h.2⟩
  host s hs _ h := ⟨q.host s hs trivial h.1, p.host s hs h.1 h.2⟩
  cmd s w _ h := ⟨q.cmd s w trivial h.1, p.cmd s w h.1 h.2⟩
  fill s i v _ h := ⟨q.fill s i v trivial h.1, p.fill s i v h.1 h.2⟩
  respond s r _ h := ⟨q.respond s r trivial h.1, p.respond s r h.1 h.2⟩
  opened s i hp _ h := ⟨q.opened s i hp trivial h.1, p.opened s i hp h.1 h.2⟩
  construct s g x inv hw hp hc hx _ h :=
    ⟨q.construct s g x inv hw hp hc hx trivial h.1, p.construct s g x inv hw hp hc hx h.1 h.2⟩
  begins s g hp hc hk _ h := ⟨q.begins s g hp hc hk trivial h.1, p.begins s g hp hc hk h.1 h.2⟩
  selects s i hi hp hc hk hv _ h := ⟨q.selects s i hi hp hc hk hv trivial h.1, p.selects s i hi hp hc hk hv h.1 h.2⟩

/-! ### Parameters, memories, `T` -/

/-- No move changes a parameter (rule R49). -/
theorem cfg_movesKeep (c : Config) : MovesKeep (fun _ => True) (fun s => s.cfg = c) where
  micro _ _ _ _ _ h := by simpa using h

theorem step_cfg {s t : State} (hs : step s = .next t) : t.cfg = s.cfg := (cfg_movesKeep s.cfg).step hs rfl

/-- Every micro-step keeps the canonical form of the three memories (log entry 7). -/
theorem microLabel_memoryCanonical {s : State} (op : Instr) (l : Label) (h : MemoryCanonical s) :
    MemoryCanonical (microLabel op l s) := by
  obtain ⟨ho, hd, hb⟩ := h
  refine ⟨?_, ?_, ?_⟩
  · obtain h | ⟨k, _, h | h⟩ := microLabel_gpioOut_cases op l s <;> rw [h]
    · exact ho
    · exact Memory.setBit_wf ho _ _
    · exact Memory.clrBit_wf ho _ _
  · obtain h | ⟨k, b, h, _⟩ := microLabel_gpioDir_cases op l s <;> rw [h]
    · exact hd
    · exact Memory.setBit_wf hd _ _
  · obtain h | ⟨r, _, h⟩ := microLabel_buf_cases op l s <;> rw [h]
    · exact hb
    · exact Memory.write_wf hb _ _

theorem memoryCanonical_movesKeep : MovesKeep (fun _ => True) MemoryCanonical where
  micro _ op l _ _ h := microLabel_memoryCanonical op l h
  fill _ i v _ := fun ⟨ho, hd, hb⟩ => ⟨ho, hd, Memory.write_wf hb _ _⟩

theorem timeInRange_movesKeep : MovesKeep (fun _ => True) TimeInRange where
  micro _ _ _ _ _ h := by simpa [TimeInRange] using h
  time _ _ _ _ := Nat.mod_lt _ (Nat.two_pow_pos _)

/-- Settles O52: TIME's step alone writes `T`, and reduces it modulo `2^TIME_BITS`. -/
theorem stepKeepsTimeInRange : Obligations.StepKeepsTimeInRange :=
  fun _ _ h hs => timeInRange_movesKeep.step hs h

/-! ### Handles -/

/-- A constructor writes only a slot that is not constructed (rules R30, R104 clause (d)). -/
theorem constructedHandle_movesKeep (h : Slot) (x : Handle) (hx : x.constructed = true) :
    MovesKeep (fun _ => True) (fun s => s.handle h = x) where
  micro _ _ _ _ _ h := by simpa using h
  construct s g y inv _ _ hc _ _ hh := by
    have hg : h ≠ g := fun e => by rw [← e, hh, hx] at hc; cases hc
    rw [State.setHandle_handle_other _ _ hg]
    exact hh

/-- Settles O13: no move writes a constructed slot. -/
theorem constructedHandleNeverChanges : Obligations.ConstructedHandleNeverChanges :=
  fun _ _ h hs hc => (constructedHandle_movesKeep h _ hc).step hs rfl

/-- One handle is sound: valid exactly when it has a bank and a pin below 8, its bank one of `BANKS` (rules R26, R28). -/
def Handle.Sound (c : Config) (x : Handle) : Prop :=
  (x.valid = true ↔ x.bank ≠ none ∧ x.pin.toNat < 8) ∧ ∀ k, x.bank = some k → k ∈ bankTokens c

theorem handlesSound_iff (s : State) :
    HandlesSound s ↔ ∀ h, (s.handle h).constructed = true → (s.handle h).Sound s.cfg := Iff.rfl

theorem bitIndex_lt {m : Byte} {b : Nat} (h : bitIndex m = some b) : b < 8 :=
  List.mem_range.mp (List.mem_of_find?_eq_some h)

/-- `WF` clause (d): the bank of a row of the pin table is one of `BANKS`. -/
theorem pinTable_bank_mem {c : Config} (hw : c.wf = true) {e : PinEntry} (he : e ∈ c.pinTable) :
    e.bank ∈ bankTokens c := by
  simp only [Config.wf, Config.banksKnown, Bool.and_eq_true, List.all_eq_true] at hw
  obtain ⟨⟨⟨⟨_, hp, _⟩, _⟩, _⟩, _⟩ := hw
  simpa using hp e he

/-- Rule R109: `resolve` yields a sound handle. -/
theorem resolve_sound {c : Config} (hw : c.wf = true) (pin : Byte) (con inv : Bool) :
    Handle.Sound c ⟨con, (resolve c pin).bank, (resolve c pin).pin, (resolve c pin).valid, inv⟩ := by
  unfold resolve
  split
  · simp [Handle.Sound]
  · next e he =>
    split
    · simp [Handle.Sound]
    · next b hb =>
      have hlt := bitIndex_lt hb
      have hmem := pinTable_bank_mem hw (List.mem_of_find?_eq_some he)
      refine ⟨?_, fun k hk => by cases hk; exact hmem⟩
      simp only [BitVec.toNat_ofNat, ne_eq, reduceCtorEq, not_false_eq_true, true_and, true_iff]
      omega

/-- Rule R112: the explicit constructor yields a sound handle. -/
theorem resolveExplicit_sound (c : Config) (regid pin : Byte) (con inv : Bool) :
    Handle.Sound c ⟨con, (resolveExplicit c regid pin inv).bank, (resolveExplicit c regid pin inv).pin,
      (resolveExplicit c regid pin inv).valid, inv⟩ := by
  refine ⟨?_, fun k hk => ?_⟩
  · simp only [resolveExplicit, validate, bankOf, Bool.and_eq_true, decide_eq_true_eq, ne_eq, Option.map_eq_none_iff,
      List.find?_eq_none, List.any_eq_true]
    push Not
    exact and_comm
  · obtain ⟨x, hx, rfl⟩ := Option.map_eq_some_iff.mp hk
    exact List.mem_map_of_mem (List.mem_of_find?_eq_some hx)

theorem handlesSound_movesKeep : MovesKeep (fun _ => True) HandlesSound where
  micro _ _ _ _ _ h := by simpa [HandlesSound] using h
  construct s g x inv hw _ _ hx _ h := by
    rw [handlesSound_iff] at h ⊢
    intro g' hg'
    by_cases e : g' = g
    · subst e
      rw [State.setHandle_handle_same]
      obtain ⟨pin, rfl⟩ | ⟨a, b, rfl⟩ := hx
      · exact resolve_sound hw pin true inv
      · exact resolveExplicit_sound s.cfg a b true inv
    · rw [State.setHandle_handle_other _ _ e] at hg' ⊢
      exact h g' hg'

/-- Settles O14: the constructors alone write a handle, and what they resolve is sound. -/
theorem stepKeepsHandlesSound : Obligations.StepKeepsHandlesSound :=
  fun _ _ h hs => handlesSound_movesKeep.step hs h

end Sys2Proof.Machine
end
section
/-!
PROOFS. The fields of the control and status words (O18), the SPI registers and the link after every access (O51), and what
only grows (O53).
-/
namespace Sys2Proof.Machine

/-! ### The control and status words -/

/-- The bits of a control word put together from its fields (rule R94). -/
theorem ctrlByte_bits {ord cpol cpha : Bool} {sel : BitVec 2} {w : Byte}
    (hw : w = 0x50#8 ||| (bitByte ord <<< 5) ||| (bitByte cpol <<< 3) ||| (bitByte cpha <<< 2) ||| sel.setWidth 8) :
    w.getLsbD 7 = false ∧ w.getLsbD 6 = true ∧ w.getLsbD 5 = ord ∧ w.getLsbD 4 = true ∧ w.getLsbD 3 = cpol ∧
    w.getLsbD 2 = cpha ∧ w.extractLsb' 0 2 = sel ∧ w &&& 0x7F#8 = w := by
  subst hw
  revert ord cpol cpha sel
  decide

theorem ctrlWord_bits (c : Config) :
    (ctrlWord c).getLsbD 7 = false ∧ (ctrlWord c).getLsbD 6 = true ∧ (ctrlWord c).getLsbD 5 = c.lsbFirst ∧
    (ctrlWord c).getLsbD 4 = true ∧ (ctrlWord c).getLsbD 3 = c.cpol ∧ (ctrlWord c).getLsbD 2 = c.cpha ∧
    (ctrlWord c).extractLsb' 0 2 = (busFields c).sel ∧ ctrlWord c &&& 0x7F#8 = ctrlWord c :=
  ctrlByte_bits rfl

/-- The status word's bit 0 is the double-speed flag (rule R95). -/
@[simp] theorem statusWord_bit (c : Config) : (statusWord c).getLsbD 0 = (busFields c).dbl := by
  unfold statusWord
  cases (busFields c).dbl <;> rfl

/-- Writing the control word stores it whole: its reserved bit is 0 (rules R34, R60). -/
@[simp] theorem Spi.writeCtrl_ctrlWord (p : Spi) (c : Config) :
    p.writeCtrl (ctrlWord c) = { p with ctrl := ctrlWord c } := by
  obtain ⟨_, _, _, _, _, _, _, h⟩ := ctrlWord_bits c
  simp [Spi.writeCtrl, h]

/-- Settles O18: the fields are put together without overlap. -/
theorem controlAndStatusWordsHoldTheFields : Obligations.ControlAndStatusWordsHoldTheFields := by
  intro c
  obtain ⟨h7, h6, h5, h4, h3, h2, hsel, _⟩ := ctrlWord_bits c
  refine ⟨h7, h6, h5, h4, h3, h2, hsel, ?_⟩
  unfold statusWord
  cases (busFields c).dbl <;> rfl

/-! ### The link -/

/-- `LinkSound` of the SPI registers alone. -/
def Spi.Sound (p : Spi) : Prop :=
  (p.armDone = true → p.done = true) ∧ (p.armColl = true → p.coll = true) ∧ (p.xfer ≠ none → p.Running) ∧
  p.ctrl.getLsbD 7 = false

theorem linkSound_iff (s : State) : LinkSound s ↔ s.spi.Sound := Iff.rfl

theorem Spi.Sound.clearArmed {p : Spi} (h : p.Sound) : p.clearArmed.Sound := by
  obtain ⟨_, _, hx, h7⟩ := h
  exact ⟨by simp, by simp, hx, h7⟩

theorem Spi.Sound.arm {p : Spi} (h : p.Sound) : p.arm.Sound := by
  obtain ⟨hd, hc, hx, h7⟩ := h
  refine ⟨?_, ?_, hx, h7⟩
  · simpa [or_imp] using hd
  · simpa [or_imp] using hc

/-- A data write puts a byte in flight only on a running bus (rule R64). -/
theorem Spi.Sound.writeData {p : Spi} (h : p.Sound) (v : Byte) : (p.writeData v).Sound := by
  obtain ⟨_, e, _⟩ | ⟨he, hm, _, e, _⟩ | ⟨u, he, hm, _, e, _⟩ := p.writeData_cases v <;> rw [e]
  · exact h.clearArmed
  · obtain ⟨hd, hc, _, h7⟩ := h.clearArmed
    exact ⟨hd, hc, fun _ => ⟨he, hm⟩, h7⟩
  · obtain ⟨hd, _, hx, h7⟩ := h.clearArmed
    exact ⟨hd, fun _ => rfl, hx, h7⟩

/-- The control word enables the bus as master and leaves bit 7 clear (rule R94). -/
theorem Spi.Sound.writeCtrl {p : Spi} (h : p.Sound) (c : Config) : (p.writeCtrl (ctrlWord c)).Sound := by
  obtain ⟨hd, hc, _, _⟩ := h
  obtain ⟨h7, h6, _, h4, _⟩ := ctrlWord_bits c
  rw [Spi.writeCtrl_ctrlWord]
  exact ⟨hd, hc, fun _ => ⟨h6, h4⟩, h7⟩

theorem Spi.Sound.linkComplete {p : Spi} (h : p.Sound) (r : Byte) : (p.linkComplete r).Sound := by
  unfold Spi.linkComplete
  split
  · exact h
  · obtain ⟨_, hc, _, h7⟩ := h
    exact ⟨fun _ => rfl, hc, fun hx => absurd rfl hx, h7⟩

theorem Spi.Sound.access {p : Spi} (h : p.Sound) (c : Config) (l : Label) : (l.access c p).Sound := by
  cases l with
  | ctrl => exact h.writeCtrl c
  | send x v => exact h.writeData v
  | poll x => exact h.arm
  | receive x => exact h.clearArmed
  | _ => exact h

theorem linkSound_movesKeep : MovesKeep (fun _ => True) LinkSound where
  micro s op l _ _ h := by
    rw [linkSound_iff, microLabel_spi]
    exact Spi.Sound.access h s.cfg l
  link _ r _ h := Spi.Sound.linkComplete h r

/-- Settles O51: every access of the SPI registers and LINK's step keep the registers sound. -/
theorem stepKeepsLinkSound : Obligations.StepKeepsLinkSound :=
  fun _ _ h hs => linkSound_movesKeep.step hs h

/-! ### What only grows -/

theorem emit_diag_grows (s : State) (tag : Tag) : s.diag <+: (s.emit tag).diag := by
  rw [State.emit_diag]
  split
  · exact ⟨_, rfl⟩
  · exact ⟨[], List.append_nil _⟩

/-- A micro-step removes no tag (rule R43). -/
theorem microLabel_diag_grows (op : Instr) (l : Label) (s : State) : s.diag <+: (microLabel op l s).diag := by
  cases l with
  | badCs => exact emit_diag_grows s .badCs
  | timedOut => exact emit_diag_grows s .timeout
  | _ => exact ⟨[], by rw [microLabel_diag _ _ _ (by simp) (by simp), List.append_nil]⟩

theorem diag_movesKeep (d : List Tag) : MovesKeep (fun _ => True) (fun s => d <+: s.diag) where
  micro s op l _ _ h := h.trans (microLabel_diag_grows op l s)

theorem select_trace_grows (s : State) : s.trace <+: s.select.trace := by
  simp only [State.select]
  split
  · split
    · exact ⟨[], List.append_nil _⟩
    · exact ⟨_, rfl⟩
  · exact ⟨[], List.append_nil _⟩

theorem unselect_trace_grows (s : State) : s.trace <+: s.unselect.trace := by
  simp only [State.unselect]
  split
  · split
    · exact ⟨[], List.append_nil _⟩
    · exact ⟨_, rfl⟩
  · exact ⟨[], List.append_nil _⟩

theorem microCsOut_trace_grows (op : Instr) (s : State) : s.trace <+: (microCsOut op s).trace := by
  have he (u : State) : (enterInitializeOnce op u).trace = u.trace := by
    obtain ⟨_, h⟩ | ⟨_, h⟩ := enterInitializeOnce_cases op u <;> rw [h] <;> rfl
  rw [microCsOut, he]
  split
  · exact ⟨[], List.append_nil _⟩
  · exact ⟨_, rfl⟩

/-- A micro-step removes no wire event (rule R80). -/
theorem microLabel_trace_grows (op : Instr) (l : Label) (s : State) : s.trace <+: (microLabel op l s).trace := by
  cases l with
  | csOut => exact microCsOut_trace_grows op s
  | select => exact select_trace_grows s
  | send x v => exact ⟨_, rfl⟩
  | unselect ok => exact unselect_trace_grows s
  | _ => exact ⟨[], by rw [microLabel_trace _ _ _ (by simp) (by simp) (by simp) (by simp), List.append_nil]⟩

theorem trace_movesKeep (w : List WireEvent) : MovesKeep (fun _ => True) (fun s => w <+: s.trace) where
  micro s op l _ _ h := h.trans (microLabel_trace_grows op l s)
  link _ _ _ h := h.trans (⟨_, rfl⟩)

/-- A micro-step clears no direction bit (rule R32). -/
theorem microLabel_dirBit_kept {s : State} (hm : s.gpioDir.wf = true) (op : Instr) (l : Label) {k b : Nat}
    (h : (s.dirReg k).getLsbD b = true) : ((microLabel op l s).dirReg k).getLsbD b = true := by
  obtain e | ⟨k', b', e, _⟩ := microLabel_gpioDir_cases op l s
  · rwa [State.dirReg, e]
  · rw [State.dirReg, e]
    exact (setDir_bit hm k' b' k b).trans (by simp [h])

theorem dirBit_movesKeep (k b : Nat) : MovesKeep MemoryCanonical (fun s => (s.dirReg k).getLsbD b = true) where
  micro _ op l _ := fun ⟨_, hd, _⟩ h => microLabel_dirBit_kept hd op l h

/-- Settles O53: no move changes a parameter, shortens a log or clears a direction bit. -/
theorem parametersFixedAndLogsOnlyGrow : Obligations.ParametersFixedAndLogsOnlyGrow :=
  fun s _ hm hs =>
    ⟨step_cfg hs, (diag_movesKeep s.diag).step hs ⟨[], List.append_nil _⟩,
      (trace_movesKeep s.trace).step hs ⟨[], List.append_nil _⟩,
      fun k b hb => ((memoryCanonical_movesKeep.and (dirBit_movesKeep k b)).step hs ⟨hm, hb⟩).2⟩

end Sys2Proof.Machine
end
section
/-!
PROOFS. The bus and its latch: programmed exactly when the latch says so (O22), and never again (O23).
-/
namespace Sys2Proof.Machine

theorem nextBusPin_cases (c : Config) (n : Nat) : nextBusPin c n = .busPin n ∨ nextBusPin c n = .ctrl := by
  unfold nextBusPin
  split
  · exact .inl rfl
  · exact .inr rfl

theorem nextBusPin_ne_status (c : Config) (n : Nat) : nextBusPin c n ≠ .status := by
  obtain h | h := nextBusPin_cases c n <;> simp [h]

/-- After `configureChipSelect` `BEGIN` ends, when the bus is initialised, or enters `initializeOnce` (rule R119). -/
theorem microCsOut_phase (op : Instr) (s : State) : (microCsOut op s).eng.phase =
    if s.busInit = true then .ready else .busy op (nextBusPin s.cfg 0) := by
  simp only [microCsOut, enterInitializeOnce]
  cases s.curHandle.bank <;> cases hi : s.busInit <;> simp [hi, State.finishBegin]

/-- Outside `BEGIN` a micro-step ends the operation or leads to a label outside `BEGIN`. -/
theorem microLabel_outside_begin {op : Instr} {l : Label} (s : State) (hl : l.ofBegin = false) :
    (microLabel op l s).eng.phase = .ready ∨
    ∃ l', (microLabel op l s).eng.phase = .busy op l' ∧ l'.ofBegin = false := by
  by_cases hs : l = .select
  · subst hs
    exact .inr ⟨_, rfl, rfl⟩
  by_cases hu : ∃ ok, l = .unselect ok
  · obtain ⟨ok, rfl⟩ := hu
    exact .inl rfl
  · obtain ⟨l', hp, hb, _⟩ := microLabel_within s hl hs fun ok e => hu ⟨ok, e⟩
    exact .inr ⟨l', hp, hb⟩

/-- Only the control register's write leads to the status register's (rule R124). -/
theorem microLabel_status_of_ctrl {op op' : Instr} {l : Label} {s : State}
    (h : (microLabel op l s).eng.phase = .busy op' .status) : l = .ctrl := by
  cases hb : l.ofBegin with
  | false =>
    obtain hp | ⟨l', hp, hl'⟩ := microLabel_outside_begin (op := op) s hb
    · rw [hp] at h; cases h
    · rw [hp] at h; cases h; cases hl'
  | true =>
    cases l with
    | ctrl => rfl
    | csOut =>
      rw [microLabel, microCsOut_phase] at h
      split at h
      · cases h
      · injection h with _ h
        exact absurd h (nextBusPin_ne_status _ _)
    | busPin n =>
      injection h with _ h
      exact absurd h (nextBusPin_ne_status _ _)
    | badCs | csDir | status => cases h
    | _ => cases hb

/-- With the latch set no micro-step enters `initializeOnce` (rules R119, R125). -/
theorem microLabel_not_initialize {op op' : Instr} {l l' : Label} {s : State} (hi : s.busInit = true)
    (hl : l.ofInitialize = false) (h : (microLabel op l s).eng.phase = .busy op' l') : l'.ofInitialize = false := by
  cases hb : l.ofBegin with
  | false =>
    obtain hp | ⟨l'', hp, hl''⟩ := microLabel_outside_begin (op := op) s hb
    · rw [hp] at h; cases h
    · rw [hp] at h; cases h; exact Label.ofInitialize_of_ofBegin hl''
  | true =>
    cases l with
    | csOut =>
      rw [microLabel, microCsOut_phase, if_pos hi] at h
      cases h
    | csDir => cases h; rfl
    | badCs => cases h
    | busPin | ctrl | status => cases hl
    | _ => cases hb

theorem microLabel_busProgrammed {s : State} {op : Instr} {l : Label} (hp : s.eng.phase = .busy op l)
    (h : BusProgrammed s) : BusProgrammed (microLabel op l s) := by
  obtain ⟨hset, hclear⟩ := h
  cases hi : s.busInit with
  | true =>
    obtain ⟨hc, hd, hl⟩ := hset hi
    have hl := hl op l hp
    have hnc : l ≠ .ctrl := by rintro rfl; cases hl
    have hns : l ≠ .status := by rintro rfl; cases hl
    refine ⟨fun _ => ⟨?_, ?_, fun _ _ h => microLabel_not_initialize hi hl h⟩, fun h => ?_⟩
    · rw [microLabel_spi_ctrl _ _ _ hnc, hc, microLabel_cfg]
    · rw [microLabel_spi_dbl _ _ _ hns, hd, microLabel_cfg]
    · rw [microLabel_busInit _ _ _ hns, hi] at h; cases h
  | false =>
    obtain ⟨hd, hstatus, hother⟩ := hclear hi
    by_cases hs : l = .status
    · subst hs
      exact ⟨fun _ => ⟨hstatus op hp, statusWord_bit _, fun _ _ h => (by cases h)⟩, fun h => (by cases h)⟩
    have hi' : (microLabel op l s).busInit = false := (microLabel_busInit _ _ _ hs).trans hi
    refine ⟨fun h => (by rw [hi'] at h; cases h), fun _ => ⟨(microLabel_spi_dbl _ _ _ hs).trans hd, ?_, ?_⟩⟩
    · intro _ h
      obtain rfl := microLabel_status_of_ctrl h
      rw [microLabel_spi, Label.access, Spi.writeCtrl_ctrlWord, microLabel_cfg]
    · intro h
      have hc : l ≠ .ctrl := by rintro rfl; exact h op rfl
      rw [microLabel_spi_ctrl _ _ _ hc]
      exact hother fun op' h' => by rw [hp] at h'; cases h'; exact hs rfl

/-- `BusProgrammed` passes to a state with the same registers and the same phase, or one that has just left a ready port for
a label outside `initializeOnce`. -/
theorem busProgrammed_of_phase {s u : State} (hc : u.cfg = s.cfg) (hi : u.busInit = s.busInit)
    (h6 : u.spi.ctrl = s.spi.ctrl) (h0 : u.spi.dbl = s.spi.dbl)
    (hp : u.eng.phase = s.eng.phase ∨ ∃ op l, s.eng.phase = .ready ∧ u.eng.phase = .busy op l ∧ l.ofInitialize = false)
    (h : BusProgrammed s) : BusProgrammed u := by
  unfold BusProgrammed at *
  rw [hc, hi, h6, h0]
  obtain hp | ⟨op, l, hr, hb, hl⟩ := hp
  · rwa [hp]
  · have hns : l ≠ .status := by rintro rfl; cases hl
    obtain ⟨hset, hclear⟩ := h
    refine ⟨fun hi => ?_, fun hi => ?_⟩
    · obtain ⟨h1, h2, _⟩ := hset hi
      exact ⟨h1, h2, fun op' l' e => by rw [hb] at e; cases e; exact hl⟩
    · obtain ⟨h1, _, h3⟩ := hclear hi
      refine ⟨h1, fun op' e => ?_, fun _ => h3 fun op' e => ?_⟩
      · rw [hb] at e; cases e; exact absurd rfl hns
      · rw [hr] at e; cases e

theorem busProgrammed_movesKeep : MovesKeep (fun _ => True) BusProgrammed where
  micro _ _ _ hp _ h := microLabel_busProgrammed hp h
  link _ _ _ := busProgrammed_of_phase rfl rfl (by simp) (by simp) (.inl rfl)
  begins s h hp _ _ _ := busProgrammed_of_phase rfl rfl rfl rfl
    (.inr ⟨_, _, hp, rfl, by cases (s.handle h).valid <;> rfl⟩)
  selects _ _ _ hp _ _ _ _ := busProgrammed_of_phase rfl rfl rfl rfl (.inr ⟨_, _, hp, rfl, rfl⟩)

/-- Settles O22: only the two register writes of step 4 touch the elements it speaks of, and with the latch set no label
leads to them. -/
theorem stepKeepsBusProgrammed : Obligations.StepKeepsBusProgrammed :=
  fun _ _ h hs => busProgrammed_movesKeep.step hs h

/-- No move clears the latch (rule R40). -/
theorem latch_movesKeep : MovesKeep (fun _ => True) (fun s => s.busInit = true) where
  micro s op l _ _ h := by
    by_cases hl : l = .status
    · subst hl; rfl
    · rw [microLabel_busInit _ _ _ hl]; exact h

/-- Settles O23: before and after the step the two registers hold the values computed from the same parameters. -/
theorem initialisedBusIsNeverReprogrammed : Obligations.InitialisedBusIsNeverReprogrammed := by
  intro s t h hi hs
  have hi' := latch_movesKeep.step hs hi
  obtain ⟨hc, hd, _⟩ := h.1 hi
  obtain ⟨hc', hd', _⟩ := (busProgrammed_movesKeep.step hs h).1 hi'
  rw [step_cfg hs] at hc' hd'
  exact ⟨hi', hc'.trans hc.symm, hd'.trans hd.symm⟩

end Sys2Proof.Machine
end
section
/-!
PROOFS. The sequencer's invariants: selection and the sequencer agree (O48), and the loop index stays below the length of
the operation (O50).
-/
namespace Sys2Proof.Machine

/-! ### Selection -/

/-- `SelectionPaired` at a ready port. -/
theorem selectionPaired_ready {s : State} (hp : s.eng.phase = .ready) :
    SelectionPaired s ↔ s.eng.txn = .idle := by
  simp only [SelectionPaired, hp]

/-- `SelectionPaired` in `BEGIN`. -/
theorem selectionPaired_begin {s : State} {op : Instr} {l : Label} (hp : s.eng.phase = .busy op l)
    (hl : l.ofBegin = true) : SelectionPaired s ↔ s.eng.txn = .idle := by
  simp only [SelectionPaired, hp, hl, if_true]

/-- `SelectionPaired` before `select`. -/
theorem selectionPaired_select {s : State} {op : Instr} (hp : s.eng.phase = .busy op .select) :
    SelectionPaired s ↔ s.eng.txn = .idle ∧ CurDrives s := by
  simp only [SelectionPaired, hp]
  exact Iff.rfl

/-- `SelectionPaired` from `select` to `unselect`. -/
theorem selectionPaired_within {s : State} {op : Instr} {l : Label} (hp : s.eng.phase = .busy op l)
    (hl : l.ofBegin = false) (hs : l ≠ .select) :
    SelectionPaired s ↔ s.eng.txn = .selected s.eng.cur ∧ CurDrives s ∧ s.cs s.eng.cur = false := by
  simp only [SelectionPaired, hp, hl, if_neg hs, Bool.false_eq_true, if_false]

theorem microLabel_curDrives {s : State} (op : Instr) (l : Label) (h : CurDrives s) : CurDrives (microLabel op l s) := by
  simpa [CurDrives, Drives] using h

/-- `select` lowers the line of a handle that drives one and enters `Selected` (rules R44, R130). -/
theorem microSelect_paired {s : State} (op : Instr) (hm : s.gpioOut.wf = true) (hd : CurDrives s) :
    SelectionPaired (microLabel op .select s) := by
  have hd' := microLabel_curDrives op .select hd
  obtain ⟨k, b, hd⟩ := hd
  have ht : s.select.eng.txn = .selected s.eng.cur := by rw [select_of_drives hd]; rfl
  have hc : s.select.eng.cur = s.eng.cur := by rw [select_of_drives hd]; rfl
  have hcs := select_cs hm hd
  rw [← hc] at ht hcs
  exact (selectionPaired_within (op := op) rfl rfl (by simp)).mpr ⟨ht, hd', hcs⟩

/-- `unselect` of a handle that drives a line enters `Idle` (rules R44, R131). -/
theorem microUnselect_paired {s : State} (op : Instr) (ok : Bool) (hd : CurDrives s) :
    SelectionPaired (microLabel op (.unselect ok) s) := by
  obtain ⟨k, b, hd⟩ := hd
  have ht : s.unselect.eng.txn = .idle := by rw [unselect_of_drives hd]; rfl
  exact (selectionPaired_ready rfl).mpr ht

/-- Between `select` and `unselect` a micro-step leaves the selection and the line alone (rule R142). -/
theorem microLabel_within_paired {s : State} (op : Instr) {l : Label} (hb : l.ofBegin = false) (hs : l ≠ .select)
    (hu : ∀ ok, l ≠ .unselect ok)
    (h : s.eng.txn = .selected s.eng.cur ∧ CurDrives s ∧ s.cs s.eng.cur = false) :
    SelectionPaired (microLabel op l s) := by
  obtain ⟨ht, hd, hc⟩ := h
  obtain ⟨l', hp, hb', hs'⟩ := microLabel_within (op := op) s hb hs hu
  have ho := microLabel_gpioOut op l s (by rintro rfl; cases hb) hs hu
  refine (selectionPaired_within hp hb' hs').mpr ⟨?_, microLabel_curDrives op l hd, ?_⟩
  · rw [microLabel_eng_txn _ _ _ hs hu, microLabel_cur]; exact ht
  · simpa [State.cs, State.outReg, ho] using hc

/-- In `BEGIN` a micro-step leaves the engine idle (rule R142). -/
theorem microLabel_begin_paired {s : State} (op : Instr) {l : Label} (hb : l.ofBegin = true)
    (h : s.eng.txn = .idle) : SelectionPaired (microLabel op l s) := by
  have ht := microLabel_eng_txn op l s (by rintro rfl; cases hb) (by rintro _ rfl; cases hb)
  obtain hp | ⟨l', hp, hb'⟩ := microLabel_begin (op := op) s hb
  · exact (selectionPaired_ready hp).mpr (ht.trans h)
  · exact (selectionPaired_begin hp hb').mpr (ht.trans h)

theorem microLabel_selectionPaired {s : State} {op : Instr} {l : Label} (hp : s.eng.phase = .busy op l)
    (hm : MemoryCanonical s) (h : SelectionPaired s) : SelectionPaired (microLabel op l s) := by
  cases hb : l.ofBegin with
  | true => exact microLabel_begin_paired op hb ((selectionPaired_begin hp hb).mp h)
  | false =>
    by_cases hs : l = .select
    · subst hs
      exact microSelect_paired op hm.1 ((selectionPaired_select hp).mp h).2
    have hw := (selectionPaired_within hp hb hs).mp h
    by_cases hu : ∃ ok, l = .unselect ok
    · obtain ⟨ok, rfl⟩ := hu
      exact microUnselect_paired op ok hw.2.1
    · exact microLabel_within_paired op hb hs (fun ok e => hu ⟨ok, e⟩) hw

/-- A valid, sound handle drives a line (rules R26 to R28). -/
theorem drives_of_valid {s : State} {h : Slot} (hs : HandlesSound s) (hc : (s.handle h).constructed = true)
    (hv : (s.handle h).valid = true) : ∃ k b, Drives s h k b := by
  obtain ⟨hiff, _⟩ := hs h hc
  obtain ⟨hb, h8⟩ := hiff.mp hv
  obtain ⟨k, hk⟩ := Option.ne_none_iff_exists'.mp hb
  exact ⟨k, _, hv, hk, rfl, h8⟩

theorem selectionPaired_movesKeep : MovesKeep (fun s => MemoryCanonical s ∧ HandlesSound s) SelectionPaired where
  micro _ _ _ hp hq h := microLabel_selectionPaired hp hq.1 h
  opened s i hp _ h := (selectionPaired_ready (s := s.openOp i) hp).mpr ((selectionPaired_ready hp).mp h)
  construct s g x inv _ hp _ _ _ h :=
    (selectionPaired_ready (s := s.setHandle g _) hp).mpr ((selectionPaired_ready hp).mp h)
  begins s g hp _ _ _ h := by
    refine (selectionPaired_begin rfl ?_).mpr ((selectionPaired_ready hp).mp h)
    cases (s.handle g).valid <;> rfl
  selects s i _ hp hcur hc hv hq h := by
    obtain ⟨k, b, hd⟩ := drives_of_valid hq.2 hc hv
    exact (selectionPaired_select rfl).mpr ⟨(selectionPaired_ready hp).mp h, k, b, hcur ▸ hd⟩

/-- Settles O48, label by label: `select` and `unselect` alone change the selection and the line. -/
theorem stepKeepsSelectionPaired : Obligations.StepKeepsSelectionPaired := by
  refine ⟨fun s hm _ h => ?_, fun _ _ h => h, fun _ _ h => h, fun s t hm hh h hs => ?_⟩
  · cases hp : s.eng.phase with
    | ready => rwa [microStep, hp]
    | busy op l => rw [microStep_busy hp]; exact microLabel_selectionPaired hp hm h
  · exact (((memoryCanonical_movesKeep.and (handlesSound_movesKeep.mono fun _ _ => trivial)).and
      selectionPaired_movesKeep).step hs ⟨⟨hm, hh⟩, h⟩).2

/-! ### The loop index -/

/-- While a byte of the byte loop is under way its index is below the operation's length (rule R45). -/
def IndexBelow (s : State) : Prop :=
  ∀ op l, s.eng.phase = .busy op l → l.ofByte = true → s.eng.idx < byteCount op

theorem indexBelow_of_goto {s : State} {op : Instr} {l : Label} (hp : s.eng.phase = .busy op l)
    (h : l.ofByte = true → s.eng.idx < byteCount op) : IndexBelow s := by
  intro op' l' e hl
  rw [hp] at e
  cases e
  exact h hl

theorem indexBelow_of_ready {s : State} (hp : s.eng.phase = .ready) : IndexBelow s := by
  intro op l e
  rw [hp] at e
  cases e

/-- The loop goes on to a byte only below the length (rules R137, R139). -/
theorem loopHead_indexBelow (op : Instr) (s : State) : IndexBelow (loopHead op s) := by
  obtain ⟨h, _⟩ | ⟨h, _⟩ | ⟨h, _, hi⟩ | ⟨h, _, hi, _⟩ | ⟨v, h, _, hi, _⟩ := loopHead_cases op s <;> rw [h]
  · exact indexBelow_of_goto rfl (by simp [Label.ofByte])
  · exact indexBelow_of_goto rfl (by simp [Label.ofByte])
  · exact indexBelow_of_goto rfl fun _ => hi
  · exact indexBelow_of_goto rfl fun _ => hi
  · exact indexBelow_of_goto rfl fun _ => hi

theorem afterExchange_indexBelow (op : Instr) (x : Exchange) (r : Byte) {s : State}
    (h : x = .byte → s.eng.idx < byteCount op) : IndexBelow (afterExchange op x r s) := by
  cases x with
  | cmd => exact loopHead_indexBelow _ _
  | byte =>
    simp only [afterExchange]
    split
    · exact indexBelow_of_goto rfl (by simp [Label.ofByte])
    · exact loopHead_indexBelow _ _
    · split
      · exact loopHead_indexBelow _ _
      · exact indexBelow_of_goto rfl fun _ => h rfl

theorem Label.ofByte_of_ofBegin {l : Label} (h : l.ofBegin = true) : l.ofByte = false := by
  cases l with
  | badCs | csDir | csOut | busPin | ctrl | status => rfl
  | _ => cases h

/-- In `BEGIN` no byte is under way. -/
theorem microLabel_begin_indexBelow {s : State} (op : Instr) {l : Label} (hb : l.ofBegin = true) :
    IndexBelow (microLabel op l s) := by
  obtain hp | ⟨l', hp, hb'⟩ := microLabel_begin (op := op) s hb
  · exact indexBelow_of_ready hp
  · exact indexBelow_of_goto hp (by simp [Label.ofByte_of_ofBegin hb'])

theorem microLabel_indexBelow {s : State} {op : Instr} {l : Label} (hp : s.eng.phase = .busy op l) (h : IndexBelow s) :
    IndexBelow (microLabel op l s) := by
  have hi := h op l hp
  cases l with
  | badCs | csDir | csOut | busPin | ctrl | status => exact microLabel_begin_indexBelow op rfl
  | select => exact indexBelow_of_goto rfl (by simp [Label.ofByte])
  | load => exact indexBelow_of_goto rfl fun _ => hi rfl
  | send x v => cases x <;> exact indexBelow_of_goto rfl hi
  | sample x => cases x <;> exact indexBelow_of_goto rfl hi
  | poll x =>
    simp only [microLabel, microPoll]
    split
    · exact indexBelow_of_goto rfl (by simp [Label.ofByte])
    · split
      · cases x <;> exact indexBelow_of_goto rfl hi
      · cases x <;> exact indexBelow_of_goto rfl hi
  | receive x => exact afterExchange_indexBelow op x _ fun e => hi (by rw [e]; rfl)
  | clock x =>
    simp only [microLabel, microClock]
    split
    · exact indexBelow_of_goto rfl (by simp [Label.ofByte])
    · cases x <;> exact indexBelow_of_goto rfl hi
  | timedOut | tailStart => exact indexBelow_of_goto rfl (by simp [Label.ofByte])
  | store r => exact loopHead_indexBelow _ _
  | settleStart => exact indexBelow_of_goto rfl fun _ => hi rfl
  | settleWait =>
    simp only [microLabel, microDelayWait]
    split
    · exact indexBelow_of_goto rfl fun _ => hi rfl
    · exact indexBelow_of_goto rfl fun _ => hi rfl
  | tailWait =>
    simp only [microLabel, microDelayWait]
    split
    · exact indexBelow_of_goto rfl (by simp [Label.ofByte])
    · exact indexBelow_of_goto rfl (by simp [Label.ofByte])
  | unselect ok => exact indexBelow_of_ready rfl

/-- Every length fits the operand of a buffer transfer (rules R41, R105). -/
theorem byteCount_le (op : Instr) : byteCount op ≤ 255 := by
  cases op with
  | writeN _ _ len | readN _ _ len => exact Nat.le_of_lt_succ len.isLt
  | _ => simp [byteCount]

/-- A store is below the length of its operation, so below index 255 (rules R45, R56). -/
theorem microLabel_indexInRange {s : State} {op : Instr} {l : Label} (hp : s.eng.phase = .busy op l)
    (h : IndexInRange s) : IndexInRange (microLabel op l s) := by
  obtain ⟨hi, hu⟩ := h
  refine ⟨microLabel_indexBelow hp hi, fun i h255 => ?_⟩
  obtain e | ⟨r, rfl, e⟩ := microLabel_buf_cases op l s
  · rw [State.bufByte, e]; exact hu i h255
  · have hlt := hi op _ hp rfl
    have hle := byteCount_le op
    rw [State.bufByte, e, Memory.write_read_other _ (by omega)]
    exact hu i h255

theorem indexInRange_movesKeep : MovesKeep (fun _ => True) IndexInRange where
  micro _ _ _ hp _ h := microLabel_indexInRange hp h
  fill s i v _ := fun ⟨hi, hu⟩ => ⟨hi, fun j hj => by
    rw [State.bufByte, State.setBuf_buf, Memory.write_read_other _ (by omega)]
    exact hu j hj⟩
  begins s g _ _ _ _ h := ⟨indexBelow_of_goto rfl (by cases (s.handle g).valid <;> simp [Label.ofByte]), h.2⟩
  selects s i _ _ _ _ _ _ h := ⟨indexBelow_of_goto rfl (by simp [Label.ofByte]), h.2⟩

/-- Settles O50: the loop head alone leads to a byte, and tests the index. -/
theorem stepKeepsIndexInRange : Obligations.StepKeepsIndexInRange :=
  ⟨fun _ _ _ hp h => by rw [microStep_busy hp]; exact microLabel_indexInRange hp h, fun _ _ h => h, fun _ _ h => h,
    fun _ _ h hs => indexInRange_movesKeep.step hs h⟩

end Sys2Proof.Machine
end
section
/-!
PROOFS. What a step runs, and the frames: GPIO bits that are nobody's (O54), the frame of a transaction (O43), and `BUF`
(O44).
-/
namespace Sys2Proof.Machine

/-! ### What an operation runs -/

/-- An accepted operation answers at once, constructs, or runs from its first label: one of `BEGIN`, or `select` of a
transaction on a valid handle. -/
theorem opBody_next_cases {i : Instr} {s t : State} (h : opBody i s = .next t) :
    (∃ r, t = s.respond r) ∨ (∃ g x inv, t = construct g x inv s) ∨
    (∃ l, complete (s.goto i l) = .next t ∧
      (l.ofBegin = true ∨ (l = .select ∧ (s.handle i.slot).valid = true))) := by
  by_cases hi : isTransaction i = true
  · rw [opBody_transaction hi] at h
    split at h
    · next hv => exact .inr (.inr ⟨.select, h, .inr ⟨rfl, hv⟩⟩)
    · injection h with h; exact .inl ⟨_, h.symm⟩
  · cases i with
    | constructPin | constructExplicit => injection h with h; exact .inr (.inl ⟨_, _, _, h.symm⟩)
    | isConnected => injection h with h; exact .inl ⟨_, h.symm⟩
    | begin g => exact .inr (.inr ⟨_, h, .inl (by cases (s.handle g).valid <;> rfl)⟩)
    | command | write1 | writeN | read1 | readN => exact absurd rfl hi

/-- What `exec` runs, if anything (rules R104, R117, R128). -/
theorem exec_run_cases {i : Instr} {s t : State} (h : exec i s = .next t) :
    (∃ r, t = s.respond r ∨ t = (s.openOp i).respond r) ∨ (∃ g x inv, t = construct g x inv (s.openOp i)) ∨
    (∃ l, complete ((s.openOp i).goto i l) = .next t ∧
      (l.ofBegin = true ∨ (l = .select ∧ (s.handle i.slot).valid = true))) := by
  obtain ⟨_, _, ⟨_, rfl⟩ | ⟨_, hb⟩⟩ := exec_next_cases h
  · exact .inl ⟨_, .inl rfl⟩
  · obtain ⟨r, rfl⟩ | hc | hr := opBody_next_cases hb
    · exact .inl ⟨r, .inr rfl⟩
    · exact .inr (.inl hc)
    · exact .inr (.inr hr)

/-- An accepted transaction on a valid handle is the run from `select` (rule R128). -/
theorem exec_of_valid {op : Instr} {s : State} (hop : isTransaction op = true) (ha : Accepts s op)
    (hv : (s.handle op.slot).valid = true) : exec op s = complete ((s.openOp op).goto op .select) := by
  rw [exec_of_accepts ha, opBody_transaction hop]
  exact if_pos hv

/-- The same parameters, handles and memories. -/
def SameMemories (s u : State) : Prop :=
  u.cfg = s.cfg ∧ u.handles = s.handles ∧ u.gpioOut = s.gpioOut ∧ u.gpioDir = s.gpioDir ∧ u.buf = s.buf

/-- At a ready port the turn taken while HOST waits writes no GPIO register. -/
theorem idleTurn_gpio {s : State} (hp : s.eng.phase = .ready) :
    (idleTurn s).gpioOut = s.gpioOut ∧ (idleTurn s).gpioDir = s.gpioDir := by
  obtain h | ⟨ts, h | ⟨r, h⟩ | ⟨d, h⟩⟩ := idleTurn_cases s <;> rw [h]
  · exact ⟨rfl, rfl⟩
  · simp [microStep, hp]
  · exact ⟨rfl, rfl⟩
  · exact ⟨rfl, rfl⟩

/-- A step writes no GPIO register, or it is the run of an operation that starts from the same handles and memories. -/
theorem step_gpio_cases {s t : State} (h : step s = .next t) :
    (t.gpioOut = s.gpioOut ∧ t.gpioDir = s.gpioDir) ∨ ∃ u, complete u = .next t ∧ SameMemories s u := by
  obtain ⟨_, ⟨op, l, _, hc⟩ | ⟨hp, hcase⟩⟩ := step_next_cases h
  · exact .inr ⟨s, hc, rfl, rfl, rfl, rfl, rfl⟩
  · obtain ⟨hs, rfl⟩ | ⟨i, v, hs, _, rfl⟩ | ⟨w, hs, e, _, _, rfl⟩ | ⟨w, hs, i, _, _, he⟩ := hcase
    · exact .inl (idleTurn_gpio (s := { s with host := hs }) hp)
    · exact .inl ⟨rfl, rfl⟩
    · exact .inl ⟨rfl, rfl⟩
    · obtain ⟨r, rfl | rfl⟩ | ⟨g, x, inv, rfl⟩ | ⟨l, hc, _⟩ := exec_run_cases he
      · exact .inl ⟨rfl, rfl⟩
      · exact .inl ⟨rfl, rfl⟩
      · exact .inl ⟨rfl, rfl⟩
      · exact .inr ⟨_, hc, rfl, rfl, rfl, rfl, rfl⟩

/-! ### Bits that are not the running handle's -/

/-- A micro-step leaves every output bit alone but the running handle's (rule R69). -/
theorem microLabel_outBit_other {s : State} (hm : s.gpioOut.wf = true) (op : Instr) (l : Label) {k b : Nat}
    (hf : s.curHandle.bank = some k → s.curHandle.pin.toNat ≠ b) :
    ((microLabel op l s).outReg k).getLsbD b = (s.outReg k).getLsbD b := by
  obtain e | ⟨k', hk, e⟩ := microLabel_gpioOut_cases op l s
  · rw [State.outReg, e, State.outReg]
  · have hne : (k, b) ≠ (k', s.curHandle.pin.toNat) := by
      rintro e
      injection e with e1 e2
      exact hf (e1 ▸ hk) e2.symm
    obtain e | e := e <;> rw [State.outReg, e]
    · exact (setOut_bit hm k' _ k b).trans (by simp [hne])
    · exact (clrOut_bit hm k' _ k b).trans (by simp [hne])

/-- A micro-step leaves every direction bit alone but the running handle's and the bus output pins' (rules R32, R69). -/
theorem microLabel_dirBit_other {s : State} (hm : s.gpioDir.wf = true) (op : Instr) (l : Label) {k b : Nat}
    (hf : s.curHandle.bank = some k → s.curHandle.pin.toNat ≠ b) (hn : (k, b) ∉ s.cfg.busOutPins) :
    ((microLabel op l s).dirReg k).getLsbD b = (s.dirReg k).getLsbD b := by
  obtain e | ⟨k', b', e, hkb⟩ := microLabel_gpioDir_cases op l s
  · rw [State.dirReg, e, State.dirReg]
  · have hne : (k, b) ≠ (k', b') := by
      rintro e
      injection e with e1 e2
      subst e1 e2
      obtain ⟨hk, hb⟩ | hin := hkb
      · exact hf hk hb
      · exact hn hin
    rw [State.dirReg, e]
    exact (setDir_bit hm k' b' k b).trans (by simp [hne])

/-- `(k, b)` is no handle's bit. -/
def Foreign (s : State) (k b : Nat) : Prop := ∀ h, (s.handle h).bank = some k → (s.handle h).pin.toNat ≠ b

/-- What the run of an operation keeps of a foreign bit. -/
structure ForeignKept (s : State) (k b : Nat) (u : State) : Prop where
  canonical : MemoryCanonical u
  foreign : Foreign u k b
  pins : u.cfg.busOutPins = s.cfg.busOutPins
  out : (u.outReg k).getLsbD b = (s.outReg k).getLsbD b
  dir : (k, b) ∉ s.cfg.busOutPins → (u.dirReg k).getLsbD b = (s.dirReg k).getLsbD b

theorem ForeignKept.micro {s u : State} {k b : Nat} (h : ForeignKept s k b u) (op : Instr) (l : Label) :
    ForeignKept s k b (microLabel op l u) := by
  obtain ⟨hm, hf, hp, ho, hd⟩ := h
  refine ⟨microLabel_memoryCanonical op l hm, by simpa [Foreign] using hf, by simpa using hp,
    (microLabel_outBit_other hm.1 op l (hf u.eng.cur)).trans ho, fun hn => ?_⟩
  exact (microLabel_dirBit_other hm.2.1 op l (hf u.eng.cur) (hp ▸ hn)).trans (hd hn)

/-- Settles O54: every GPIO write of a run is to the running handle's bit or to a bus output pin. -/
theorem foreignGpioBitsNeverChange : Obligations.ForeignGpioBitsNeverChange := by
  intro s t k b hm hs hf
  obtain ⟨ho, hd⟩ | ⟨u, hc, hcfg, hh, ho, hd, hb⟩ := step_gpio_cases hs
  · simp [State.outReg, State.dirReg, ho, hd]
  · have h0 : ForeignKept s k b u := by
      refine ⟨?_, ?_, ?_, ?_, fun _ => ?_⟩
      · simpa [MemoryCanonical, ho, hd, hb] using hm
      · simpa [Foreign, State.handle, hh] using hf
      · rw [hcfg]
      · simp [State.outReg, ho]
      · simp [State.dirReg, hd]
    have h := complete_keeps (P := ForeignKept s k b) (fun _ op l _ h => h.micro op l)
      (fun _ _ h => ⟨h.1, h.2, h.3, h.4, h.5⟩) (fun _ _ h => ⟨h.1, h.2, h.3, h.4, h.5⟩) (fun _ _ h => ⟨h.1, h.2, h.3, h.4, h.5⟩) hc h0
    exact ⟨h.out, h.dir⟩

/-! ### The frame of a transaction -/

/-- What the run of a transaction of slot `h`, on bit `b` of bank `k`, keeps on its way from `s` to `u`. -/
structure TransactionFrame (s : State) (h : Slot) (k b : Nat) (u : State) : Prop where
  canonical : MemoryCanonical u
  cur : u.eng.cur = h
  label : ∀ op l, u.eng.phase = .busy op l → l.ofBegin = false
  keeps : TransactionKeeps s u
  out : OutKeptBut s u k b

/-- No label outside `BEGIN` writes what `TransactionKeeps` lists (rule R57). -/
theorem microLabel_transactionKeeps (op : Instr) {l : Label} (s : State) (hl : l.ofBegin = false) :
    TransactionKeeps s (microLabel op l s) :=
  ⟨microLabel_cfg .., microLabel_handles .., microLabel_gpioDir _ _ _ (by rintro rfl; cases hl) (by rintro _ rfl; cases hl),
    microLabel_spi_ctrl _ _ _ (by rintro rfl; cases hl), microLabel_spi_dbl _ _ _ (by rintro rfl; cases hl),
    microLabel_busInit _ _ _ (by rintro rfl; cases hl), microLabel_cmd .., microLabel_host ..⟩

theorem TransactionKeeps.trans {s u v : State} (h : TransactionKeeps s u) (g : TransactionKeeps u v) :
    TransactionKeeps s v := by
  obtain ⟨h1, h2, h3, h4, h5, h6, h7, h8⟩ := h
  obtain ⟨g1, g2, g3, g4, g5, g6, g7, g8⟩ := g
  exact ⟨g1.trans h1, g2.trans h2, g3.trans h3, g4.trans h4, g5.trans h5, g6.trans h6, g7.trans h7, g8.trans h8⟩

theorem linkComplete_transactionKeeps (s : State) (r : Byte) : TransactionKeeps s (s.linkComplete r) :=
  ⟨rfl, rfl, rfl, Spi.linkComplete_ctrl _ _, Spi.linkComplete_dbl _ _, rfl, rfl, rfl⟩

theorem TransactionFrame.micro {s u : State} {h : Slot} {k b : Nat} (hk : (s.handle h).bank = some k)
    (hb : (s.handle h).pin.toNat = b) {op : Instr} {l : Label} (hp : u.eng.phase = .busy op l)
    (f : TransactionFrame s h k b u) : TransactionFrame s h k b (microLabel op l u) := by
  obtain ⟨hm, hcur, hlab, hkeep, hout⟩ := f
  have hl := hlab op l hp
  refine ⟨microLabel_memoryCanonical op l hm, by simpa using hcur, fun op' l' e => ?_,
    hkeep.trans (microLabel_transactionKeeps op u hl), fun k' b' hne => ?_⟩
  · obtain hr | ⟨l'', hr, hl''⟩ := microLabel_outside_begin (op := op) u hl <;> rw [hr] at e <;> cases e
    exact hl''
  · rw [← hout k' b' hne]
    have hx : u.curHandle = s.handle h := by
      rw [State.curHandle, hcur, State.handle, hkeep.2.1, State.handle]
    refine microLabel_outBit_other hm.1 op l fun e => ?_
    rw [hx, hk] at e
    rw [hx, hb]
    injection e with e
    obtain hne | hne := hne
    · exact absurd e.symm hne
    · exact hne.symm

/-- Settles O43: the run of a transaction never leaves the labels outside `BEGIN`, and of these only `select` and `unselect`
write a GPIO register. -/
theorem transactionsTouchOnlyTheirOwnPin : Obligations.TransactionsTouchOnlyTheirOwnPin := by
  intro op s t k b hop ha hd hm hx
  obtain ⟨hv, hk, hb, _⟩ := hd
  rw [exec_of_valid hop ha hv] at hx
  have h0 : TransactionFrame s op.slot k b ((s.openOp op).goto op .select) :=
    ⟨hm, rfl, fun _ _ e => by cases e; rfl, ⟨rfl, rfl, rfl, rfl, rfl, rfl, rfl, rfl⟩, fun _ _ _ => rfl⟩
  have h := complete_keeps (P := TransactionFrame s op.slot k b) (fun _ _ _ hp f => f.micro hk hb hp)
    (fun u r f => ⟨f.canonical, f.cur, f.label, f.keeps.trans (linkComplete_transactionKeeps u r), f.out⟩)
    (fun _ _ f => ⟨f.canonical, f.cur, f.label, f.keeps, f.out⟩)
    (fun _ _ f => ⟨f.canonical, f.cur, f.label, f.keeps, f.out⟩) hx h0
  exact ⟨h.keeps, h.out⟩

/-! ### `BUF` -/

/-- The operation is `READN`. -/
def IsReadN (op : Instr) : Prop := ∃ h reg len, op = .readN h reg len

theorem isReadN_of_read {op : Instr} (hd : direction op = .read) (hp : privateResult op = false) : IsReadN op := by
  cases op with
  | readN h reg len => exact ⟨h, reg, len, rfl⟩
  | read1 => cases hp
  | _ => cases hd

/-- The operation `op` has ended, or it is under way, at a store only if it is a `READN` (rule R138). -/
def StoresInReadN (op : Instr) (s : State) : Prop :=
  s.eng.phase = .ready ∨ ∃ l, s.eng.phase = .busy op l ∧ ((∃ r, l = .store r) → IsReadN op)

theorem storesInReadN_goto {op : Instr} {s : State} {l : Label} (hp : s.eng.phase = .busy op l) (hl : ∀ r, l ≠ .store r) :
    StoresInReadN op s :=
  .inr ⟨l, hp, fun ⟨r, e⟩ => absurd e (hl r)⟩

theorem loopHead_storesInReadN (op : Instr) (s : State) : StoresInReadN op (loopHead op s) := by
  obtain ⟨h, _⟩ | ⟨h, _⟩ | ⟨h, _⟩ | ⟨h, _⟩ | ⟨v, h, _⟩ := loopHead_cases op s <;> rw [h] <;>
    exact storesInReadN_goto rfl (by simp)

theorem afterExchange_storesInReadN (op : Instr) (x : Exchange) (r : Byte) (s : State) :
    StoresInReadN op (afterExchange op x r s) := by
  cases x with
  | cmd => exact loopHead_storesInReadN _ _
  | byte =>
    simp only [afterExchange]
    split
    · exact storesInReadN_goto rfl (by simp)
    · exact loopHead_storesInReadN _ _
    · next hd =>
      split
      · exact loopHead_storesInReadN _ _
      · next hp => exact .inr ⟨_, rfl, fun _ => isReadN_of_read hd (by simpa using hp)⟩

theorem microLabel_storesInReadN (op : Instr) (l : Label) (s : State) : StoresInReadN op (microLabel op l s) := by
  cases l with
  | badCs | status | unselect => exact .inl rfl
  | csOut =>
    rw [microLabel, StoresInReadN, microCsOut_phase]
    split
    · exact .inl rfl
    · refine .inr ⟨_, rfl, ?_⟩
      obtain h | h := nextBusPin_cases s.cfg 0 <;> simp [h]
  | busPin n =>
    refine storesInReadN_goto rfl ?_
    obtain h | h := nextBusPin_cases s.cfg (n + 1) <;> simp [h]
  | receive x => exact afterExchange_storesInReadN op x _ _
  | store r => exact loopHead_storesInReadN _ _
  | poll x =>
    simp only [microLabel, microPoll]
    split
    · exact storesInReadN_goto rfl (by simp)
    · split <;> exact storesInReadN_goto rfl (by simp)
  | clock x =>
    simp only [microLabel, microClock]
    split <;> exact storesInReadN_goto rfl (by simp)
  | settleWait | tailWait =>
    simp only [microLabel, microDelayWait]
    split <;> exact storesInReadN_goto rfl (by simp)
  | csDir | ctrl | select | load | send | sample | timedOut | settleStart | tailStart =>
    exact storesInReadN_goto rfl (by simp)

/-- What the run of `op` keeps of `BUF` on its way from `s` to `u`. -/
structure BufferFrame (s : State) (op : Instr) (u : State) : Prop where
  label : StoresInReadN op u
  index : IndexBelow u
  buf : ∀ a, u.bufByte a ≠ s.bufByte a → IsReadN op ∧ a < byteCount op

theorem BufferFrame.micro {s u : State} {op op' : Instr} {l : Label} (hp : u.eng.phase = .busy op' l)
    (f : BufferFrame s op u) : BufferFrame s op (microLabel op' l u) := by
  obtain ⟨hlab, hi, hbuf⟩ := f
  obtain hr | ⟨l', hp', hstore⟩ := hlab
  · rw [hr] at hp; cases hp
  rw [hp] at hp'
  cases hp'
  refine ⟨microLabel_storesInReadN _ _ _, microLabel_indexBelow hp hi, fun a ha => ?_⟩
  obtain e | ⟨r, rfl, e⟩ := microLabel_buf_cases op l u
  · exact hbuf a (by rwa [State.bufByte, e] at ha)
  · by_cases hai : a = u.eng.idx
    · exact ⟨hstore ⟨r, rfl⟩, hai ▸ hi op _ hp rfl⟩
    · rw [State.bufByte, e, Memory.write_read_other _ hai] at ha
      exact hbuf a ha

/-- Settles O44: the one micro-step that writes `BUF` is the store of a `READN`, at an index below the length. -/
theorem onlyReadNWritesTheBuffer : Obligations.OnlyReadNWritesTheBuffer := by
  intro i s t a hx ha
  obtain ⟨r, rfl | rfl⟩ | ⟨g, x, inv, rfl⟩ | ⟨l, hc, hl⟩ := exec_run_cases hx
  · exact absurd rfl ha
  · exact absurd rfl ha
  · exact absurd rfl ha
  · have hb : l.ofByte = false ∧ ∀ r, l ≠ .store r := by
      obtain hl | ⟨rfl, _⟩ := hl
      · exact ⟨Label.ofByte_of_ofBegin hl, by rintro r rfl; cases hl⟩
      · exact ⟨rfl, by simp⟩
    have h0 : BufferFrame s i ((s.openOp i).goto i l) :=
      ⟨storesInReadN_goto rfl hb.2, indexBelow_of_goto rfl (by simp [hb.1]), fun _ h => absurd rfl h⟩
    have h := complete_keeps (P := BufferFrame s i) (fun _ _ _ hp f => f.micro hp)
      (fun _ _ f => ⟨f.label, f.index, f.buf⟩) (fun _ _ f => ⟨f.label, f.index, f.buf⟩)
      (fun _ _ f => ⟨f.label, f.index, f.buf⟩) hc h0
    obtain ⟨⟨g, reg, len, rfl⟩, hlt⟩ := h.buf a ha
    exact ⟨g, reg, len, rfl, hlt⟩

end Sys2Proof.Machine
end
section
/-!
PROOFS. The link of an operation that starts clean, label by label, and that it is clean again when the operation answers
OK (O47).
-/
namespace Sys2Proof.Machine

/-- An exchange is under way: no collision, nothing armed, and not both in flight and complete (rules R64, R66). -/
def Spi.Exchanging (p : Spi) : Prop :=
  p.coll = false ∧ p.armDone = false ∧ p.armColl = false ∧ (p.xfer = none ∨ p.done = false)

/-- The completion was seen by a status read, which armed it (rule R61). -/
def Spi.Seen (p : Spi) : Prop := p.xfer = none ∧ p.coll = false ∧ p.armDone = true ∧ p.armColl = false

/-- The link before the micro-step of a label, in an operation that started on a clean link and has not failed. -/
def LinkAt (l : Label) (p : Spi) : Prop :=
  match l with
  | .sample _ | .poll _ | .clock _ => p.Exchanging
  | .receive _ => p.Seen
  | .timedOut | .unselect false => True
  | .badCs | .csDir | .csOut | .busPin _ | .ctrl | .status | .select | .load | .send _ _ | .store _ | .settleStart
  | .settleWait | .tailStart | .tailWait | .unselect true => p.Clean

/-! ### LINK's step -/

theorem Spi.linkComplete_of_idle {p : Spi} (h : p.xfer = none) (r : Byte) : p.linkComplete r = p := by
  simp [Spi.linkComplete, h]

theorem Spi.Exchanging.linkComplete {p : Spi} (h : p.Exchanging) (r : Byte) : (p.linkComplete r).Exchanging := by
  obtain ⟨hc, hd, hac, _⟩ := h
  exact ⟨by simpa using hc, by simpa using hd, by simpa using hac, .inl (by simp)⟩

theorem LinkAt.linkComplete {l : Label} {p : Spi} (h : LinkAt l p) (r : Byte) : LinkAt l (p.linkComplete r) := by
  cases l with
  | sample | poll | clock => exact Spi.Exchanging.linkComplete h r
  | receive => rw [Spi.linkComplete_of_idle h.1]; exact h
  | timedOut => trivial
  | unselect ok =>
    cases ok with
    | false => trivial
    | true => rw [Spi.linkComplete_of_idle h.1]; exact h
  | _ => rw [Spi.linkComplete_of_idle h.1]; exact h

/-! ### ENGINE's accesses -/

/-- A data write from a clean link starts a transfer or is ignored (rule R64). -/
theorem Spi.Clean.writeData {p : Spi} (h : p.Clean) (v : Byte) : (p.writeData v).Exchanging := by
  obtain ⟨hx, hd, hc, had, hac⟩ := h
  obtain ⟨_, e, _⟩ | ⟨_, _, _, e, _⟩ | ⟨u, _, _, hu, _⟩ := p.writeData_cases v
  · rw [e]; exact ⟨by simp [hc], rfl, rfl, .inl hx⟩
  · rw [e]; exact ⟨by simp [hc], rfl, rfl, .inr (by simp [hd])⟩
  · rw [hx] at hu; cases hu

/-- A data read after the completion was seen leaves the link clean (rules R63, R65). -/
theorem Spi.Seen.readData {p : Spi} (h : p.Seen) : p.readData.Clean := by
  obtain ⟨hx, hc, had, _⟩ := h
  exact ⟨hx, by simp [Spi.readData, had], by simp [Spi.readData, hc], rfl, rfl⟩

/-- A status read that sees the completion arms it; no transfer is in flight then (rules R61, R66). -/
theorem Spi.Exchanging.arm_done {p : Spi} (h : p.Exchanging) (hd : p.done = true) : p.arm.Seen := by
  obtain ⟨hc, _, hac, hx⟩ := h
  refine ⟨?_, hc, by simp [hd], by simp [hac, hc]⟩
  obtain hx | hx := hx
  · exact hx
  · rw [hd] at hx; cases hx

theorem Spi.Exchanging.arm_not_done {p : Spi} (h : p.Exchanging) (hd : p.done = false) : p.arm.Exchanging := by
  obtain ⟨hc, had, hac, hx⟩ := h
  exact ⟨hc, by simp [hd, had], by simp [hac, hc], hx⟩

/-! ### ENGINE's labels -/

/-- The operation goes on, outside `BEGIN`, with the link its label wants. -/
def GoesOn (s : State) : Prop := ∃ op l, s.eng.phase = .busy op l ∧ l.ofBegin = false ∧ LinkAt l s.spi

theorem loopHead_goesOn (op : Instr) {s : State} (h : s.spi.Clean) : GoesOn (loopHead op s) := by
  obtain ⟨e, _⟩ | ⟨e, _⟩ | ⟨e, _⟩ | ⟨e, _⟩ | ⟨v, e, _⟩ := loopHead_cases op s <;> rw [e] <;> exact ⟨op, _, rfl, rfl, h⟩

theorem afterExchange_goesOn (op : Instr) (x : Exchange) (r : Byte) {s : State} (h : s.spi.Clean) :
    GoesOn (afterExchange op x r s) := by
  cases x with
  | cmd => exact loopHead_goesOn op h
  | byte =>
    simp only [afterExchange]
    split
    · exact ⟨op, _, rfl, rfl, h⟩
    · exact loopHead_goesOn op h
    · split
      · exact loopHead_goesOn op h
      · exact ⟨op, _, rfl, rfl, h⟩

theorem microPoll_goesOn (op : Instr) (x : Exchange) {s : State} (h : s.spi.Exchanging) : GoesOn (microPoll op x s) := by
  simp only [microPoll]
  split
  · exact ⟨op, _, rfl, rfl, trivial⟩
  · split
    · next hd => exact ⟨op, _, rfl, rfl, h.arm_done (by simpa using hd)⟩
    · next hd => exact ⟨op, _, rfl, rfl, h.arm_not_done (by simpa using hd)⟩

/-- A micro-step from a label with the link it wants leads to a label with the link that one wants, up to `unselect`. -/
theorem microLabel_goesOn {s : State} (op : Instr) {l : Label} (hb : l.ofBegin = false) (hu : ∀ ok, l ≠ .unselect ok)
    (h : LinkAt l s.spi) : GoesOn (microLabel op l s) := by
  cases l with
  | badCs | csDir | csOut | busPin | ctrl | status => cases hb
  | unselect ok => exact absurd rfl (hu ok)
  | select => exact ⟨op, _, rfl, rfl, by rw [microLabel_spi]; exact h⟩
  | load | sample | timedOut | settleStart | tailStart => exact ⟨op, _, rfl, rfl, h⟩
  | send x v => exact ⟨op, _, rfl, rfl, Spi.Clean.writeData h v⟩
  | poll x => exact microPoll_goesOn op x h
  | receive x => exact afterExchange_goesOn op x _ (Spi.Seen.readData h)
  | clock x =>
    simp only [microLabel, microClock]
    split
    · exact ⟨op, _, rfl, rfl, trivial⟩
    · exact ⟨op, _, rfl, rfl, h⟩
  | store r => exact loopHead_goesOn op h
  | settleWait | tailWait =>
    simp only [microLabel, microDelayWait]
    split <;> exact ⟨op, _, rfl, rfl, h⟩

/-! ### The run -/

/-- A transaction that answers OK did not end in error (rules R92, R99, R156). -/
theorem txnResponse_ok {op : Instr} {ok : Bool} {tmp : Option Byte} (h : txnResponse op ok tmp = 0x100#10) : ok = true := by
  cases ok with
  | true => rfl
  | false =>
    unfold txnResponse at h
    split at h
    · exact absurd (show response .void sentinel = 0x100#10 from h) (by decide)
    · exact absurd h (by decide)

/-- The run of a transaction on a valid handle that started from a clean state. -/
structure CleanRun (s : State) : Prop where
  valid : s.curHandle.valid = true
  idle : s.curHandle.bank = none → s.eng.txn = .idle
  goesOn : s.eng.phase ≠ .ready → GoesOn s
  answered : s.eng.phase = .ready → s.eng.txn = .idle ∧ (s.rsp = 0x100#10 → s.spi.Clean)

@[simp] theorem microLabel_curHandle (op : Instr) (l : Label) (s : State) : (microLabel op l s).curHandle = s.curHandle := by
  simp [State.curHandle]

/-- Without a bank no micro-step changes the selection. -/
theorem microLabel_txn_of_no_bank {s : State} (op : Instr) (l : Label) (h : s.curHandle.bank = none) :
    (microLabel op l s).eng.txn = s.eng.txn := by
  cases l with
  | select => simp [microLabel, microSelect, State.select, h]
  | unselect ok => simp [microLabel, microUnselect, State.endTxn, State.unselect, h]
  | _ => exact microLabel_eng_txn _ _ _ (by simp) (by simp)

/-- `unselect` on a valid handle leaves the engine idle (rules R44, R131). -/
theorem unselect_txn {s : State} (hv : s.curHandle.valid = true) (hi : s.curHandle.bank = none → s.eng.txn = .idle) :
    s.unselect.eng.txn = .idle := by
  unfold State.unselect
  rw [if_pos hv]
  split
  · next hb => exact hi hb
  · rfl

theorem CleanRun.micro {s : State} {op : Instr} {l : Label} (hp : s.eng.phase = .busy op l) (h : CleanRun s) :
    CleanRun (microLabel op l s) := by
  obtain ⟨hv, hi, hg, _⟩ := h
  obtain ⟨op', l', hp', hb, hl⟩ := hg (by simp [hp])
  rw [hp] at hp'
  cases hp'
  have hi' : (microLabel op l s).curHandle.bank = none → (microLabel op l s).eng.txn = .idle := by
    rw [microLabel_curHandle]
    exact fun hn => (microLabel_txn_of_no_bank op l hn).trans (hi hn)
  by_cases hu : ∃ ok, l = .unselect ok
  · obtain ⟨ok, rfl⟩ := hu
    refine ⟨by simpa using hv, hi', fun hr => absurd rfl hr, fun _ => ⟨unselect_txn hv hi, fun hok => ?_⟩⟩
    rw [microLabel_spi]
    obtain rfl := txnResponse_ok hok
    exact hl
  · have hgo := microLabel_goesOn op hb (fun ok e => hu ⟨ok, e⟩) hl
    obtain ⟨op', l', hp', _⟩ := id hgo
    exact ⟨by simpa using hv, hi', fun _ => hgo, fun hr => by rw [hp'] at hr; cases hr⟩

theorem CleanRun.linkComplete {s : State} (h : CleanRun s) (r : Byte) : CleanRun (s.linkComplete r) := by
  obtain ⟨hv, hi, hg, ha⟩ := h
  refine ⟨hv, hi, fun hr => ?_, fun hr => ⟨(ha hr).1, fun hok => ?_⟩⟩
  · obtain ⟨op, l, hp, hb, hl⟩ := hg hr
    exact ⟨op, l, hp, hb, hl.linkComplete r⟩
  · have hc := (ha hr).2 hok
    rw [State.linkComplete_spi, Spi.linkComplete_of_idle hc.1]
    exact hc

/-- A transaction that starts from a clean state and answers OK leaves a clean state (rules R52, R133). -/
theorem transaction_run_clean {s t : State} {op : Instr} (hs : s.Clean) (hv : (s.handle op.slot).valid = true)
    (hc : complete ((s.openOp op).goto op .select) = .next t) (hok : t.rsp = 0x100#10) : t.Clean := by
  obtain ⟨_, ht, hl⟩ := hs
  have h0 : CleanRun ((s.openOp op).goto op .select) :=
    ⟨hv, fun _ => ht, fun _ => ⟨op, _, rfl, rfl, hl⟩, fun h => by cases h⟩
  have h := complete_keeps (P := CleanRun) (fun _ _ _ hp h => h.micro hp) (fun _ r h => h.linkComplete r)
    (fun _ _ h => ⟨h.1, h.2, h.3, h.4⟩) (fun _ _ h => ⟨h.1, h.2, h.3, h.4⟩) hc h0
  have hp := complete_ready hc
  obtain ⟨hidle, hclean⟩ := h.answered hp
  exact ⟨hp, hidle, hclean hok⟩

/-- The run of `BEGIN`: at its labels, or ended with VOID (rules R92, R117). -/
structure BeginRun (s : State) : Prop where
  label : ∀ op l, s.eng.phase = .busy op l → l.ofBegin = true
  answered : s.eng.phase = .ready → s.rsp = response .void 0x00

/-- `BEGIN` on an initialised bus answers after `configureChipSelect` (rule R119). -/
theorem microCsOut_rsp (op : Instr) {s : State} (hi : s.busInit = true) :
    (microCsOut op s).rsp = response .void 0x00 := by
  simp only [microCsOut, enterInitializeOnce]
  cases s.curHandle.bank <;> simp [hi, State.finishBegin]

theorem microLabel_begin_rsp {s : State} {op : Instr} {l : Label} (hb : l.ofBegin = true)
    (h : (microLabel op l s).eng.phase = .ready) : (microLabel op l s).rsp = response .void 0x00 := by
  cases l with
  | badCs | status => rfl
  | csDir | busPin | ctrl => cases h
  | csOut =>
    rw [microLabel, microCsOut_phase] at h
    split at h
    · next hi => exact microCsOut_rsp op hi
    · cases h
  | _ => cases hb

theorem BeginRun.micro {s : State} {op : Instr} {l : Label} (hp : s.eng.phase = .busy op l) (h : BeginRun s) :
    BeginRun (microLabel op l s) := by
  have hb := h.label op l hp
  refine ⟨fun op' l' e => ?_, microLabel_begin_rsp hb⟩
  obtain hr | ⟨l'', hr, hb'⟩ := microLabel_begin (op := op) s hb <;> rw [hr] at e <;> cases e
  exact hb'

theorem begin_run_void {s t : State} {op : Instr} {l : Label} (hb : l.ofBegin = true)
    (hc : complete (s.goto op l) = .next t) : t.rsp = response .void 0x00 := by
  have h0 : BeginRun (s.goto op l) := ⟨fun _ _ e => by cases e; exact hb, fun h => by cases h⟩
  have h := complete_keeps (P := BeginRun) (fun _ _ _ hp h => h.micro hp) (fun _ _ h => ⟨h.1, h.2⟩)
    (fun _ _ h => ⟨h.1, h.2⟩) (fun _ _ h => ⟨h.1, h.2⟩) hc h0
  exact h.answered (complete_ready hc)

/-- Settles O47: `BEGIN` answers VOID, what takes no micro-step leaves the link alone, and a transaction is run label by
label. -/
theorem successLeavesTheLinkClean : Obligations.SuccessLeavesTheLinkClean := by
  intro i s t hs hx hok
  obtain ⟨r, rfl | rfl⟩ | ⟨g, x, inv, rfl⟩ | ⟨l, hc, hb | ⟨rfl, hv⟩⟩ := exec_run_cases hx
  · exact hs
  · exact hs
  · exact hs
  · rw [begin_run_void hb hc] at hok
    exact absurd hok (by decide)
  · exact transaction_run_clean hs hv hc hok

end Sys2Proof.Machine
end
section
/-!
PROOFS. Nothing reads the sink or the log (O57): every function of the model commutes with the replacement of both, but for
the tag it may append.
-/
namespace Sys2Proof.Machine

/-! ### What does not see the sink -/

/-- A branch commutes with the replacement when both its arms do. -/
theorem ite_withSink {p : Bool} {d : List Tag} {c c' : Prop} [Decidable c] [Decidable c']
    {a b a' b' : State} (hc : c' ↔ c)
    (ha : a' = a.withSink p d) (hb : b' = b.withSink p d) :
    (if c' then a' else b') = (if c then a else b).withSink p d := by
  by_cases h : c
  · rw [if_pos (hc.mpr h), if_pos h, ha]
  · rw [if_neg (h ∘ hc.mp), if_neg h, hb]

section
variable (s : State) (p : Bool) (d : List Tag)

@[simp] theorem State.withSink_eng : (s.withSink p d).eng = s.eng := rfl
@[simp] theorem State.withSink_spi : (s.withSink p d).spi = s.spi := rfl
@[simp] theorem State.withSink_host : (s.withSink p d).host = s.host := rfl
@[simp] theorem State.withSink_sched : (s.withSink p d).sched = s.sched := rfl
@[simp] theorem State.withSink_busInit : (s.withSink p d).busInit = s.busInit := rfl
@[simp] theorem State.withSink_handle (h : Slot) : (s.withSink p d).handle h = s.handle h := rfl
@[simp] theorem State.withSink_curHandle : (s.withSink p d).curHandle = s.curHandle := rfl
@[simp] theorem State.withSink_wf : (s.withSink p d).cfg.wf = s.cfg.wf := rfl
@[simp] theorem State.withSink_busOutPins : (s.withSink p d).cfg.busOutPins = s.cfg.busOutPins := rfl
@[simp] theorem State.withSink_lack : (s.withSink p d).lack = s.lack := rfl
@[simp] theorem State.withSink_stalled : (s.withSink p d).stalled = s.stalled := rfl
@[simp] theorem State.withSink_illegal (i : Instr) : (s.withSink p d).illegal i = s.illegal i := rfl

/-! ### The micro-steps -/

theorem loopHead_withSink (op : Instr) : loopHead op (s.withSink p d) = (loopHead op s).withSink p d := by
  unfold loopHead
  cases direction op with
  | none => rfl
  | write => cases operandPayload op <;> exact ite_withSink Iff.rfl rfl rfl
  | read => exact ite_withSink Iff.rfl rfl rfl

theorem nextByte_withSink (op : Instr) : nextByte op (s.withSink p d) = (nextByte op s).withSink p d :=
  loopHead_withSink (s.setIdx (s.eng.idx + 1)) p d op

theorem afterExchange_withSink (op : Instr) (x : Exchange) (r : Byte) :
    afterExchange op x r (s.withSink p d) = (afterExchange op x r s).withSink p d := by
  cases x with
  | cmd => exact loopHead_withSink (s.setIdx 0) p d op
  | byte =>
    unfold afterExchange
    cases direction op with
    | none => rfl
    | write => exact nextByte_withSink s p d op
    | read => exact ite_withSink Iff.rfl (nextByte_withSink (s.withEng { s.eng with tmp := some r }) p d op) rfl

theorem select_withSink : (s.withSink p d).select = s.select.withSink p d := by
  unfold State.select
  refine ite_withSink Iff.rfl ?_ rfl
  rw [State.withSink_curHandle]
  cases s.curHandle.bank <;> rfl

theorem unselect_withSink : (s.withSink p d).unselect = s.unselect.withSink p d := by
  unfold State.unselect
  refine ite_withSink Iff.rfl ?_ rfl
  rw [State.withSink_curHandle]
  cases s.curHandle.bank <;> rfl

theorem microCsDir_withSink (op : Instr) : microCsDir op (s.withSink p d) = (microCsDir op s).withSink p d := by
  simp only [microCsDir, State.withSink_curHandle]
  cases s.curHandle.bank <;> rfl

theorem enterInitializeOnce_withSink (op : Instr) :
    enterInitializeOnce op (s.withSink p d) = (enterInitializeOnce op s).withSink p d :=
  ite_withSink Iff.rfl rfl rfl

theorem microCsOut_withSink (op : Instr) : microCsOut op (s.withSink p d) = (microCsOut op s).withSink p d := by
  simp only [microCsOut, State.withSink_curHandle]
  cases s.curHandle.bank with
  | none => exact enterInitializeOnce_withSink s p d op
  | some k =>
    exact enterInitializeOnce_withSink ((s.setOut k s.curHandle.pin.toNat).record [.csHigh s.eng.cur]) p d op

theorem microBusPin_withSink (op : Instr) (n : Nat) :
    microBusPin op n (s.withSink p d) = (microBusPin op n s).withSink p d := by
  simp only [microBusPin, State.withSink_busOutPins]
  cases s.cfg.busOutPins[n]? <;> rfl

theorem microPoll_withSink (op : Instr) (x : Exchange) :
    microPoll op x (s.withSink p d) = (microPoll op x s).withSink p d :=
  ite_withSink Iff.rfl rfl (ite_withSink Iff.rfl rfl rfl)

theorem microClock_withSink (op : Instr) (x : Exchange) :
    microClock op x (s.withSink p d) = (microClock op x s).withSink p d :=
  ite_withSink Iff.rfl rfl rfl

theorem microDelayWait_withSink (op : Instr) (n : Nat) (wait done : Label) :
    microDelayWait op n wait done (s.withSink p d) = (microDelayWait op n wait done s).withSink p d :=
  ite_withSink Iff.rfl rfl rfl

end

/-- `u` is `s` with the sink present or not and some log. -/
def SinkAlike (p : Bool) (s u : State) : Prop := ∃ d, u = s.withSink p d

/-- A micro-step reads neither the sink nor the log (rules R43, R151). -/
theorem SinkAlike.micro {p : Bool} {s u : State} (h : SinkAlike p s u) (op : Instr) (l : Label) :
    SinkAlike p (microLabel op l s) (microLabel op l u) := by
  obtain ⟨d, rfl⟩ := h
  cases l with
  | badCs | timedOut => exact ⟨if p = true then d ++ [_] else d, rfl⟩
  | csDir => exact ⟨d, microCsDir_withSink s p d op⟩
  | csOut => exact ⟨d, microCsOut_withSink s p d op⟩
  | busPin n => exact ⟨d, microBusPin_withSink s p d op n⟩
  | select => exact ⟨d, by rw [microLabel, microLabel, microSelect, microSelect, select_withSink]; rfl⟩
  | poll x => exact ⟨d, microPoll_withSink s p d op x⟩
  | receive x => exact ⟨d, afterExchange_withSink (s.withSpi s.spi.readData) p d op x s.spi.rxd⟩
  | clock x => exact ⟨d, microClock_withSink s p d op x⟩
  | store r => exact ⟨d, nextByte_withSink (s.setBuf s.eng.idx r) p d op⟩
  | settleWait | tailWait => exact ⟨d, microDelayWait_withSink s p d op _ _ _⟩
  | unselect ok =>
    refine ⟨d, ?_⟩
    rw [microLabel, microLabel, microUnselect, microUnselect, State.endTxn, State.endTxn, unselect_withSink]
    rfl
  | ctrl | status | load | send | sample | settleStart | tailStart => exact ⟨d, rfl⟩

/-! ### The run of an operation -/

theorem SinkAlike.phase {p : Bool} {s u : State} (h : SinkAlike p s u) : u.eng.phase = s.eng.phase := by
  obtain ⟨d, rfl⟩ := h
  rfl

theorem SinkAlike.sched {p : Bool} {s u : State} (h : SinkAlike p s u) (ts : List Turn) :
    SinkAlike p { s with sched := ts } { u with sched := ts } := by
  obtain ⟨d, rfl⟩ := h
  exact ⟨d, rfl⟩

theorem SinkAlike.linkComplete {p : Bool} {s u : State} (h : SinkAlike p s u) (r : Byte) :
    SinkAlike p (s.linkComplete r) (u.linkComplete r) := by
  obtain ⟨d, rfl⟩ := h
  exact ⟨d, rfl⟩

theorem SinkAlike.timeStep {p : Bool} {s u : State} (h : SinkAlike p s u) (n : Nat) :
    SinkAlike p (s.timeStep n) (u.timeStep n) := by
  obtain ⟨d, rfl⟩ := h
  exact ⟨d, rfl⟩

theorem SinkAlike.microStep {p : Bool} {s u : State} (h : SinkAlike p s u) :
    SinkAlike p (microStep s) (microStep u) := by
  cases hp : s.eng.phase with
  | ready => simpa only [Machine.microStep, hp, h.phase.trans hp] using h
  | busy op l => rw [microStep_busy hp, microStep_busy (h.phase.trans hp)]; exact h.micro op l

theorem SinkAlike.runTurns {p : Bool} (ts : List Turn) {s u : State} (h : SinkAlike p s u) :
    SinkAlike p (runTurns ts s) (runTurns ts u) := by
  induction ts generalizing s u with
  | nil => exact h.sched []
  | cons t ts ih =>
    cases hp : s.eng.phase with
    | ready => rw [runTurns_ready hp, runTurns_ready (h.phase.trans hp)]; exact h.sched _
    | busy op l =>
      have hp' := h.phase.trans hp
      cases t with
      | engine => rw [runTurns_engine hp, runTurns_engine hp']; exact ih (h.micro op l)
      | link r => rw [runTurns_link hp, runTurns_link hp']; exact ih (h.linkComplete r)
      | time n => rw [runTurns_time hp, runTurns_time hp']; exact ih (h.timeStep n)
      | stall => simpa only [Machine.runTurns, hp, hp'] using h.sched _

theorem SinkAlike.tailStep {p : Bool} {s u : State} (h : SinkAlike p s u) : SinkAlike p (tailStep s) (tailStep u) := by
  obtain ⟨d, rfl⟩ := id h
  unfold Machine.tailStep
  rw [State.withSink_stalled, State.withSink_lack]
  split
  · exact h.microStep
  · exact (h.timeStep _).microStep

theorem SinkAlike.runTail {p : Bool} (n : Nat) {s u : State} (h : SinkAlike p s u) :
    SinkAlike p (runTail n s) (runTail n u) := by
  induction n generalizing s u with
  | zero => exact h
  | succ n ih =>
    cases hp : s.eng.phase with
    | ready => rw [runTail_ready hp, runTail_ready (h.phase.trans hp)]; exact h
    | busy op l => rw [runTail_succ hp, runTail_succ (h.phase.trans hp)]; exact ih h.tailStep

theorem SinkAlike.settled {p : Bool} {s u : State} (h : SinkAlike p s u) : SinkAlike p (settled s) (settled u) := by
  obtain ⟨d, rfl⟩ := id h
  exact (h.runTurns s.sched).runTail (tailBudget s.cfg)

/-! ### The step -/

/-- The same outcome but for the sink and the log of the next state. -/
def OutcomeAlike (p : Bool) (o o' : Host.Outcome State Fault Refusal) : Prop :=
  ∃ d, o' = match o with
    | .next t => .next (t.withSink p d)
    | .fault r => .fault r
    | .refused r => .refused r

theorem SinkAlike.next {p : Bool} {s u : State} (h : SinkAlike p s u) : OutcomeAlike p (.next s) (.next u) := by
  obtain ⟨d, rfl⟩ := h
  exact ⟨d, rfl⟩

theorem SinkAlike.complete {p : Bool} {s u : State} (h : SinkAlike p s u) : OutcomeAlike p (complete s) (complete u) := by
  have hset := h.settled
  unfold Machine.complete
  rw [hset.phase]
  cases (Machine.settled s).eng.phase with
  | ready => exact hset.next
  | busy op l => exact ⟨[], rfl⟩

theorem SinkAlike.opBody {p : Bool} {s u : State} (h : SinkAlike p s u) (i : Instr) :
    OutcomeAlike p (opBody i s) (opBody i u) := by
  obtain ⟨d, rfl⟩ := h
  have hgoto (op : Instr) (l : Label) : SinkAlike p (s.goto op l) ((s.withSink p d).goto op l) := ⟨d, rfl⟩
  by_cases hi : isTransaction i = true
  · rw [opBody_transaction hi, opBody_transaction hi, State.withSink_handle]
    split
    · exact (hgoto i _).complete
    · exact ⟨d, rfl⟩
  · cases i with
    | constructPin | constructExplicit | isConnected => exact ⟨d, rfl⟩
    | begin g => exact (hgoto _ _).complete
    | command | write1 | writeN | read1 | readN => exact absurd rfl hi

theorem SinkAlike.exec {p : Bool} {s u : State} (h : SinkAlike p s u) (i : Instr) :
    OutcomeAlike p (exec i s) (exec i u) := by
  obtain ⟨d, rfl⟩ := h
  have hopen : SinkAlike p (s.openOp i) ((s.withSink p d).openOp i) := ⟨d, rfl⟩
  rw [exec_eq_atPort, exec_eq_atPort, atPort, atPort, State.withSink_wf, State.withSink_eng, State.withSink_illegal]
  split
  · cases s.eng.phase with
    | busy op l => exact ⟨d, rfl⟩
    | ready =>
      dsimp only
      split
      · exact ⟨d, rfl⟩
      · exact hopen.opBody i
  · exact ⟨d, rfl⟩

theorem SinkAlike.idleTurn {p : Bool} {s u : State} (h : SinkAlike p s u) : SinkAlike p (idleTurn s) (idleTurn u) := by
  obtain ⟨d, rfl⟩ := id h
  unfold Machine.idleTurn
  rw [State.withSink_sched]
  split
  · exact h
  · exact h
  · next t ts _ _ =>
    have h' := h.sched ts
    cases t with
    | engine => exact h'.microStep
    | link r => exact h'.linkComplete r
    | time n => exact h'.timeStep n
    | stall => exact h'

theorem SinkAlike.acceptWord {p : Bool} {s u : State} (h : SinkAlike p s u) (w : Word) :
    OutcomeAlike p (acceptWord w s) (acceptWord w u) := by
  obtain ⟨d, rfl⟩ := h
  have hcmd : SinkAlike p { s with cmd := w } { s.withSink p d with cmd := w } := ⟨d, rfl⟩
  unfold Machine.acceptWord
  cases decode w with
  | ok i => exact hcmd.exec i
  | error e => exact ⟨d, rfl⟩

theorem SinkAlike.hostAct {p : Bool} {s u : State} (h : SinkAlike p s u) : OutcomeAlike p (hostAct s) (hostAct u) := by
  obtain ⟨d, rfl⟩ := id h
  have hhost (hs : List HostAct) : SinkAlike p { s with host := hs } { s.withSink p d with host := hs } := ⟨d, rfl⟩
  unfold Machine.hostAct
  rw [State.withSink_host]
  split
  · exact h.idleTurn.next
  · next hs _ => exact (hhost hs).idleTurn.next
  · exact ⟨d, rfl⟩
  · next w hs _ => exact (hhost hs).acceptWord w

theorem SinkAlike.step {p : Bool} {s u : State} (h : SinkAlike p s u) : OutcomeAlike p (step s) (step u) := by
  obtain ⟨d, rfl⟩ := id h
  unfold Machine.step
  rw [State.withSink_wf, State.withSink_eng]
  split
  · cases s.eng.phase with
    | ready => exact h.hostAct
    | busy op l => exact h.complete
  · exact ⟨d, rfl⟩

/-- Settles O57: each function the step calls is followed on the two states side by side. -/
theorem diagnosticsAreNeverRead : Obligations.DiagnosticsAreNeverRead := by
  intro s p d
  have h : SinkAlike p s (s.withSink p d) := ⟨d, rfl⟩
  obtain ⟨d', e⟩ := h.step
  exact ⟨d', e.trans (by cases step s <;> rfl)⟩

end Sys2Proof.Machine
end
section
/-!
PROOFS. The port: a step is HOST's next action (O5), a busy port refuses (O8), and a word is ILLEGAL under the clauses of
rule R104 (O6); and the state after reset meets every invariant (O59).
-/
namespace Sys2Proof.Machine

/-- Settles O8: the port tests its phase before anything else of the state. -/
theorem busyPortRefusesASecondOperation : Obligations.BusyPortRefusesASecondOperation := by
  intro s op l i hw hp
  simp [exec_eq_atPort, atPort, hw, hp]

/-! ### HOST's action -/

theorem hostAct_of_issue {s : State} {w : Word} {hs : List HostAct} (h : s.host = .issue w :: hs) :
    hostAct s = acceptWord w { s with host := hs } := by
  simp [hostAct, h]

theorem hostAct_of_fill {s : State} {i : Fin 255} {v : Byte} {hs : List HostAct} (h : s.host = .fill i v :: hs) :
    hostAct s = .next ({ s with host := hs }.setBuf i.val v) := by
  simp [hostAct, h]

theorem hostAct_of_wait {s : State} {hs : List HostAct} (h : s.host = .wait :: hs ∨ (s.host = [] ∧ hs = [])) :
    hostAct s = .next (idleTurn { s with host := hs }) := by
  obtain h | ⟨h, rfl⟩ := h
  · simp [hostAct, h]
  · have e : ({ s with host := [] } : State) = s := by rw [← h]
    rw [e]
    simp [hostAct, h]

theorem acceptWord_of_ok {s : State} {w : Word} {i : Instr} (h : decode w = .ok i) :
    acceptWord w s = exec i { s with cmd := w } := by
  simp [acceptWord, h]

theorem acceptWord_of_error {s : State} {w : Word} {e : WordError} (h : decode w = .error e) :
    acceptWord w s = .next { s with cmd := w }.respondIllegal := by
  simp [acceptWord, h]

theorem setBuf_bufByte {s : State} (hm : s.buf.wf = true) (i : Nat) (v : Byte) (a : Nat) :
    (s.setBuf i v).bufByte a = if a = i then v else s.bufByte a := by
  simp only [State.bufByte, State.setBuf_buf]
  split
  · next h => rw [h]; exact Memory.write_read_same hm i v
  · next h => exact Memory.write_read_other v h

/-! ### A turn at a ready port -/

theorem idleTurn_of_turn {s : State} {t : Turn} {ts : List Turn} (h : s.sched = t :: ts) (ht : t ≠ .stall) :
    idleTurn s = agentTurn t { s with sched := ts } := by
  cases t with
  | stall => exact absurd rfl ht
  | engine | link | time => simp [idleTurn, h]

/-- LINK's step with nothing in flight (rule R66). -/
theorem linkComplete_of_idle {s : State} (h : s.spi.xfer = none) (r : Byte) : s.linkComplete r = s := by
  have he : s.spi.linkEvents r = [] := by simp [Spi.linkEvents, h]
  rw [State.linkComplete, Spi.linkComplete_of_idle h, he]
  simp [State.withSpi, State.record]

/-- LINK's step with a byte in flight (rules R66, R80). -/
theorem linkComplete_of_xfer {s : State} {tx : Byte} (h : s.spi.xfer = some tx) (r : Byte) :
    s.linkComplete r =
      { s with trace := s.trace ++ [.done tx r], spi := { s.spi with rxd := r, done := true, xfer := none } } := by
  simp [State.linkComplete, State.withSpi, State.record, Spi.linkComplete, Spi.linkEvents, h]

/-- Settles O5, by HOST's action and, while HOST waits, by the turn. -/
theorem stepRunsTheDecodedOperation : Obligations.StepRunsTheDecodedOperation := by
  refine ⟨?_, ?_, ?_⟩
  · intro s w hs i hw hp hh hd
    rw [step_of_ready hw hp, hostAct_of_issue hh, acceptWord_of_ok hd]
  · intro s n v hs hw hp hh hm
    exact ⟨_, by rw [step_of_ready hw hp, hostAct_of_fill hh],
      setBuf_bufByte (s := { s with host := hs }) hm.2.2 _ _, rfl⟩
  · intro s hs hw hp hh
    have hstep : step s = .next (idleTurn { s with host := hs }) := by rw [step_of_ready hw hp, hostAct_of_wait hh]
    have hturn {t : Turn} {ts : List Turn} (h : s.sched = t :: ts) (ht : t ≠ .stall) :
        step s = .next (agentTurn t { s with host := hs, sched := ts }) := by
      rw [hstep, idleTurn_of_turn (s := { s with host := hs }) h ht]
    refine ⟨fun h => ?_, fun ts h => ?_, fun ts h => ?_, fun r ts h hx => ?_, fun r ts tx h hx => ?_, fun d ts h => ?_⟩
    · simp [hstep, idleTurn, h]
    · simp [hstep, idleTurn, h]
    · rw [hturn h (by simp)]
      simp [agentTurn, microStep, hp]
    · rw [hturn h (by simp), agentTurn, linkComplete_of_idle (s := { s with host := hs, sched := ts }) hx]
    · rw [hturn h (by simp), agentTurn, linkComplete_of_xfer (s := { s with host := hs, sched := ts }) hx]
    · rw [hturn h (by simp)]
      rfl

/-! ### ILLEGAL words -/

theorem decodeZ_cases (w : Word) (i : Instr) :
    ((fieldA w ≠ 0 ∨ fieldB w ≠ 0 ∨ fieldC w ≠ 0) ∧ decodeZ w i = .error .unusedField) ∨
    (¬ (fieldA w ≠ 0 ∨ fieldB w ≠ 0 ∨ fieldC w ≠ 0) ∧ decodeZ w i = .ok i) := by
  unfold decodeZ
  by_cases h : fieldA w = 0 ∧ fieldB w = 0 ∧ fieldC w = 0
  · exact .inr ⟨by tauto, if_pos h⟩
  · exact .inl ⟨by tauto, if_neg h⟩

theorem decodeA_cases (w : Word) (i : Byte → Instr) :
    ((fieldB w ≠ 0 ∨ fieldC w ≠ 0) ∧ decodeA w i = .error .unusedField) ∨
    (¬ (fieldB w ≠ 0 ∨ fieldC w ≠ 0) ∧ decodeA w i = .ok (i (fieldA w))) := by
  unfold decodeA
  by_cases h : fieldB w = 0 ∧ fieldC w = 0
  · exact .inr ⟨by tauto, if_pos h⟩
  · exact .inl ⟨by tauto, if_neg h⟩

theorem decodeAB_cases (w : Word) (i : Byte → Byte → Instr) :
    (fieldC w ≠ 0 ∧ decodeAB w i = .error .unusedField) ∨
    (¬ fieldC w ≠ 0 ∧ decodeAB w i = .ok (i (fieldA w) (fieldB w))) := by
  unfold decodeAB
  by_cases h : fieldC w = 0
  · exact .inr ⟨by tauto, if_pos h⟩
  · exact .inl ⟨h, if_neg h⟩

theorem decodeABC_cases (w : Word) (i : Byte → Byte → Bool → Instr) :
    ((fieldC w).extractLsb' 1 7 ≠ 0 ∧ decodeABC w i = .error .unusedField) ∨
    (¬ (fieldC w).extractLsb' 1 7 ≠ 0 ∧
      decodeABC w i = .ok (i (fieldA w) (fieldB w) ((fieldC w).getLsbD 0))) := by
  unfold decodeABC
  by_cases h : (fieldC w).extractLsb' 1 7 = 0
  · exact .inr ⟨by tauto, if_pos h⟩
  · exact .inl ⟨h, if_neg h⟩

/-- What a row of the operation table says of the word, by the row's check of the unused fields `U`. -/
theorem row_cases {w : Word} {n : Nat} {U : Prop} {o : Except WordError Instr} {i : Instr}
    (h : (U ∧ o = .error .unusedField) ∨ (¬ U ∧ o = .ok i)) (hn : n ≤ 8) (hs : i.slot = fieldH w)
    (hc : i.isConstructor = decide (n ≤ 1)) :
    ((9 ≤ n ∨ U) ∧ ∃ e, o = .error e) ∨
    (n ≤ 8 ∧ ¬ U ∧ ∃ i, o = .ok i ∧ i.slot = fieldH w ∧ i.isConstructor = decide (n ≤ 1)) := by
  obtain ⟨hu, ho⟩ | ⟨hu, ho⟩ := h
  · exact .inl ⟨.inr hu, _, ho⟩
  · exact .inr ⟨hn, hu, i, ho, hs, hc⟩

/-- Rule R104 clauses (a) and (c) are what the decoder rejects; what it accepts acts on the slot of the field `h`, and is a
constructor for the operation codes 0 and 1. -/
theorem decode_cases (w : Word) :
    ((9 ≤ (fieldOp w).toNat ∨ UnusedFieldSet w) ∧ ∃ e, decode w = .error e) ∨
    ((fieldOp w).toNat ≤ 8 ∧ ¬ UnusedFieldSet w ∧
      ∃ i, decode w = .ok i ∧ i.slot = fieldH w ∧ i.isConstructor = decide ((fieldOp w).toNat ≤ 1)) := by
  unfold decode UnusedFieldSet
  generalize (fieldOp w).toNat = n
  match n with
  | 0 => exact row_cases (decodeA_cases w _) (by omega) rfl rfl
  | 1 => exact row_cases (decodeABC_cases w _) (by omega) rfl rfl
  | 2 => exact row_cases (decodeZ_cases w _) (by omega) rfl rfl
  | 3 => exact row_cases (decodeZ_cases w _) (by omega) rfl rfl
  | 4 => exact row_cases (decodeA_cases w _) (by omega) rfl rfl
  | 5 => exact row_cases (decodeAB_cases w _) (by omega) rfl rfl
  | 6 => exact row_cases (decodeAB_cases w _) (by omega) rfl rfl
  | 7 => exact row_cases (decodeA_cases w _) (by omega) rfl rfl
  | 8 => exact row_cases (decodeAB_cases w _) (by omega) rfl rfl
  | n + 9 => exact .inl ⟨.inl (by omega), _, rfl⟩

/-- The port's check of a decoded word is rule R104's clauses (b), (d) and (e). -/
theorem illegal_iff_illegalWord {s : State} {w : Word} {i : Instr} (h8 : (fieldOp w).toNat ≤ 8)
    (hu : ¬ UnusedFieldSet w) (hs : i.slot = fieldH w) (hc : i.isConstructor = decide ((fieldOp w).toNat ≤ 1)) :
    s.illegal i = true ↔ IllegalWord s w := by
  have h9 : ¬ 9 ≤ (fieldOp w).toNat := by omega
  rw [State.illegal, Instr.wellFormed, IllegalWord, hs, hc]
  by_cases h1 : (fieldOp w).toNat ≤ 1
  · have h2 : ¬ 2 ≤ (fieldOp w).toNat := by omega
    simp [h1, h2, h9, hu]
  · have h2 : 2 ≤ (fieldOp w).toNat := by omega
    simp [h1, h2, h8, h9, hu]

/-- Settles O6: the decoder rejects under clauses (a) and (c), the port under the others. -/
theorem illegalWordWritesOnlyTheResponse : Obligations.IllegalWordWritesOnlyTheResponse := by
  intro s w hs hw hp hh
  rw [step_of_ready hw hp, hostAct_of_issue hh]
  obtain ⟨hbad, e, hd⟩ | ⟨h8, hu, i, hd, hslot, hcon⟩ := decode_cases w
  · refine ⟨fun _ => by rw [acceptWord_of_error hd]; rfl, fun hn => absurd ?_ hn⟩
    exact hbad.elim .inl fun h => .inr (.inr (.inl h))
  · have hiff := illegal_iff_illegalWord (s := { s with host := hs, cmd := w }) h8 hu hslot hcon
    refine ⟨fun hill => ?_, fun hn => ⟨i, hd, hw, hp, Bool.eq_false_iff.mpr fun h => hn (hiff.mp h)⟩⟩
    rw [acceptWord_of_ok hd]
    exact exec_of_illegal hw hp (hiff.mpr hill)

/-! ### Reset -/

theorem reset_clean : State.reset.Clean := ⟨rfl, rfl, rfl, rfl, rfl, rfl, rfl⟩

theorem reset_isReset : State.reset.IsReset := ⟨by decide, rfl, rfl, reset_clean.2.2, rfl, rfl, rfl, rfl, rfl⟩

/-- No handle is constructed after reset. -/
theorem reset_handlesSound : HandlesSound State.reset := by
  intro h hc
  rw [reset_isReset.1 h] at hc
  cases hc

/-- The latch is clear after reset, and the port ready. -/
theorem reset_busProgrammed : BusProgrammed State.reset :=
  ⟨fun h => (nomatch h), fun _ => ⟨rfl, fun _ h => (nomatch h), fun _ => rfl⟩⟩

theorem reset_linkSound : LinkSound State.reset :=
  ⟨fun h => (nomatch h), fun h => (nomatch h), fun h => absurd rfl h, rfl⟩

theorem reset_timeInRange : TimeInRange State.reset := by
  unfold TimeInRange
  decide

/-- Settles O59: nothing is constructed, programmed, in flight or under way after reset. -/
theorem resetMeetsEveryInvariant : Obligations.ResetMeetsEveryInvariant :=
  ⟨reset_isReset, reset_clean, by decide, ⟨rfl, rfl, rfl⟩, reset_handlesSound, reset_busProgrammed, rfl,
    ⟨indexBelow_of_ready rfl, fun _ _ => rfl⟩, reset_linkSound, reset_timeInRange⟩

end Sys2Proof.Machine
end
section
/-!
PROOFS. The rules of the memories and of the SPI registers (spec/20_memory.md): every step keeps the memories canonical
(O49), the arming protocol of the flags (O25), a data write (O26), LINK's step (O27).
-/
namespace Sys2Proof.Machine

/-- Settles O49: only a micro-step and HOST's fill write a memory, and a write keeps the form. -/
theorem stepKeepsMemoryCanonical : Obligations.StepKeepsMemoryCanonical :=
  fun _ _ h hs => memoryCanonical_movesKeep.step hs h

/-- Bits 5 to 1 of the status byte read 0 (rule R35). -/
theorem Spi.status_reserved (p : Spi) : p.status.extractLsb' 1 5 = 0 := by
  unfold Spi.status
  generalize p.done = d, p.coll = c, p.dbl = b
  revert d c b
  decide

/-- Rule R65: an armed flag is cleared, any other is left as it was. -/
theorem Spi.clearArmed_eq (p : Spi) :
    p.clearArmed = { p with done := if p.armDone then false else p.done,
                            coll := if p.armColl then false else p.coll, armDone := false, armColl := false } := by
  unfold Spi.clearArmed
  cases p.armDone <;> cases p.armColl <;> simp

/-- Settles O25: the status byte is put together bit by bit, and each access writes the flags its rule names. -/
theorem flagsFollowTheArmingProtocol : Obligations.FlagsFollowTheArmingProtocol :=
  fun p _ => ⟨⟨p.status_done, p.status_coll, p.status_reserved, p.status_dbl⟩, rfl, rfl, p.clearArmed_eq, rfl⟩

/-- Settles O26: the three cases of a data write exclude each other. -/
theorem dataWriteStartsOrCollides : Obligations.DataWriteStartsOrCollides := by
  intro p v
  obtain ⟨hn, hw⟩ | ⟨he, hm, hx, hw⟩ | ⟨u, he, hm, hx, hw⟩ := p.writeData_cases v
  · exact ⟨fun _ => hw, fun hr => absurd hr hn, fun _ hr => absurd hr hn⟩
  · exact ⟨fun h => by simp [he, hm] at h, fun _ _ => hw, fun u _ hu => by simp [hx] at hu⟩
  · exact ⟨fun h => by simp [he, hm] at h, fun _ hn => by simp [hx] at hn, fun _ _ _ => hw⟩

/-- Settles O27: LINK's step by what is in flight. -/
theorem linkCompleteEndsTheTransfer : Obligations.LinkCompleteEndsTheTransfer :=
  fun _ r => ⟨fun _ h => linkComplete_of_xfer h r, fun h => linkComplete_of_idle h r⟩

end Sys2Proof.Machine
end
section
/-!
PROOFS. Two runs side by side: from states alike in what decides the course of a run, where every move keeps the likeness,
a step has like outcomes.
-/
namespace Sys2Proof.Machine

/-- Two states agree on everything that decides which move a step makes next, and on what a constructor resolves. -/
structure SameCourse (s u : State) : Prop where
  eng : u.eng = s.eng
  handles : u.handles = s.handles
  host : u.host = s.host
  sched : u.sched = s.sched
  lack : u.lack = s.lack
  wf : u.cfg.wf = s.cfg.wf
  nHandles : u.cfg.nHandles = s.cfg.nHandles
  busOutPins : u.cfg.busOutPins = s.cfg.busOutPins
  resolve : Machine.resolve u.cfg = Machine.resolve s.cfg
  resolveExplicit : Machine.resolveExplicit u.cfg = Machine.resolveExplicit s.cfg

/-- States related by `R` take the same course, and every move of a step keeps `R`. -/
structure MovesAlike (R : State → State → Prop) : Prop where
  same : ∀ {s u}, R s u → SameCourse s u
  micro : ∀ {s u} op l, R s u → R (microLabel op l s) (microLabel op l u)
  link : ∀ {s u} r, R s u → R (s.linkComplete r) (u.linkComplete r)
  time : ∀ {s u} d, R s u → R (s.timeStep d) (u.timeStep d)
  sched : ∀ {s u : State} ts, R s u → R { s with sched := ts } { u with sched := ts }
  host : ∀ {s u : State} hs, R s u → R { s with host := hs } { u with host := hs }
  cmd : ∀ {s u : State} w, R s u → R { s with cmd := w } { u with cmd := w }
  fill : ∀ {s u} i v, R s u → R (s.setBuf i v) (u.setBuf i v)
  respond : ∀ {s u} r, R s u → R (s.respond r) (u.respond r)
  handle : ∀ {s u} h x, R s u → R (s.setHandle h x) (u.setHandle h x)
  opened : ∀ {s u} i, R s u → R (s.openOp i) (u.openOp i)
  goto : ∀ {s u} op l, R s u → R (s.goto op l) (u.goto op l)

/-- The same kind of outcome: related next states, the same fault or the same refusal. -/
inductive OutcomesAlike (R : State → State → Prop) :
    Host.Outcome State Fault Refusal → Host.Outcome State Fault Refusal → Prop where
  | next {s u : State} (h : R s u) : OutcomesAlike R (.next s) (.next u)
  | fault (r : Fault) : OutcomesAlike R (.fault r) (.fault r)
  | refused (r : Refusal) : OutcomesAlike R (.refused r) (.refused r)

theorem SameCourse.phase {s u : State} (h : SameCourse s u) : u.eng.phase = s.eng.phase := by rw [h.eng]

theorem SameCourse.handle {s u : State} (h : SameCourse s u) (g : Slot) : u.handle g = s.handle g := by
  simp only [State.handle, h.handles]

theorem SameCourse.stalled {s u : State} (h : SameCourse s u) : u.stalled = s.stalled := by
  simp only [State.stalled, h.sched]

theorem SameCourse.illegal {s u : State} (h : SameCourse s u) (i : Instr) : u.illegal i = s.illegal i := by
  simp only [State.illegal, Instr.wellFormed, h.nHandles, h.handle]

section
variable {R : State → State → Prop} (m : MovesAlike R) {s u : State}
include m

/-! ### The run of an operation -/

theorem MovesAlike.microStep (h : R s u) : R (microStep s) (microStep u) := by
  have hph := (m.same h).phase
  cases hp : s.eng.phase with
  | ready => simpa only [Machine.microStep, hp, hph.trans hp] using h
  | busy op l => rw [microStep_busy hp, microStep_busy (hph.trans hp)]; exact m.micro op l h

theorem MovesAlike.agentTurn (t : Turn) (h : R s u) : R (agentTurn t s) (agentTurn t u) := by
  cases t with
  | engine => exact m.microStep h
  | link r => exact m.link r h
  | time d => exact m.time d h
  | stall => exact h

theorem MovesAlike.runTurns (ts : List Turn) (h : R s u) : R (runTurns ts s) (runTurns ts u) := by
  induction ts generalizing s u with
  | nil => exact m.sched [] h
  | cons t ts ih =>
    unfold Machine.runTurns
    rw [(m.same h).phase]
    cases s.eng.phase with
    | ready => exact m.sched _ h
    | busy op l =>
      cases t with
      | stall => exact m.sched _ h
      | engine | link | time => exact ih (m.agentTurn _ h)

theorem MovesAlike.tailStep (h : R s u) : R (tailStep s) (tailStep u) := by
  unfold Machine.tailStep
  rw [(m.same h).stalled, (m.same h).lack]
  split
  · exact m.microStep h
  · exact m.microStep (m.time _ h)

theorem MovesAlike.runTail (n : Nat) (h : R s u) : R (runTail n s) (runTail n u) := by
  induction n generalizing s u with
  | zero => exact h
  | succ n ih =>
    unfold Machine.runTail
    rw [(m.same h).phase]
    cases s.eng.phase with
    | ready => exact h
    | busy op l => exact ih (m.tailStep h)

theorem MovesAlike.settled (h : R s u) : R (settled s) (settled u) := by
  unfold Machine.settled tailBudget
  rw [(m.same h).sched, (m.same h).busOutPins]
  exact m.runTail _ (m.runTurns _ h)

theorem MovesAlike.complete (h : R s u) : OutcomesAlike R (complete s) (complete u) := by
  have hset := m.settled h
  unfold Machine.complete
  rw [(m.same hset).phase]
  cases (Machine.settled s).eng.phase with
  | ready => exact .next hset
  | busy op l => exact .fault .hang

/-! ### The step -/

theorem MovesAlike.opBody (i : Instr) (h : R s u) : OutcomesAlike R (opBody i s) (opBody i u) := by
  have hc := m.same h
  by_cases hi : isTransaction i = true
  · rw [opBody_transaction hi, opBody_transaction hi, hc.handle]
    split
    · exact m.complete (m.goto _ _ h)
    · exact .next (m.respond _ h)
  · cases i with
    | constructPin g pin =>
      simp only [Machine.opBody, construct, hc.resolve]
      exact .next (m.respond _ (m.handle _ _ h))
    | constructExplicit g regid pin inv =>
      simp only [Machine.opBody, construct, hc.resolveExplicit]
      exact .next (m.respond _ (m.handle _ _ h))
    | begin g =>
      simp only [Machine.opBody, hc.handle]
      exact m.complete (m.goto _ _ h)
    | isConnected g =>
      simp only [Machine.opBody, hc.handle]
      exact .next (m.respond _ h)
    | command | write1 | writeN | read1 | readN => exact absurd rfl hi

theorem MovesAlike.exec (i : Instr) (h : R s u) : OutcomesAlike R (exec i s) (exec i u) := by
  have hc := m.same h
  rw [exec_eq_atPort, exec_eq_atPort, atPort, atPort, hc.wf, hc.phase, hc.illegal]
  split
  · cases s.eng.phase with
    | busy op l => exact .refused .portBusy
    | ready =>
      dsimp only
      split
      · exact .next (m.respond _ h)
      · exact m.opBody i (m.opened i h)
  · exact .refused .notAConfiguration

theorem MovesAlike.idleTurn (h : R s u) : R (idleTurn s) (idleTurn u) := by
  unfold Machine.idleTurn
  rw [(m.same h).sched]
  split
  · exact h
  · exact h
  · exact m.agentTurn _ (m.sched _ h)

theorem MovesAlike.acceptWord (w : Word) (h : R s u) : OutcomesAlike R (acceptWord w s) (acceptWord w u) := by
  unfold Machine.acceptWord
  cases decode w with
  | ok i => exact m.exec i (m.cmd w h)
  | error e => exact .next (m.respond _ (m.cmd w h))

theorem MovesAlike.hostAct (h : R s u) : OutcomesAlike R (hostAct s) (hostAct u) := by
  unfold Machine.hostAct
  rw [(m.same h).host]
  split
  · exact .next (m.idleTurn h)
  · exact .next (m.idleTurn (m.host _ h))
  · exact .next (m.fill _ _ (m.host _ h))
  · exact m.acceptWord _ (m.host _ h)

/-- The packaged induction of two steps: what every move keeps between two states, a step keeps. -/
theorem MovesAlike.step (h : R s u) : OutcomesAlike R (step s) (step u) := by
  have hc := m.same h
  unfold Machine.step
  rw [hc.wf, hc.phase]
  split
  · cases s.eng.phase with
    | ready => exact m.hostAct h
    | busy op l => exact m.complete h
  · exact .refused .notAConfiguration

end

end Sys2Proof.Machine
end
section
/-!
PROOFS. The mode knobs change nothing but their own register bits (O58): no access of the SPI registers reads bits 5, 3
and 2 of `SPI.CTRL`, and no micro-step reads a knob but to write those bits.
-/
namespace Sys2Proof.Machine

/-! ### The SPI registers -/

/-- The SPI registers with the control register `c`. -/
def Spi.withCtrl (p : Spi) (c : Byte) : Spi := { p with ctrl := c }

/-- A bit that is no mode bit is the same in both control registers. -/
theorem ModeAlike.getLsbD {c c' : Byte} (h : ModeAlike c c') {i : Nat} (hi : (0xD3#8).getLsbD i = true) :
    c'.getLsbD i = c.getLsbD i := by
  have e := congrArg (BitVec.getLsbD · i) h
  simpa [hi] using e.symm

theorem Spi.withCtrl_enabled {p : Spi} {c : Byte} (h : ModeAlike p.ctrl c) : (p.withCtrl c).enabled = p.enabled :=
  h.getLsbD (by decide)

theorem Spi.withCtrl_master {p : Spi} {c : Byte} (h : ModeAlike p.ctrl c) : (p.withCtrl c).master = p.master :=
  h.getLsbD (by decide)

/-- A data write reads `EN` and `MSTR` alone of the control register (rule R64). -/
theorem Spi.withCtrl_writeData {p : Spi} {c : Byte} (h : ModeAlike p.ctrl c) (v : Byte) :
    (p.withCtrl c).writeData v = (p.writeData v).withCtrl c ∧ (p.withCtrl c).writeEvents v = p.writeEvents v := by
  obtain ⟨hoff, hon, hcoll⟩ := dataWriteStartsOrCollides (p.withCtrl c) v
  have he := withCtrl_enabled h
  have hm := withCtrl_master h
  obtain ⟨hn, e, e'⟩ | ⟨h1, h2, hx, e, e'⟩ | ⟨u, h1, h2, hx, e, e'⟩ := p.writeData_cases v <;> rw [e, e']
  · refine hoff ?_
    rw [he, hm]
    simpa [← Bool.not_eq_true, imp_iff_not_or] using hn
  · exact hon ⟨he.trans h1, hm.trans h2⟩ hx
  · exact hcoll u ⟨he.trans h1, hm.trans h2⟩ hx

/-- LINK's step does not read the control register (rule R66). -/
theorem Spi.withCtrl_linkComplete (p : Spi) (c r : Byte) :
    (p.withCtrl c).linkComplete r = (p.linkComplete r).withCtrl c := by
  obtain ⟨_, _, _, _, _, _ | tx, _, _⟩ := p <;> rfl

/-- The control word but for the mode bits (rules R94, R97). -/
theorem ctrlWord_masked (k : Config) : ctrlWord k &&& 0xD3#8 = 0x50#8 ||| (busFields k).sel.setWidth 8 := by
  unfold ctrlWord
  generalize k.lsbFirst = lsb, k.cpol = cpol, k.cpha = cpha, (busFields k).sel = sel
  revert lsb cpol cpha sel
  decide

theorem ctrlWord_modeAlike {k k' : Config} (h : busFields k' = busFields k) : ModeAlike (ctrlWord k) (ctrlWord k') := by
  rw [ModeAlike, ctrlWord_masked, ctrlWord_masked, h]

/-! ### The micro-steps -/

section
variable {s : State} {lsb cpol cpha : Bool} {c : Byte}

@[simp] theorem State.withModes_curHandle : (s.withModes lsb cpol cpha c).curHandle = s.curHandle := rfl
@[simp] theorem State.withModes_busOutPins :
    (s.withModes lsb cpol cpha c).cfg.busOutPins = s.cfg.busOutPins := rfl

/-- A branch commutes with the replacement when both its arms do. -/
theorem ite_withModes {q : Prop} [Decidable q] {a b a' b' : State} (ha : a' = a.withModes lsb cpol cpha c)
    (hb : b' = b.withModes lsb cpol cpha c) :
    (if q then a' else b') = (if q then a else b).withModes lsb cpol cpha c := by
  rw [ha, hb]
  exact (apply_ite (State.withModes · lsb cpol cpha c) q a b).symm

theorem loopHead_withModes (op : Instr) :
    loopHead op (s.withModes lsb cpol cpha c) = (loopHead op s).withModes lsb cpol cpha c := by
  unfold loopHead
  cases direction op with
  | none => rfl
  | write => cases operandPayload op <;> exact ite_withModes rfl rfl
  | read => exact ite_withModes rfl rfl

theorem afterExchange_withModes (op : Instr) (x : Exchange) (r : Byte) :
    afterExchange op x r (s.withModes lsb cpol cpha c) = (afterExchange op x r s).withModes lsb cpol cpha c := by
  cases x with
  | cmd => exact loopHead_withModes (s := s.setIdx 0) op
  | byte =>
    unfold afterExchange
    cases direction op with
    | none => rfl
    | write => exact loopHead_withModes (s := s.setIdx (s.eng.idx + 1)) op
    | read =>
      exact ite_withModes
        (loopHead_withModes (s := (s.withEng { s.eng with tmp := some r }).setIdx (s.eng.idx + 1)) op) rfl

theorem select_withModes : (s.withModes lsb cpol cpha c).select = s.select.withModes lsb cpol cpha c := by
  refine ite_withModes ?_ rfl
  rw [State.withModes_curHandle]
  cases s.curHandle.bank <;> rfl

theorem unselect_withModes : (s.withModes lsb cpol cpha c).unselect = s.unselect.withModes lsb cpol cpha c := by
  refine ite_withModes ?_ rfl
  rw [State.withModes_curHandle]
  cases s.curHandle.bank <;> rfl

theorem microCsOut_withModes (op : Instr) :
    microCsOut op (s.withModes lsb cpol cpha c) = (microCsOut op s).withModes lsb cpol cpha c := by
  simp only [microCsOut, State.withModes_curHandle]
  cases s.curHandle.bank <;> exact ite_withModes rfl rfl

theorem microSend_withModes (hc : ModeAlike s.spi.ctrl c) (op : Instr) (x : Exchange) (v : Byte) :
    microSend op x v (s.withModes lsb cpol cpha c) = (microSend op x v s).withModes lsb cpol cpha c := by
  have hw : (s.withModes lsb cpol cpha c).writeData v = (s.writeData v).withModes lsb cpol cpha c := by
    obtain ⟨hp, he⟩ := Spi.withCtrl_writeData hc v
    show ((s.withModes lsb cpol cpha c).withSpi ((s.spi.withCtrl c).writeData v)).record
      ((s.spi.withCtrl c).writeEvents v) = _
    rw [hp, he]
    rfl
  rw [microSend, hw]
  rfl

/-- A micro-step other than the write of the control register reads no mode bit and no knob. -/
theorem microLabel_withModes (hc : ModeAlike s.spi.ctrl c) (op : Instr) {l : Label} (hl : l ≠ .ctrl) :
    microLabel op l (s.withModes lsb cpol cpha c) = (microLabel op l s).withModes lsb cpol cpha c := by
  cases l with
  | ctrl => exact absurd rfl hl
  | csDir =>
    simp only [microLabel, microCsDir, State.withModes_curHandle]
    cases s.curHandle.bank <;> rfl
  | csOut => exact microCsOut_withModes op
  | busPin n =>
    simp only [microLabel, microBusPin, State.withModes_busOutPins]
    cases s.cfg.busOutPins[n]? <;> rfl
  | select => rw [microLabel, microSelect, select_withModes]; rfl
  | send x v => exact microSend_withModes hc op x v
  | poll x => exact ite_withModes rfl (ite_withModes rfl rfl)
  | receive x => exact afterExchange_withModes (s := s.withSpi s.spi.readData) op x s.spi.rxd
  | clock x => exact ite_withModes rfl rfl
  | store r => exact loopHead_withModes (s := (s.setBuf s.eng.idx r).setIdx (s.eng.idx + 1)) op
  | settleWait | tailWait => exact ite_withModes rfl rfl
  | unselect ok => rw [microLabel, microUnselect, State.endTxn, unselect_withModes]; rfl
  | badCs | status | load | sample | timedOut | settleStart | tailStart => rfl

end

/-! ### The step -/

/-- `u` is `s` with the knobs `lsb`, `cpol`, `cpha` and a control register that differs in the mode bits alone. -/
def ModesApart (lsb cpol cpha : Bool) (s u : State) : Prop :=
  ∃ c, ModeAlike s.spi.ctrl c ∧ u = s.withModes lsb cpol cpha c

/-- A micro-step writes the control register, with the knobs, or leaves it alone (rules R124, R97). -/
theorem ModesApart.micro {lsb cpol cpha : Bool} {s u : State} (op : Instr) (l : Label)
    (h : ModesApart lsb cpol cpha s u) : ModesApart lsb cpol cpha (microLabel op l s) (microLabel op l u) := by
  obtain ⟨c, hc, rfl⟩ := h
  by_cases hl : l = .ctrl
  · subst hl
    refine ⟨ctrlWord (s.withModes lsb cpol cpha c).cfg, ?_, ?_⟩
    · rw [microLabel_spi, Label.access, Spi.writeCtrl_ctrlWord]
      exact ctrlWord_modeAlike rfl
    · simp only [microLabel, microCtrl, Spi.writeCtrl_ctrlWord]
      rfl
  · exact ⟨c, by rwa [microLabel_spi_ctrl _ _ _ hl], microLabel_withModes hc op hl⟩

theorem ModesApart.linkComplete {lsb cpol cpha : Bool} {s u : State} (r : Byte) (h : ModesApart lsb cpol cpha s u) :
    ModesApart lsb cpol cpha (s.linkComplete r) (u.linkComplete r) := by
  obtain ⟨c, hc, rfl⟩ := h
  refine ⟨c, by simpa using hc, ?_⟩
  show ((s.withModes lsb cpol cpha c).withSpi ((s.spi.withCtrl c).linkComplete r)).record (s.spi.linkEvents r) = _
  rw [Spi.withCtrl_linkComplete]
  rfl

theorem modesApart_movesAlike (lsb cpol cpha : Bool) : MovesAlike (ModesApart lsb cpol cpha) where
  same := by
    rintro s _ ⟨c, _, rfl⟩
    exact ⟨rfl, rfl, rfl, rfl, rfl, rfl, rfl, rfl, rfl, rfl⟩
  micro := ModesApart.micro
  link := ModesApart.linkComplete
  time d := fun ⟨c, hc, e⟩ => ⟨c, hc, e ▸ rfl⟩
  sched ts := fun ⟨c, hc, e⟩ => ⟨c, hc, e ▸ rfl⟩
  host hs := fun ⟨c, hc, e⟩ => ⟨c, hc, e ▸ rfl⟩
  cmd w := fun ⟨c, hc, e⟩ => ⟨c, hc, e ▸ rfl⟩
  fill i v := fun ⟨c, hc, e⟩ => ⟨c, hc, e ▸ rfl⟩
  respond r := fun ⟨c, hc, e⟩ => ⟨c, hc, e ▸ rfl⟩
  handle h x := fun ⟨c, hc, e⟩ => ⟨c, hc, e ▸ rfl⟩
  opened i := fun ⟨c, hc, e⟩ => ⟨c, hc, e ▸ rfl⟩
  goto op l := fun ⟨c, hc, e⟩ => ⟨c, hc, e ▸ rfl⟩

/-- Settles O58: the steps are followed side by side; each move keeps the difference to the knobs and the mode bits. -/
theorem modesChangeNoOtherValue : Obligations.ModesChangeNoOtherValue := by
  intro s lsb cpol cpha c hc
  have h := (modesApart_movesAlike lsb cpol cpha).step ⟨c, hc, rfl⟩
  revert h
  generalize step s = o, step (s.withModes lsb cpol cpha c) = o'
  intro h
  cases h with
  | next h =>
    obtain ⟨c', hc', rfl⟩ := h
    exact ⟨c', fun t e => by cases e; exact hc', rfl⟩
  | fault r => exact ⟨c, fun _ e => (nomatch e), rfl⟩
  | refused r => exact ⟨c, fun _ e => (nomatch e), rfl⟩

end Sys2Proof.Machine
end
section
/-!
PROOFS. The command word (spec/30_encoding.md): the decoder undoes the encoder (O1) and the encoder the decoder (O2), and
the words accepted are those of the operation table's rows (O3, O4); with the command bytes of rule R93 (O28). For O1
to O3 each format (rules R85 to R88) has its lemma, and the nine rows are put together from these.
-/
namespace Sys2Proof.Machine

/-! ### The decoder reads what the encoder packs -/

theorem decodeZ_packWord (op : BitVec 4) (h : Slot) (i : Instr) :
    decodeZ (packWord op h 0#8 0#8 0#8) i = .ok i := by
  simp [decodeZ]

theorem decodeA_packWord (op : BitVec 4) (h : Slot) (a : Byte) (i : Byte → Instr) :
    decodeA (packWord op h a 0#8 0#8) i = .ok (i a) := by
  simp [decodeA]

theorem decodeAB_packWord (op : BitVec 4) (h : Slot) (a b : Byte) (i : Byte → Byte → Instr) :
    decodeAB (packWord op h a b 0#8) i = .ok (i a b) := by
  simp [decodeAB]

/-- The byte of a polarity: the polarity in bit 0, zero above it (rule R88). -/
theorem invertByte_bits (v : Bool) :
    ((BitVec.ofBool v).setWidth 8).extractLsb' 1 7 = 0 ∧ ((BitVec.ofBool v).setWidth 8).getLsbD 0 = v := by
  cases v <;> decide

theorem decodeABC_packWord (op : BitVec 4) (h : Slot) (a b : Byte) (v : Bool)
    (i : Byte → Byte → Bool → Instr) :
    decodeABC (packWord op h a b ((BitVec.ofBool v).setWidth 8)) i = .ok (i a b v) := by
  obtain ⟨hz, hv⟩ := invertByte_bits v
  rw [decodeABC, fieldC_packWord, if_pos hz, hv, fieldA_packWord, fieldB_packWord]

/-- Settles O1: the operation code picks the row, and the row's format reads its operands back. -/
theorem decodeOfEncodeIsOperation : Obligations.DecodeOfEncodeIsOperation := by
  intro i
  cases i with
  | begin | isConnected => simp [encode, decode, decodeZ_packWord]
  | constructPin | command | read1 => simp [encode, decode, decodeA_packWord]
  | write1 | writeN | readN => simp [encode, decode, decodeAB_packWord]
  | constructExplicit => simp [encode, decode, decodeABC_packWord]

/-! ### The encoder packs what the decoder reads -/

section
variable {w : Word} {op : BitVec 4}

theorem packWord_of_formatZ (ho : (fieldOp w).toNat = op.toNat)
    (hu : ¬ (fieldA w ≠ 0 ∨ fieldB w ≠ 0 ∨ fieldC w ≠ 0)) : packWord op (fieldH w) 0 0 0 = w := by
  simp only [not_or, not_not] at hu
  obtain ⟨ha, hb, hc⟩ := hu
  conv_rhs => rw [← packWord_fields w, BitVec.eq_of_toNat_eq ho, ha, hb, hc]

theorem packWord_of_formatA (ho : (fieldOp w).toNat = op.toNat) (hu : ¬ (fieldB w ≠ 0 ∨ fieldC w ≠ 0)) :
    packWord op (fieldH w) (fieldA w) 0 0 = w := by
  simp only [not_or, not_not] at hu
  obtain ⟨hb, hc⟩ := hu
  conv_rhs => rw [← packWord_fields w, BitVec.eq_of_toNat_eq ho, hb, hc]

theorem packWord_of_formatAB (ho : (fieldOp w).toNat = op.toNat) (hu : ¬ fieldC w ≠ 0) :
    packWord op (fieldH w) (fieldA w) (fieldB w) 0 = w := by
  conv_rhs => rw [← packWord_fields w, BitVec.eq_of_toNat_eq ho, not_not.mp hu]

/-- A byte with zero above bit 0 is the byte of that bit. -/
theorem invertByte_of_bit {c : Byte} (hc : c.extractLsb' 1 7 = 0) : (BitVec.ofBool (c.getLsbD 0)).setWidth 8 = c := by
  apply BitVec.eq_of_getLsbD_eq
  intro i hi
  cases i with
  | zero => simp
  | succ i =>
    have h : c.getLsbD (i + 1) = false := by
      have hb := congrArg (·.getLsbD i) hc
      simpa [show i < 7 by omega, Nat.add_comm 1 i] using hb
    simp [h]

theorem packWord_of_formatABC (ho : (fieldOp w).toNat = op.toNat) (hu : ¬ (fieldC w).extractLsb' 1 7 ≠ 0) :
    packWord op (fieldH w) (fieldA w) (fieldB w) ((BitVec.ofBool ((fieldC w).getLsbD 0)).setWidth 8) = w := by
  rw [invertByte_of_bit (not_not.mp hu), ← BitVec.eq_of_toNat_eq ho, packWord_fields]

/-- What a row of the operation table says of the operation it reads, by the row's check of the unused fields `U`. -/
theorem encode_of_row {U : Prop} {o : Except WordError Instr} {i f : Instr}
    (h : (U ∧ o = .error .unusedField) ∨ (¬ U ∧ o = .ok f)) (hf : ¬ U → encode f = w) (ho : o = .ok i) :
    encode i = w := by
  obtain ⟨-, he⟩ | ⟨hu, he⟩ := h
  · cases he.symm.trans ho
  · cases he.symm.trans ho
    exact hf hu

end

/-- Settles O2, by the row the operation code picks. -/
theorem encodeOfDecodeIsWord : Obligations.EncodeOfDecodeIsWord := by
  intro w i hd
  unfold decode at hd
  generalize ho : (fieldOp w).toNat = n at hd
  match n with
  | 0 => exact encode_of_row (decodeA_cases w _) (packWord_of_formatA ho) hd
  | 1 => exact encode_of_row (decodeABC_cases w _) (packWord_of_formatABC ho) hd
  | 2 => exact encode_of_row (decodeZ_cases w _) (packWord_of_formatZ ho) hd
  | 3 => exact encode_of_row (decodeZ_cases w _) (packWord_of_formatZ ho) hd
  | 4 => exact encode_of_row (decodeA_cases w _) (packWord_of_formatA ho) hd
  | 5 => exact encode_of_row (decodeAB_cases w _) (packWord_of_formatAB ho) hd
  | 6 => exact encode_of_row (decodeAB_cases w _) (packWord_of_formatAB ho) hd
  | 7 => exact encode_of_row (decodeA_cases w _) (packWord_of_formatA ho) hd
  | 8 => exact encode_of_row (decodeAB_cases w _) (packWord_of_formatAB ho) hd
  | n + 9 => exact nomatch hd

/-! ### The rows of the operation table -/

/-- A word is accepted when its operation code has a row and the fields the row does not use are zero. -/
theorem decode_accepts_iff (w : Word) : (∃ i, decode w = .ok i) ↔ (fieldOp w).toNat ≤ 8 ∧ ¬ UnusedFieldSet w := by
  obtain ⟨hbad, e, he⟩ | ⟨h8, hu, i, hi, -⟩ := decode_cases w
  · have hn : ¬ ((fieldOp w).toNat ≤ 8 ∧ ¬ UnusedFieldSet w) := fun ⟨h8, hu⟩ => hbad.elim (by omega) hu
    simp [he, hn]
  · exact ⟨fun _ => ⟨h8, hu⟩, fun _ => ⟨i, hi⟩⟩

theorem packWord_inj_iff {op op' : BitVec 4} {h h' : Slot} {a a' b b' c c' : Byte} :
    packWord op h a b c = packWord op' h' a' b' c' ↔ op = op' ∧ h = h' ∧ a = a' ∧ b = b' ∧ c = c' := by
  refine ⟨fun e => ?_, by rintro ⟨rfl, rfl, rfl, rfl, rfl⟩; rfl⟩
  exact ⟨by simpa using congrArg fieldOp e, by simpa using congrArg fieldH e, by simpa using congrArg fieldA e,
    by simpa using congrArg fieldB e, by simpa using congrArg fieldC e⟩

theorem packWord_and (op op' : BitVec 4) (h h' : Slot) (a a' b b' c c' : Byte) :
    packWord op h a b c &&& packWord op' h' a' b' c' =
      packWord (op &&& op') (h &&& h') (a &&& a') (b &&& b') (c &&& c') := by
  apply BitVec.eq_of_getLsbD_eq
  intro i _
  simp only [BitVec.getLsbD_and, packWord_getLsbD]
  split_ifs <;> rfl

/-- Matching under a mask goes field by field. -/
theorem and_packWord_eq_iff (w : Word) (mo vo : BitVec 4) (mh vh : Slot) (ma va mb vb mc vc : Byte) :
    w &&& packWord mo mh ma mb mc = packWord vo vh va vb vc ↔
      fieldOp w &&& mo = vo ∧ fieldH w &&& mh = vh ∧ fieldA w &&& ma = va ∧ fieldB w &&& mb = vb ∧
        fieldC w &&& mc = vc := by
  conv_lhs => rw [← packWord_fields w, packWord_and, packWord_inj_iff]

theorem nibble_and_F (x : BitVec 4) : x &&& 0xF#4 = x := BitVec.and_allOnes

theorem byte_and_FF (x : Byte) : x &&& 0xFF#8 = x := BitVec.and_allOnes

/-- The mask 0xFE keeps all but bit 0. -/
theorem byte_and_FE_eq_zero_iff (c : Byte) : c &&& 0xFE#8 = 0#8 ↔ c.extractLsb' 1 7 = 0 := by
  revert c
  decide

section
variable (w : Word) (n : BitVec 4)

theorem matches_formatZ_iff :
    w &&& packWord 0xF#4 0#4 0xFF#8 0xFF#8 0xFF#8 = packWord n 0#4 0#8 0#8 0#8 ↔
      (fieldOp w).toNat = n.toNat ∧ ¬ (fieldA w ≠ 0 ∨ fieldB w ≠ 0 ∨ fieldC w ≠ 0) := by
  rw [and_packWord_eq_iff]
  simp [BitVec.toNat_inj, nibble_and_F, byte_and_FF]

theorem matches_formatA_iff :
    w &&& packWord 0xF#4 0#4 0#8 0xFF#8 0xFF#8 = packWord n 0#4 0#8 0#8 0#8 ↔
      (fieldOp w).toNat = n.toNat ∧ ¬ (fieldB w ≠ 0 ∨ fieldC w ≠ 0) := by
  rw [and_packWord_eq_iff]
  simp [BitVec.toNat_inj, nibble_and_F, byte_and_FF]

theorem matches_formatAB_iff :
    w &&& packWord 0xF#4 0#4 0#8 0#8 0xFF#8 = packWord n 0#4 0#8 0#8 0#8 ↔
      (fieldOp w).toNat = n.toNat ∧ ¬ fieldC w ≠ 0 := by
  rw [and_packWord_eq_iff]
  simp [BitVec.toNat_inj, nibble_and_F, byte_and_FF]

theorem matches_formatABC_iff :
    w &&& packWord 0xF#4 0#4 0#8 0#8 0xFE#8 = packWord n 0#4 0#8 0#8 0#8 ↔
      (fieldOp w).toNat = n.toNat ∧ ¬ (fieldC w).extractLsb' 1 7 ≠ 0 := by
  rw [and_packWord_eq_iff]
  simp [BitVec.toNat_inj, nibble_and_F, byte_and_FE_eq_zero_iff]

end

/-- Settles O3: both sides say the same of the word's fields, one format's lemma for each row. -/
theorem acceptedWordsAreTheTableRows : Obligations.AcceptedWordsAreTheTableRows := by
  intro w
  simp only [decode_accepts_iff, List.mem_cons, List.not_mem_nil, or_false, exists_eq_or_imp, exists_eq_left]
  refine Iff.trans ?_ <| Iff.symm <|
    or_congr (matches_formatA_iff w 0) <| or_congr (matches_formatABC_iff w 1) <|
    or_congr (matches_formatZ_iff w 2) <| or_congr (matches_formatZ_iff w 3) <|
    or_congr (matches_formatA_iff w 4) <| or_congr (matches_formatAB_iff w 5) <|
    or_congr (matches_formatAB_iff w 6) <| or_congr (matches_formatA_iff w 7) (matches_formatAB_iff w 8)
  unfold UnusedFieldSet
  generalize (fieldOp w).toNat = n
  match n with
  | 0 | 1 | 2 | 3 | 4 | 5 | 6 | 7 | 8 => simp
  | n + 9 => simp

/-- Settles O4: the decoder evaluated on each of the nine words. -/
theorem writtenWordsDecode : Obligations.WrittenWordsDecode := by
  refine ⟨?_, ?_, ?_, ?_, ?_, ?_, ?_, ?_, ?_⟩ <;> decide

/-! ### The command bytes (rule R93) -/

theorem topBit_getLsbD {i : Nat} (hi : i < 8) : (0x80#8).getLsbD i = decide (i = 7) := by
  interval_cases i <;> rfl

theorem lowBits_getLsbD {i : Nat} (hi : i < 8) : (0x7F#8).getLsbD i = !decide (i = 7) := by
  interval_cases i <;> rfl

/-- Bit 7 of a write's command byte is the polarity; bits 6 to 0 are the register byte's. -/
theorem writeCmd_getLsbD (reg : Byte) (invert : Bool) {i : Nat} (hi : i < 8) :
    (writeCmd reg invert).getLsbD i = if i = 7 then invert else reg.getLsbD i := by
  cases invert with
  | false =>
    rw [writeCmd, if_neg Bool.false_ne_true, BitVec.getLsbD_and, lowBits_getLsbD hi]
    by_cases h : i = 7 <;> simp [h]
  | true =>
    rw [writeCmd, if_pos rfl, BitVec.getLsbD_or, topBit_getLsbD hi]
    by_cases h : i = 7 <;> simp [h]

/-- A read's command byte is a write's with the opposite polarity. -/
theorem readCmd_eq_writeCmd_not (reg : Byte) (invert : Bool) : readCmd reg invert = writeCmd reg (!invert) := by
  cases invert <;> rfl

theorem writeCmd_not (reg : Byte) (invert : Bool) : writeCmd reg (!invert) = writeCmd reg invert ^^^ 0x80#8 := by
  apply BitVec.eq_of_getLsbD_eq
  intro i hi
  rw [BitVec.getLsbD_xor, writeCmd_getLsbD _ _ hi, writeCmd_getLsbD _ _ hi, topBit_getLsbD hi]
  by_cases h : i = 7 <;> simp [h]

theorem writeCmd_low (reg : Byte) (invert : Bool) : (writeCmd reg invert).extractLsb' 0 7 = reg.extractLsb' 0 7 := by
  apply BitVec.eq_of_getLsbD_eq
  intro i hi
  simp [writeCmd_getLsbD _ _ (show i < 8 by omega), show i ≠ 7 by omega]

theorem writeCmd_xor_topBit (reg : Byte) (invert : Bool) : writeCmd (reg ^^^ 0x80#8) invert = writeCmd reg invert := by
  apply BitVec.eq_of_getLsbD_eq
  intro i hi
  rw [writeCmd_getLsbD _ _ hi, writeCmd_getLsbD _ _ hi, BitVec.getLsbD_xor, topBit_getLsbD hi]
  by_cases h : i = 7 <;> simp [h]

/-- Settles O28: a read's byte is a write's with the opposite polarity, and the polarity is bit 7 alone. -/
theorem commandBytesSetTheTopBit : Obligations.CommandBytesSetTheTopBit := by
  intro reg invert
  refine ⟨?_, ?_, ?_, writeCmd_low reg invert, ?_, writeCmd_xor_topBit reg invert, ?_⟩
  · cases invert <;> rfl
  · cases invert <;> rfl
  · rw [readCmd_eq_writeCmd_not]
    exact writeCmd_not reg invert
  · rw [readCmd_eq_writeCmd_not, writeCmd_low]
  · rw [readCmd_eq_writeCmd_not, readCmd_eq_writeCmd_not]
    exact writeCmd_xor_topBit reg _

end Sys2Proof.Machine
end
section
/-!
PROOFS. The Resolver (spec/40_resolver.md): what the two constructors store (O9, O10) and what `IS_CONNECTED` answers (O11,
O12). The uniqueness that rule R14 gives the masks and the register ids makes `resolve` and the explicit constructor's
resolution one equation per case; the operations only store what these say.
-/
namespace Sys2Proof.Machine

/-! ### The pin table (rules R108, R109) -/

theorem bitIndex_shiftLeft_one {b : Nat} (hb : b < 8) : bitIndex (1#8 <<< b) = some b := by
  interval_cases b <;> decide

/-- A mask with a single bit is that bit shifted into its place, and `bitIndex` finds the place. -/
theorem bitIndex_of_singleBit {m : Byte} (h : singleBit m = true) :
    ∃ b, b < 8 ∧ m = 1#8 <<< b ∧ bitIndex m = some b := by
  obtain ⟨b, hb, hm⟩ := List.any_eq_true.mp h
  obtain rfl := beq_iff_eq.mp hm
  have hlt := List.mem_range.mp hb
  exact ⟨b, hlt, rfl, bitIndex_shiftLeft_one hlt⟩

/-- `WF` clause (c): the mask of a row of the pin table has a single bit. -/
theorem pinTable_singleBit {c : Config} (hw : c.wf = true) {e : PinEntry} (he : e ∈ c.pinTable) :
    singleBit e.mask = true := by
  simp only [Config.wf, Config.masksSingle, Bool.and_eq_true, List.all_eq_true] at hw
  obtain ⟨⟨⟨⟨⟨_, hm⟩, _⟩, _⟩, _⟩, _⟩ := hw
  exact hm e he

theorem resolve_of_unmapped {c : Config} {pin : Byte} (h : (c.pinTable.find? fun e => e.pin == pin) = none) :
    resolve c pin = ⟨none, 0, false⟩ := by
  simp [resolve, h]

theorem resolve_of_mapped {c : Config} {pin : Byte} {e : PinEntry} {b : Nat}
    (h : (c.pinTable.find? fun e => e.pin == pin) = some e) (hb : bitIndex e.mask = some b) :
    resolve c pin = ⟨some e.bank, BitVec.ofNat 8 b, true⟩ := by
  simp [resolve, h, hb]

/-! ### The banks' register ids (rules R101, R110, R112) -/

theorem distinct_iff_nodup {α : Type} [DecidableEq α] (l : List α) : distinct l = true ↔ l.Nodup := by
  induction l with
  | nil => simp [distinct]
  | cons x xs ih => simp [distinct, ih]

/-- `WF` clause (e): no two banks share an output register, and each direction register stands at the offset. -/
theorem outIds_nodup_and_dirId_eq {c : Config} (hw : c.wf = true) :
    (c.banks.map (·.outId)).Nodup ∧ ∀ k ∈ c.banks, k.dirId = dirIdOf c k.outId := by
  simp only [Config.wf, Config.idsLegal, Bool.and_eq_true, List.all_eq_true, distinct_iff_nodup, beq_iff_eq] at hw
  obtain ⟨⟨⟨_, ⟨hids, _⟩, hdir⟩, _⟩, _⟩ := hw
  exact ⟨(List.nodup_append.mp hids).1, hdir⟩

/-- The pair of a bank's own registers names that bank: no other bank has its output register. -/
theorem bankOf_of_named {c : Config} (hw : c.wf = true) {k : Bank} (hk : k ∈ c.banks) :
    bankOf c k.outId (dirIdOf c k.outId) = some k.token := by
  obtain ⟨hids, hdir⟩ := outIds_nodup_and_dirId_eq hw
  have hsome : (bankOf c k.outId (dirIdOf c k.outId)).isSome := by
    rw [bankOf, Option.isSome_map, List.find?_isSome]
    exact ⟨k, hk, by simp [hdir k hk]⟩
  obtain ⟨token, htoken⟩ := Option.isSome_iff_exists.mp hsome
  obtain ⟨x, hx, rfl⟩ := Option.map_eq_some_iff.mp htoken
  have hpair := List.find?_some hx
  simp only [Bool.and_eq_true, beq_iff_eq] at hpair
  obtain ⟨hout, _⟩ := hpair
  rw [htoken, List.inj_on_of_nodup_map hids (List.mem_of_find?_eq_some hx) hk hout]

theorem bankOf_of_unnamed {c : Config} {regid : Byte} (h : ∀ k ∈ c.banks, k.outId ≠ regid) (dir : Byte) :
    bankOf c regid dir = none := by
  rw [bankOf, Option.map_eq_none_iff, List.find?_eq_none]
  intro k hk
  simp [h k hk]

/-- Rule R112: an explicit handle is valid when its registers name a bank and its index is below 8. -/
theorem resolveExplicit_valid (c : Config) (regid pin : Byte) (invert : Bool) :
    (resolveExplicit c regid pin invert).valid =
      ((resolveExplicit c regid pin invert).bank.isSome && decide (pin.toNat < 8)) := by
  obtain ⟨hvalid, _⟩ := resolveExplicit_sound c regid pin true invert
  rw [Bool.eq_iff_iff, Bool.and_eq_true, decide_eq_true_eq, Option.isSome_iff_ne_none]
  exact hvalid

theorem resolveExplicit_of_bankOf {c : Config} {regid : Byte} {o : Option Nat}
    (h : bankOf c regid (dirIdOf c regid) = o) (pin : Byte) (invert : Bool) :
    resolveExplicit c regid pin invert = ⟨o, pin, o.isSome && decide (pin.toNat < 8)⟩ := by
  have hvalid := resolveExplicit_valid c regid pin invert
  subst h
  exact congrArg (Resolved.mk _ pin) hvalid

/-- Rule R110: a register that is no bank's output register, or an index of 8 or more, fails validation. -/
theorem resolveExplicit_invalid {c : Config} {regid pin : Byte}
    (h : (∀ k ∈ c.banks, k.outId ≠ regid) ∨ 8 ≤ pin.toNat) (invert : Bool) :
    (resolveExplicit c regid pin invert).valid = false := by
  obtain hreg | hpin := h
  · rw [resolveExplicit_of_bankOf (bankOf_of_unnamed hreg _)]
    rfl
  · simp [resolveExplicit_valid, Nat.not_lt.mpr hpin]

/-! ### The operations (rules R111 to R113) -/

theorem exec_constructPin {s : State} {h : Slot} {pin : Byte} (ha : Accepts s (.constructPin h pin)) :
    exec (.constructPin h pin) s =
      .next (construct h (resolve s.cfg pin) false (s.openOp (.constructPin h pin))) :=
  exec_of_accepts ha

theorem exec_constructExplicit {s : State} {h : Slot} {regid pin : Byte} {invert : Bool}
    (ha : Accepts s (.constructExplicit h regid pin invert)) :
    exec (.constructExplicit h regid pin invert) s =
      .next (construct h (resolveExplicit s.cfg regid pin invert) invert
        (s.openOp (.constructExplicit h regid pin invert))) :=
  exec_of_accepts ha

/-- Settles O9: `resolve` by the pin table's row; `WF` gives the row's mask its single bit. -/
theorem constructPinStoresTheResolvedHandle : Obligations.ConstructPinStoresTheResolvedHandle := by
  intro s h pin ha
  have hw : s.cfg.wf = true := ha.1
  rw [exec_constructPin ha]
  refine ⟨fun hnone => ?_, fun e he => ?_⟩
  · rw [resolve_of_unmapped hnone]
    rfl
  · obtain ⟨b, hb, hmask, hidx⟩ := bitIndex_of_singleBit (pinTable_singleBit hw (List.mem_of_find?_eq_some he))
    refine ⟨b, hb, hmask, ?_⟩
    rw [resolve_of_mapped he hidx]
    rfl

/-- Settles O10: the resolution of a named and of an unnamed output register. -/
theorem constructExplicitStoresTheValidatedHandle : Obligations.ConstructExplicitStoresTheValidatedHandle := by
  intro s h regid pin invert ha
  have hw : s.cfg.wf = true := ha.1
  rw [exec_constructExplicit ha]
  refine ⟨?_, fun hreg => ?_⟩
  · rintro k hk rfl
    rw [resolveExplicit_of_bankOf (bankOf_of_named hw hk)]
    rfl
  · rw [resolveExplicit_of_bankOf (bankOf_of_unnamed hreg _)]
    rfl

/-- Settles O11: the body's response, by the two values of the validity. -/
theorem isConnectedAnswersTheValidity : Obligations.IsConnectedAnswersTheValidity := by
  intro s h ha
  rw [exec_of_accepts ha]
  simp only [opBody, State.openOp_handle]
  cases (s.handle h).valid <;> rfl

/-- After an accepted construction the port accepts every operation but a constructor on that slot (rule R104). -/
theorem Accepts.after_construct {s : State} {i j : Instr} (ha : Accepts s i) (hj : j.slot = i.slot)
    (hc : j.isConstructor = false) (x : Resolved) (invert : Bool) :
    Accepts (construct i.slot x invert (s.openOp i)) j := by
  obtain ⟨hw, hp, hi⟩ := ha
  refine ⟨hw, hp, ?_⟩
  have hslot : i.slot.toNat < s.cfg.nHandles := by
    simp only [State.illegal, Instr.wellFormed, Bool.or_eq_false_iff, Bool.not_eq_false', decide_eq_true_eq] at hi
    exact hi.1
  simp [State.illegal, Instr.wellFormed, construct, hj, hc, hslot]

/-- Settles O12: the handle stored is invalid, the port accepts `IS_CONNECTED` on it, and O11 gives the answer. -/
theorem failedValidationReportsUnconnected : Obligations.FailedValidationReportsUnconnected := by
  intro s t h regid pin invert ha hfail ht
  rw [exec_constructExplicit ha] at ht
  obtain rfl := Host.Outcome.next.inj ht
  have hcon := ha.after_construct (j := .isConnected h) rfl rfl (resolveExplicit s.cfg regid pin invert) invert
  refine ⟨_, isConnectedAnswersTheValidity _ h hcon, ?_⟩
  simp [construct, resolveExplicit_invalid hfail]

end Sys2Proof.Machine
end
section
/-!
PROOFS. The clock divider (spec/41_bus_initializer.md): the position (O15), the fields (O16), the table (O17). The position
is the least exponent whose power of two reaches `DIV`; the table's rows are that fact between two powers.
-/
namespace Sys2Proof.Machine

/-! ### The position (rule R122) -/

/-- Between two powers of two the position is the lower exponent at the lower power and the upper one above it. -/
theorem position_of_bounds {div p0 : Nat} (hlo : 2 ^ p0 ≤ div) (hhi : div < 2 ^ (p0 + 1)) :
    position div = if div = 2 ^ p0 then p0 else p0 + 1 := by
  have hlog : Nat.log2 div = p0 :=
    (Nat.log2_eq_iff (Nat.pos_iff_ne_zero.mp (Nat.lt_of_lt_of_le (Nat.two_pow_pos p0) hlo))).mpr ⟨hlo, hhi⟩
  rw [position, hlog]

/-- The position is the least exponent whose power of two reaches the value (rule R122). -/
theorem position_le_iff {div : Nat} (hpos : div ≠ 0) (n : Nat) : position div ≤ n ↔ div ≤ 2 ^ n := by
  have hlo := Nat.log2_self_le hpos
  have hhi : div < 2 ^ (Nat.log2 div + 1) := Nat.lt_log2_self
  rw [position_of_bounds hlo hhi]
  split
  · next heq => rw [heq, Nat.pow_le_pow_iff_right (by decide), ← heq]
  · next hne =>
    refine ⟨fun h => hhi.le.trans (Nat.pow_le_pow_right (by decide) h), fun h => ?_⟩
    exact (Nat.pow_lt_pow_iff_right (by decide)).mp ((lt_of_le_of_ne hlo (Ne.symm hne)).trans_le h)

/-- Settles O15: `position_of_bounds` describes the position by the highest set bit, `position_le_iff` as the least exponent. -/
theorem positionIsTheCeilingLogarithm : Obligations.PositionIsTheCeilingLogarithm := by
  intro div hdiv
  have hle := position_le_iff (div := div) (by omega)
  refine ⟨fun p0 => position_of_bounds, (hle _).mp le_rfl, fun n => (hle n).mpr, ?_⟩
  have h0 : ¬ position div ≤ 0 := fun h => absurd ((hle 0).mp h) (by omega)
  omega

/-! ### The divider fields (rule R123) -/

theorem divFields_of_ge {p : Nat} (h : 7 ≤ p) : divFields p = ⟨false, 3⟩ := if_pos h

theorem divFields_of_odd {p : Nat} (h : p < 7) (hp : p % 2 = 1) :
    divFields p = ⟨true, BitVec.ofNat 2 ((p - 1) / 2)⟩ := by
  simp [divFields, Nat.not_le.mpr h, hp]

theorem divFields_of_even {p : Nat} (h : p < 7) (hp : p % 2 = 0) :
    divFields p = ⟨false, BitVec.ofNat 2 (p / 2 - 1)⟩ := by
  simp [divFields, Nat.not_le.mpr h, hp]

/-- Settles O16: by the parity of the position; below 7 the select field's value fits its two bits. -/
theorem dividerFieldsFollowThePosition : Obligations.DividerFieldsFollowThePosition := by
  intro p hp
  refine ⟨divFields_of_ge, fun h7 => ?_⟩
  obtain heven | hodd := Nat.mod_two_eq_zero_or_one p
  · simp only [divFields_of_even h7 heven, BitVec.toNat_ofNat]
    exact ⟨by simp [heven], nofun, fun _ => by omega⟩
  · simp only [divFields_of_odd h7 hodd, BitVec.toNat_ofNat]
    exact ⟨by simp [hodd], fun _ => by omega, nofun⟩

/-! ### The divider table (rule R127) -/

/-- A row of the table: the ratios whose `DIV` lies above `2^p` and not above `2^(p+1)` have position `p + 1`. -/
theorem divider_row {c : Config} (p : Nat) (hlo : 2 * 2 ^ p + 2 ≤ c.fBase / c.fSpi)
    (hhi : c.fBase / c.fSpi ≤ 2 * 2 ^ (p + 1) + 1) :
    2 ^ p + 1 ≤ divValue c ∧ divValue c ≤ 2 ^ (p + 1) ∧ position (divValue c) = p + 1 ∧
      busFields c = divFields (p + 1) := by
  have h1 : 2 ^ p + 1 ≤ divValue c := by rw [divValue]; omega
  have h2 : divValue c ≤ 2 ^ (p + 1) := by rw [divValue]; omega
  have hle := position_le_iff (div := divValue c) (by omega)
  have hpos : position (divValue c) = p + 1 := by
    have h3 := (hle (p + 1)).mpr h2
    have h4 : ¬ position (divValue c) ≤ p := fun h => absurd ((hle p).mp h) (by omega)
    omega
  exact ⟨h1, h2, hpos, by rw [busFields, hpos]⟩

/-- The row of the double-speed divider 2, the first of the table. -/
theorem divider_first_row {c : Config} (hlo : 4 ≤ c.fBase / c.fSpi) (hhi : c.fBase / c.fSpi ≤ 5) :
    divValue c = 2 ∧ position (divValue c) = 1 ∧ busFields c = ⟨true, 0⟩ := by
  obtain ⟨h1, h2, hpos, hf⟩ := divider_row 0 hlo hhi
  exact ⟨le_antisymm h2 h1, hpos, hf⟩

/-- The last row: every ratio from 130 on has the maximum divider. -/
theorem divider_last_row {c : Config} (hlo : 130 ≤ c.fBase / c.fSpi) :
    65 ≤ divValue c ∧ 7 ≤ position (divValue c) ∧ busFields c = ⟨false, 3⟩ := by
  have h1 : 65 ≤ divValue c := by rw [divValue]; omega
  have h2 : ¬ position (divValue c) ≤ 6 := by rw [position_le_iff (by omega)]; omega
  exact ⟨h1, Nat.not_le.mp h2, divFields_of_ge (Nat.not_le.mp h2)⟩

/-- `WF` clause (b): a ratio below 4 is no configuration (rule R14). -/
theorem not_wf_of_ratio {c : Config} (h : c.fBase / c.fSpi ≤ 3) : c.wf = false := by
  have hdiv : ¬ 2 ≤ divValue c := by rw [divValue]; omega
  simp [Config.wf, Config.dividerLegal, hdiv]

/-- Settles O17: row `p` of the table is `divider_row p`; TP's ratio is 4, in the first row. -/
theorem dividerFollowsTheTable : Obligations.DividerFollowsTheTable := by
  intro c
  refine ⟨not_wf_of_ratio, divider_first_row, divider_row 1, divider_row 2, divider_row 3, divider_row 4, divider_row 5,
    divider_last_row, fun hb hs => ?_⟩
  have hq : c.fBase / c.fSpi = 4 := by rw [hb, hs]
  exact divider_first_row hq.ge (by omega)

end Sys2Proof.Machine
end
section
/-!
PROOFS. `BEGIN` (spec/41_bus_initializer.md) as an operation: only on a valid handle does one set the latch (O24), and it
answers whatever LINK and TIME do.
-/
namespace Sys2Proof.Machine

/-! ### Only `initializeOnce` sets the latch -/

/-- The run stands outside `BEGIN` or at its diagnostic, and the latch is as in `s`. -/
structure LatchUntouched (s u : State) : Prop where
  latch : u.busInit = s.busInit
  label : ∀ op l, u.eng.phase = .busy op l → l.ofBegin = false ∨ l = .badCs

theorem LatchUntouched.micro {s u : State} {op : Instr} {l : Label} (hp : u.eng.phase = .busy op l)
    (h : LatchUntouched s u) : LatchUntouched s (microLabel op l u) := by
  have hl := h.label op l hp
  have hns : l ≠ .status := by
    rintro rfl
    obtain hl | hl := hl <;> cases hl
  refine ⟨(microLabel_busInit _ _ _ hns).trans h.latch, fun op' l' e => ?_⟩
  obtain hl | rfl := hl
  · obtain hr | ⟨l'', hr, hl''⟩ := microLabel_outside_begin (op := op) u hl <;> rw [hr] at e <;> cases e
    exact .inl hl''
  · cases e

/-- A run that starts outside `BEGIN`, or at its diagnostic, leaves the latch (rule R116). -/
theorem complete_busInit {s t : State} {op : Instr} {l : Label} (hl : l.ofBegin = false ∨ l = .badCs)
    (hc : complete (s.goto op l) = .next t) : t.busInit = s.busInit := by
  have h0 : LatchUntouched s (s.goto op l) := ⟨rfl, fun _ _ e => by cases e; exact hl⟩
  exact (complete_keeps (P := LatchUntouched s) (fun _ _ _ hp h => h.micro hp) (fun _ _ h => ⟨h.1, h.2⟩)
    (fun _ _ h => ⟨h.1, h.2⟩) (fun _ _ h => ⟨h.1, h.2⟩) hc h0).latch

/-- An operation's body leaves the latch, or it is `BEGIN`'s on a valid handle. -/
theorem opBody_busInit {i : Instr} {s t : State} (hb : opBody i s = .next t) :
    t.busInit = s.busInit ∨ ∃ h, i = .begin h ∧ (s.handle h).valid = true := by
  by_cases hi : isTransaction i = true
  · rw [opBody_transaction hi] at hb
    split at hb
    · exact .inl (complete_busInit (.inl rfl) hb)
    · injection hb with hb; subst hb; exact .inl rfl
  · cases i with
    | constructPin | constructExplicit | isConnected => injection hb with hb; subst hb; exact .inl rfl
    | begin h =>
      cases hv : (s.handle h).valid with
      | true => exact .inr ⟨h, rfl, hv⟩
      | false =>
        simp only [opBody, hv] at hb
        exact .inl (complete_busInit (.inr rfl) hb)
    | command | write1 | writeN | read1 | readN => exact absurd rfl hi

/-- Settles O24: an ILLEGAL operation writes `RSP` alone, and every accepted one but `BEGIN` on a valid handle leaves the
latch. -/
theorem onlyBeginInitialisesTheBus : Obligations.OnlyBeginInitialisesTheBus := by
  intro i s t hx hclear hset
  obtain ⟨_, _, ⟨_, rfl⟩ | ⟨_, hb⟩⟩ := exec_next_cases hx
  · exact absurd (hclear.symm.trans hset) (by decide)
  · obtain hkept | hbegin := opBody_busInit hb
    · exact absurd (hclear.symm.trans (hkept.symm.trans hset)) (by decide)
    · exact hbegin

/-! ### `BEGIN` always answers -/

/-- How many micro-steps `BEGIN` takes at most from a label on. -/
def Label.beginLeft (c : Config) : Label → Nat
  | .csDir => c.busOutPins.length + 5
  | .csOut => c.busOutPins.length + 4
  | .busPin n => c.busOutPins.length - n + 3
  | .ctrl => 2
  | .status | .badCs => 1
  | .select | .load | .send _ _ | .sample _ | .poll _ | .receive _ | .clock _ | .timedOut | .store _ | .settleStart
  | .settleWait | .tailStart | .tailWait | .unselect _ => 0

theorem nextBusPin_beginLeft (c : Config) (n : Nat) :
    (nextBusPin c n).ofBegin = true ∧ (nextBusPin c n).beginLeft c ≤ c.busOutPins.length - n + 3 ∧
    (n < c.busOutPins.length ∨ (nextBusPin c n).beginLeft c = 2) := by
  unfold nextBusPin
  split
  · next h => exact ⟨rfl, le_rfl, .inl h⟩
  · exact ⟨rfl, by simp [Label.beginLeft], .inr rfl⟩

/-- Every micro-step of `BEGIN` ends it or leaves fewer of them. -/
theorem microLabel_beginLeft {op : Instr} {l : Label} (s : State) (hb : l.ofBegin = true) :
    (microLabel op l s).eng.phase = .ready ∨
    ∃ l', (microLabel op l s).eng.phase = .busy op l' ∧ l'.ofBegin = true ∧ l'.beginLeft s.cfg < l.beginLeft s.cfg := by
  cases l with
  | badCs | status => exact .inl rfl
  | csDir => exact .inr ⟨.csOut, rfl, rfl, Nat.lt_succ_self _⟩
  | csOut =>
    rw [microLabel, microCsOut_phase]
    split
    · exact .inl rfl
    · obtain ⟨hl, hle, _⟩ := nextBusPin_beginLeft s.cfg 0
      exact .inr ⟨_, rfl, hl, Nat.lt_succ_of_le hle⟩
  | busPin n =>
    obtain ⟨hl, hle, hn⟩ := nextBusPin_beginLeft s.cfg (n + 1)
    refine .inr ⟨_, rfl, hl, ?_⟩
    simp only [Label.beginLeft] at *
    omega
  | ctrl => exact .inr ⟨.status, rfl, rfl, Nat.lt_succ_self _⟩
  | _ => cases hb

theorem Label.beginLeft_le_tailBudget (c : Config) (l : Label) : l.beginLeft c ≤ tailBudget c := by
  cases l <;> simp only [Label.beginLeft, tailBudget] <;> omega

/-- A micro-step of the tail is its label's, at a time that may have advanced. -/
theorem tailStep_busy {s : State} {op : Instr} {l : Label} (hp : s.eng.phase = .busy op l) :
    ∃ u, tailStep s = microLabel op l u ∧ u.cfg = s.cfg := by
  unfold tailStep
  split
  · exact ⟨s, microStep_busy hp, rfl⟩
  · exact ⟨s.timeStep s.lack, microStep_busy (by simpa using hp), rfl⟩

theorem runTail_begin_ready (n : Nat) {s : State} {op : Instr} {l : Label} (hp : s.eng.phase = .busy op l)
    (hb : l.ofBegin = true) (hn : l.beginLeft s.cfg ≤ n) : (runTail n s).eng.phase = .ready := by
  induction n generalizing s l with
  | zero => cases l <;> simp [Label.beginLeft, Label.ofBegin] at hn hb
  | succ n ih =>
    obtain ⟨u, hu, hcfg⟩ := tailStep_busy hp
    rw [runTail_succ hp, hu]
    obtain hr | ⟨l', hp', hb', hlt⟩ := microLabel_beginLeft (op := op) u hb
    · rw [runTail_ready hr]; exact hr
    · refine ih hp' hb' ?_
      rw [microLabel_cfg]
      rw [hcfg] at hlt ⊢
      omega

/-- `BEGIN` waits for nothing: whatever LINK and TIME do, also when they stall, it answers (rule R117). -/
theorem begin_completes (s : State) (op : Instr) {l : Label} (hb : l.ofBegin = true) :
    ∃ t, complete (s.goto op l) = .next t := by
  suffices h : (settled (s.goto op l)).eng.phase = .ready from ⟨_, by simp only [complete, h]; rfl⟩
  have h0 : BeginRun (s.goto op l) ∧ (s.goto op l).cfg = s.cfg :=
    ⟨⟨fun _ _ e => by cases e; exact hb, fun e => by cases e⟩, rfl⟩
  obtain ⟨hrun, hcfg⟩ := runTurns_keeps (P := fun u => BeginRun u ∧ u.cfg = s.cfg)
    (fun _ _ _ hp h => ⟨h.1.micro hp, by simpa using h.2⟩) (fun _ _ h => ⟨⟨h.1.1, h.1.2⟩, h.2⟩)
    (fun _ _ h => ⟨⟨h.1.1, h.1.2⟩, h.2⟩) (fun _ _ h => ⟨⟨h.1.1, h.1.2⟩, h.2⟩) (s.goto op l).sched _ h0
  rw [settled]
  cases hp : (runTurns (s.goto op l).sched (s.goto op l)).eng.phase with
  | ready => rw [runTail_ready hp]; exact hp
  | busy op' l' =>
    refine runTail_begin_ready _ hp (hrun.label _ _ hp) ?_
    rw [hcfg]
    exact l'.beginLeft_le_tailBudget s.cfg

end Sys2Proof.Machine
end
section
/-!
PROOFS. What `BEGIN` writes on a valid handle (spec/41_bus_initializer.md): the first time (O19) and later (O20). What it has
written is a function of where it stands, whatever LINK and TIME do between its micro-steps; that is the invariant of its
run, and the two statements read it at the end.
-/
namespace Sys2Proof.Machine

/-! ### Induction over a run, with the bytes LINK draws -/

/-- `runTurns_keeps` where LINK draws only bytes of its turns. -/
theorem runTurns_keeps_of_links {P : State → Prop} {L : Byte → Prop}
    (hmicro : ∀ s op l, s.eng.phase = .busy op l → P s → P (microLabel op l s))
    (hlink : ∀ s r, L r → P s → P (s.linkComplete r))
    (htime : ∀ s d, P s → P (s.timeStep d))
    (hsched : ∀ (s : State) ts, P s → P { s with sched := ts }) (ts : List Turn) {s : State}
    (hL : ∀ r, Turn.link r ∈ ts → L r) (h : P s) : P (runTurns ts s) := by
  induction ts generalizing s with
  | nil => exact hsched s [] h
  | cons t ts ih =>
    have ih {u : State} (hu : P u) : P (runTurns ts u) := ih (fun r hr => hL r (List.mem_cons_of_mem _ hr)) hu
    cases hp : s.eng.phase with
    | ready => rw [runTurns_ready hp]; exact hsched s _ h
    | busy op l =>
      cases t with
      | stall => simp only [runTurns, hp]; exact hsched s _ h
      | engine => rw [runTurns_engine hp]; exact ih (hmicro s op l hp h)
      | link r => rw [runTurns_link hp]; exact ih (hlink s r (hL r List.mem_cons_self) h)
      | time d => rw [runTurns_time hp]; exact ih (htime s d h)

/-- `complete_keeps` where LINK draws only bytes of the run's turns; none when LINK is silent. -/
theorem complete_keeps_of_links {P : State → Prop} {s t : State} (hc : complete s = .next t) (h : P s)
    (hmicro : ∀ s op l, s.eng.phase = .busy op l → P s → P (microLabel op l s))
    (hlink : ∀ u r, Turn.link r ∈ s.sched → P u → P (u.linkComplete r))
    (htime : ∀ s d, P s → P (s.timeStep d))
    (hsched : ∀ (s : State) ts, P s → P { s with sched := ts }) : P t := by
  unfold complete at hc
  split at hc
  · injection hc with hc
    subst hc
    exact runTail_keeps hmicro htime _ _
      (runTurns_keeps_of_links (L := fun r => Turn.link r ∈ s.sched) hmicro hlink htime hsched _ (fun _ h => h) h)
  · cases hc

/-! ### Several bits of a space -/

/-- `SetBit` on each bit of a list in turn (rule R69). -/
def Memory.setBits (m : Memory) (ps : List (Nat × Nat)) : Memory := ps.foldl (fun m p => m.setBit p.1 p.2) m

/-- `setOut_bit` as a fact of the memory alone. -/
theorem Memory.setBit_bit {m : Memory} (hm : m.wf = true) (k b k' b' : Nat) :
    ((m.setBit k b).read k').getLsbD b' = ((m.read k').getLsbD b' || decide ((k', b') = (k, b) ∧ b' < 8)) :=
  setOut_bit (s := { State.reset with gpioOut := m }) hm k b k' b'

theorem Memory.setBits_bit (ps : List (Nat × Nat)) {m : Memory} (hm : m.wf = true) (k b : Nat) :
    ((m.setBits ps).read k).getLsbD b = ((m.read k).getLsbD b || decide ((k, b) ∈ ps ∧ b < 8)) := by
  induction ps generalizing m with
  | nil => simp [Memory.setBits]
  | cons p ps ih =>
    have h := ih (Memory.setBit_wf hm p.1 p.2)
    rw [Memory.setBit_bit hm] at h
    rw [Memory.setBits, List.foldl_cons, ← Memory.setBits, h]
    simp only [List.mem_cons, or_and_right, Bool.decide_or, Bool.or_assoc]

theorem Memory.setBits_concat (m : Memory) (ps : List (Nat × Nat)) (k b : Nat) :
    (m.setBits ps).setBit k b = m.setBits (ps ++ [(k, b)]) := by
  simp [Memory.setBits]

/-! ### What `BEGIN` has written -/

/-- The writes of `BEGIN` so far: direction bits, output bits, and whether each of the two SPI registers is programmed. -/
structure Written where
  dir    : List (Nat × Nat)
  out    : List (Nat × Nat)
  ctrl   : Bool
  status : Bool

/-- The SPI registers after the writes, when LINK did nothing (rule R124). -/
def Written.spi (w : Written) (c : Config) (p : Spi) : Spi :=
  { p with ctrl := if w.ctrl then ctrlWord c else p.ctrl, dbl := if w.status then (busFields c).dbl else p.dbl }

/-- What `BEGIN` on the handle that drives bit `kb` has written where it stands: configureChipSelect, then initializeOnce
unless the bus was initialised (rules R117 to R120, R124, R125). At `csDir`, its first label, nothing yet. -/
def writtenAt (s : State) (kb : Nat × Nat) : Phase → Written
  | .ready => if s.busInit then ⟨[kb], [kb], false, false⟩ else ⟨kb :: s.cfg.busOutPins, [kb], true, true⟩
  | .busy _ .csOut => ⟨[kb], [], false, false⟩
  | .busy _ (.busPin n) => ⟨kb :: s.cfg.busOutPins.take n, [kb], false, false⟩
  | .busy _ .ctrl => ⟨kb :: s.cfg.busOutPins, [kb], false, false⟩
  | .busy _ .status => ⟨kb :: s.cfg.busOutPins, [kb], true, false⟩
  | .busy _ _ => ⟨[], [], false, false⟩

/-- `u` differs from `s` by the writes `w` of `BEGIN` on slot `h`, in the elements `BEGIN` writes. -/
structure HasWritten (s : State) (h : Slot) (w : Written) (u : State) : Prop where
  dir : u.gpioDir = s.gpioDir.setBits w.dir
  out : u.gpioOut = s.gpioOut.setBits w.out
  latch : u.busInit = (s.busInit || w.status)
  ctrl : u.spi.ctrl = (w.spi s.cfg s.spi).ctrl
  dbl : u.spi.dbl = (w.spi s.cfg s.spi).dbl
  trace : u.trace.filter isCsEvent = s.trace.filter isCsEvent ++ w.out.map fun _ => .csHigh h
  link : LinkSilent s.sched → u.spi = w.spi s.cfg s.spi

/-- The elements `BEGIN` on a valid handle leaves alone. -/
def BeginKeeps (s u : State) : Prop :=
  u.cfg = s.cfg ∧ u.handles = s.handles ∧ u.buf = s.buf ∧ u.diag = s.diag ∧ u.cmd = s.cmd ∧ u.host = s.host ∧
  u.eng.txn = s.eng.txn

section
variable {s u : State} {h : Slot} {w : Written}

theorem HasWritten.goto (hw : HasWritten s h w u) (op : Instr) (l : Label) : HasWritten s h w (u.goto op l) :=
  ⟨hw.dir, hw.out, hw.latch, hw.ctrl, hw.dbl, hw.trace, hw.link⟩

theorem HasWritten.finishBegin (hw : HasWritten s h w u) : HasWritten s h w u.finishBegin :=
  ⟨hw.dir, hw.out, hw.latch, hw.ctrl, hw.dbl, hw.trace, hw.link⟩

theorem HasWritten.time (hw : HasWritten s h w u) {d : Nat} : HasWritten s h w (u.timeStep d) :=
  ⟨hw.dir, hw.out, hw.latch, hw.ctrl, hw.dbl, hw.trace, hw.link⟩

theorem HasWritten.sched (hw : HasWritten s h w u) {ts : List Turn} : HasWritten s h w { u with sched := ts } :=
  ⟨hw.dir, hw.out, hw.latch, hw.ctrl, hw.dbl, hw.trace, hw.link⟩

theorem HasWritten.setDir (hw : HasWritten s h w u) (k b : Nat) :
    HasWritten s h { w with dir := w.dir ++ [(k, b)] } (u.setDir k b) where
  dir := by rw [State.setDir_gpioDir, hw.dir, Memory.setBits_concat]
  out := hw.out
  latch := hw.latch
  ctrl := hw.ctrl
  dbl := hw.dbl
  trace := hw.trace
  link := hw.link

/-- The deasserted output bit and its wire event (rules R80, R118). -/
theorem HasWritten.setOut (hw : HasWritten s h w u) (k b : Nat) :
    HasWritten s h { w with out := w.out ++ [(k, b)] } ((u.setOut k b).record [.csHigh h]) where
  dir := hw.dir
  out := by rw [State.record_gpioOut, State.setOut_gpioOut, hw.out, Memory.setBits_concat]
  latch := hw.latch
  ctrl := hw.ctrl
  dbl := hw.dbl
  trace := by
    rw [State.record_trace, State.setOut_trace, List.filter_append, hw.trace, List.map_append, List.append_assoc]
    rfl
  link := hw.link

theorem HasWritten.writeCtrl (hw : HasWritten s h w u) :
    HasWritten s h { w with ctrl := true } (u.withSpi (u.spi.writeCtrl (ctrlWord s.cfg))) where
  dir := hw.dir
  out := hw.out
  latch := hw.latch
  ctrl := by simp [Written.spi]
  dbl := hw.dbl
  trace := hw.trace
  link hs := by simp [hw.link hs, Written.spi]

/-- The last micro-step of `initializeOnce` programs the double-speed bit and sets the latch (rule R124). -/
theorem HasWritten.writeStatus (hw : HasWritten s h w u) :
    HasWritten s h { w with status := true }
      { u.withSpi (u.spi.writeStatus (statusWord s.cfg)) with busInit := true } where
  dir := hw.dir
  out := hw.out
  latch := by simp
  ctrl := hw.ctrl
  dbl := statusWord_bit s.cfg
  trace := hw.trace
  link hs := by simp only [State.withSpi_spi, hw.link hs, Written.spi, Spi.writeStatus, statusWord_bit, if_true]

theorem HasWritten.linkComplete (hw : HasWritten s h w u) {r : Byte} (hr : Turn.link r ∈ s.sched) :
    HasWritten s h w (u.linkComplete r) where
  dir := hw.dir
  out := hw.out
  latch := hw.latch
  ctrl := by simpa using hw.ctrl
  dbl := by simpa using hw.dbl
  trace := by
    have hdone : (u.spi.linkEvents r).filter isCsEvent = [] := by
      rw [List.filter_eq_nil_iff]
      intro e he
      obtain ⟨tx, rfl⟩ := Spi.linkEvents_done _ _ e he
      simp [isCsEvent]
    simpa [hdone] using hw.trace
  link hs := absurd hr (hs r)

end

/-! ### Along the run of `BEGIN` -/

/-- No label of `BEGIN` but the diagnostic writes what `BeginKeeps` lists. -/
theorem microLabel_beginKeeps (op : Instr) {l : Label} (s : State) (hb : l.ofBegin = true) (hd : l ≠ .badCs) :
    BeginKeeps s (microLabel op l s) :=
  ⟨microLabel_cfg .., microLabel_handles .., microLabel_buf _ _ _ (by rintro _ rfl; cases hb),
    microLabel_diag _ _ _ hd (by rintro rfl; cases hb), microLabel_cmd .., microLabel_host ..,
    microLabel_eng_txn _ _ _ (by rintro rfl; cases hb) (by rintro _ rfl; cases hb)⟩

theorem BeginKeeps.trans {s u v : State} (h : BeginKeeps s u) (g : BeginKeeps u v) : BeginKeeps s v := by
  obtain ⟨h1, h2, h3, h4, h5, h6, h7⟩ := h
  obtain ⟨g1, g2, g3, g4, g5, g6, g7⟩ := g
  exact ⟨g1.trans h1, g2.trans h2, g3.trans h3, g4.trans h4, g5.trans h5, g6.trans h6, g7.trans h7⟩

/-- The labels of `BEGIN` on a valid handle: `initializeOnce` only while the bus is not initialised (rule R119). -/
def OnBeginPath (s : State) (l : Label) : Prop :=
  l.ofBegin = true ∧ l ≠ .badCs ∧ (l.ofInitialize = true → s.busInit = false)

/-- The run of `BEGIN` on slot `h`, whose handle drives bit `kb`: what it has written is what its label says. -/
structure BeginAt (s : State) (h : Slot) (kb : Nat × Nat) (u : State) : Prop where
  keeps : BeginKeeps s u
  cur : u.eng.cur = h
  label : ∀ op l, u.eng.phase = .busy op l → OnBeginPath s l
  written : HasWritten s h (writtenAt s kb u.eng.phase) u

theorem nextBusPin_onBeginPath {s : State} (hi : s.busInit = false) (n : Nat) : OnBeginPath s (nextBusPin s.cfg n) := by
  obtain h | h := nextBusPin_cases s.cfg n <;> rw [h] <;> exact ⟨rfl, nofun, fun _ => hi⟩

/-- From pin `n` on, the pins before it are set: all of them when there is no pin `n` (rule R120). -/
theorem writtenAt_nextBusPin (s : State) (kb : Nat × Nat) (op : Instr) (n : Nat) :
    writtenAt s kb (.busy op (nextBusPin s.cfg n)) = ⟨kb :: s.cfg.busOutPins.take n, [kb], false, false⟩ := by
  unfold nextBusPin
  split
  · rfl
  · next h => rw [List.take_of_length_le (Nat.not_lt.mp h)]; rfl

/-- What `BEGIN` has written at its end, on an initialised bus and on one that was not. -/
theorem writtenAt_ready_of_set {s : State} (hi : s.busInit = true) (kb : Nat × Nat) :
    writtenAt s kb .ready = ⟨[kb], [kb], false, false⟩ := if_pos hi

theorem writtenAt_ready_of_clear {s : State} (hi : s.busInit = false) (kb : Nat × Nat) :
    writtenAt s kb .ready = ⟨kb :: s.cfg.busOutPins, [kb], true, true⟩ := if_neg (by simp [hi])

section
variable {s u : State} {h : Slot} {kb : Nat × Nat} {op : Instr} {l : Label}

/-- A micro-step that leads on: it is at the path's next label, with what that label says written. -/
theorem BeginAt.goesOn (hu : BeginAt s h kb u) (hp : u.eng.phase = .busy op l) {l' : Label}
    (hv : (microLabel op l u).eng.phase = .busy op l') (hl : OnBeginPath s l')
    (hw : HasWritten s h (writtenAt s kb (.busy op l')) (microLabel op l u)) : BeginAt s h kb (microLabel op l u) := by
  obtain ⟨hb, hd, _⟩ := hu.label op l hp
  exact ⟨hu.keeps.trans (microLabel_beginKeeps op u hb hd), by simpa using hu.cur,
    fun _ _ e => by rw [hv] at e; cases e; exact hl, hv ▸ hw⟩

/-- A micro-step that ends `BEGIN`, with everything written. -/
theorem BeginAt.ends (hu : BeginAt s h kb u) (hp : u.eng.phase = .busy op l)
    (hv : (microLabel op l u).eng.phase = .ready)
    (hw : HasWritten s h (writtenAt s kb .ready) (microLabel op l u)) : BeginAt s h kb (microLabel op l u) := by
  obtain ⟨hb, hd, _⟩ := hu.label op l hp
  exact ⟨hu.keeps.trans (microLabel_beginKeeps op u hb hd), by simpa using hu.cur,
    fun _ _ e => (by rw [hv] at e; cases e), hv ▸ hw⟩

theorem BeginAt.cfg (hu : BeginAt s h kb u) : u.cfg = s.cfg := hu.keeps.1

theorem BeginAt.writtenHere (hu : BeginAt s h kb u) (hp : u.eng.phase = .busy op l) :
    HasWritten s h (writtenAt s kb (.busy op l)) u := hp ▸ hu.written

/-- In `initializeOnce` the bus was not initialised when `BEGIN` was issued. -/
theorem BeginAt.clear (hu : BeginAt s h kb u) (hp : u.eng.phase = .busy op l) (hl : l.ofInitialize = true) :
    s.busInit = false := by
  obtain ⟨_, _, hi⟩ := hu.label op l hp
  exact hi hl

/-- The running handle is the one `BEGIN` was issued on. -/
theorem BeginAt.curHandle (hu : BeginAt s h kb u) : u.curHandle = s.handle h := by
  obtain ⟨⟨_, hh, _⟩, hcur, _, _⟩ := hu
  simp only [State.curHandle, State.handle, hcur, hh]

end

section
variable {s u : State} {h : Slot} {kb : Nat × Nat} {k b : Nat} {op : Instr}

theorem BeginAt.csDir (hd : Drives s h k b) (hp : u.eng.phase = .busy op .csDir) (hu : BeginAt s h (k, b) u) :
    BeginAt s h (k, b) (microLabel op .csDir u) := by
  obtain ⟨_, hbank, hpin, _⟩ := hd
  have hstep : microLabel op .csDir u = (u.setDir k b).goto op .csOut := by
    simp only [microLabel, microCsDir, hu.curHandle, hbank, hpin]
  have hw := hu.writtenHere hp
  refine hu.goesOn hp rfl ⟨rfl, nofun, nofun⟩ ?_
  rw [hstep]
  exact (hw.setDir k b).goto op .csOut

theorem BeginAt.csOut (hd : Drives s h k b) (hp : u.eng.phase = .busy op .csOut) (hu : BeginAt s h (k, b) u) :
    BeginAt s h (k, b) (microLabel op .csOut u) := by
  obtain ⟨_, hbank, hpin, _⟩ := hd
  have hstep : microLabel op .csOut u = enterInitializeOnce op ((u.setOut k b).record [.csHigh h]) := by
    simp only [microLabel, microCsOut, hu.curHandle, hbank, hpin, hu.cur]
  have hcfg := hu.cfg
  have hw := hu.writtenHere hp
  have hlatch : u.busInit = s.busInit := hw.latch.trans (Bool.or_false _)
  have hw' := hw.setOut k b
  obtain ⟨hi, he⟩ | ⟨hi, he⟩ := enterInitializeOnce_cases op ((u.setOut k b).record [.csHigh h])
  · refine hu.ends hp (by rw [hstep, he]; rfl) ?_
    rw [hstep, he, writtenAt_ready_of_set (hlatch.symm.trans hi)]
    exact hw'.finishBegin
  · refine hu.goesOn hp (by rw [hstep, he]; rfl) (hcfg ▸ nextBusPin_onBeginPath (hlatch.symm.trans hi) 0) ?_
    rw [hstep, he]
    simp only [State.record_cfg, State.setOut_cfg, hcfg, writtenAt_nextBusPin]
    exact hw'.goto op _

theorem BeginAt.busPin {n : Nat} (hp : u.eng.phase = .busy op (.busPin n)) (hu : BeginAt s h kb u) :
    BeginAt s h kb (microLabel op (.busPin n) u) := by
  have hcfg := hu.cfg
  have hi := hu.clear hp rfl
  have hw := hu.writtenHere hp
  refine hu.goesOn hp (l' := nextBusPin s.cfg (n + 1)) (hcfg ▸ rfl) (nextBusPin_onBeginPath hi _) ?_
  rw [writtenAt_nextBusPin, List.take_add_one]
  simp only [microLabel, microBusPin, hcfg]
  cases s.cfg.busOutPins[n]? with
  | none => rw [Option.toList_none, List.append_nil]; exact hw.goto op _
  | some p => exact (hw.setDir p.1 p.2).goto op _

theorem BeginAt.ctrl (hp : u.eng.phase = .busy op .ctrl) (hu : BeginAt s h kb u) :
    BeginAt s h kb (microLabel op .ctrl u) := by
  have hcfg := hu.cfg
  have hi := hu.clear hp rfl
  have hw := hu.writtenHere hp
  refine hu.goesOn hp rfl ⟨rfl, nofun, fun _ => hi⟩ ?_
  rw [microLabel, microCtrl, hcfg]
  exact hw.writeCtrl.goto op _

theorem BeginAt.status (hp : u.eng.phase = .busy op .status) (hu : BeginAt s h kb u) :
    BeginAt s h kb (microLabel op .status u) := by
  have hcfg := hu.cfg
  have hi := hu.clear hp rfl
  have hw := hu.writtenHere hp
  refine hu.ends hp rfl ?_
  rw [microLabel, microStatus, hcfg, writtenAt_ready_of_clear hi]
  exact hw.writeStatus.finishBegin

theorem BeginAt.micro (hd : Drives s h k b) {l : Label} (hp : u.eng.phase = .busy op l) (hu : BeginAt s h (k, b) u) :
    BeginAt s h (k, b) (microLabel op l u) := by
  obtain ⟨hb, hbad, _⟩ := hu.label op l hp
  cases l with
  | csDir => exact hu.csDir hd hp
  | csOut => exact hu.csOut hd hp
  | busPin n => exact hu.busPin hp
  | ctrl => exact hu.ctrl hp
  | status => exact hu.status hp
  | badCs => exact absurd rfl hbad
  | _ => cases hb

end

/-- `BEGIN` on a valid handle answers VOID with everything written and the rest kept (rules R117 to R120, R124, R125). -/
theorem exec_begin_of_drives {s : State} {h : Slot} {k b : Nat} (ha : Accepts s (.begin h)) (hd : Drives s h k b) :
    ∃ t, exec (.begin h) s = .next t ∧ t.rsp = 0x200#10 ∧ t.eng.phase = .ready ∧ BeginKeeps s t ∧
      HasWritten s h (writtenAt s (k, b) .ready) t := by
  have hv : (s.handle h).valid = true := hd.1
  have hx : exec (.begin h) s = complete ((s.openOp (.begin h)).goto (.begin h) .csDir) := by
    rw [exec_of_accepts ha, opBody, State.openOp_handle, if_pos hv]
  obtain ⟨t, ht⟩ := begin_completes (s.openOp (.begin h)) (.begin h) (l := .csDir) rfl
  have h0 : BeginAt s h (k, b) ((s.openOp (.begin h)).goto (.begin h) .csDir) :=
    ⟨⟨rfl, rfl, rfl, rfl, rfl, rfl, rfl⟩, rfl, fun _ _ e => by cases e; exact ⟨rfl, nofun, nofun⟩,
      ⟨rfl, rfl, (Bool.or_false _).symm, rfl, rfl, (List.append_nil _).symm, fun _ => rfl⟩⟩
  have hend := complete_keeps_of_links (P := BeginAt s h (k, b)) ht h0 (fun _ _ _ hp hu => hu.micro hd hp)
    (fun _ _ hr hu => ⟨hu.keeps, hu.cur, hu.label, hu.written.linkComplete hr⟩)
    (fun _ _ hu => ⟨hu.keeps, hu.cur, hu.label, hu.written.time⟩)
    (fun _ _ hu => ⟨hu.keeps, hu.cur, hu.label, hu.written.sched⟩)
  have hready := complete_ready ht
  exact ⟨t, hx.trans ht, begin_run_void rfl ht, hready, hend.keeps, hready ▸ hend.written⟩

/-! ### The bits at the end -/

theorem HasWritten.dirBit {s u : State} {h : Slot} {w : Written} (hw : HasWritten s h w u) (hm : s.gpioDir.wf = true)
    (k b : Nat) : (u.dirReg k).getLsbD b = ((s.dirReg k).getLsbD b || decide ((k, b) ∈ w.dir ∧ b < 8)) := by
  rw [State.dirReg, hw.dir, Memory.setBits_bit _ hm, State.dirReg]

theorem HasWritten.outBit {s u : State} {h : Slot} {w : Written} (hw : HasWritten s h w u) (hm : s.gpioOut.wf = true)
    (k b : Nat) : (u.outReg k).getLsbD b = ((s.outReg k).getLsbD b || decide ((k, b) ∈ w.out ∧ b < 8)) := by
  rw [State.outReg, hw.out, Memory.setBits_bit _ hm, State.outReg]

/-- The one bit a handle drives is a bit of a byte. -/
theorem Drives.mem_pin_iff {s : State} {h : Slot} {k b : Nat} (hd : Drives s h k b) (k' b' : Nat) :
    (k', b') ∈ [(k, b)] ∧ b' < 8 ↔ (k', b') = (k, b) := by
  obtain ⟨_, _, _, h8⟩ := hd
  rw [List.mem_singleton]
  refine ⟨And.left, fun e => ⟨e, ?_⟩⟩
  injection e with _ e
  exact e ▸ h8

theorem bufKept_of_buf {s t : State} (h : t.buf = s.buf) : BufKept s t := fun i => by rw [State.bufByte, h, State.bufByte]

/-- Settles O19: at the end of `BEGIN` on a bus that was not initialised everything is written. -/
theorem firstBeginProgramsTheBus : Obligations.FirstBeginProgramsTheBus := by
  intro s h k b ha hd hi hm
  obtain ⟨ho, hdir, _⟩ := hm
  obtain ⟨t, hx, hrsp, hready, ⟨hcfg, hhandles, hbuf, hdiag, hcmd, hhost, htxn⟩, hw⟩ := exec_begin_of_drives ha hd
  rw [writtenAt_ready_of_clear hi] at hw
  refine ⟨t, hx, hrsp, hw.latch.trans (Bool.or_true _), hw.ctrl, hw.dbl, fun k' b' hb' => ?_, fun k' b' => ?_, hw.trace,
    hready, htxn, hhandles, hcfg, hdiag, hcmd, hhost, bufKept_of_buf hbuf, hw.link⟩
  · simp only [hw.dirBit hdir, List.mem_cons, hb', and_true]
  · simp only [hw.outBit ho, hd.mem_pin_iff]

/-- Settles O20: at the end of `BEGIN` on an initialised bus only the chip-select pin's two bits are written. -/
theorem laterBeginTouchesOnlyItsPin : Obligations.LaterBeginTouchesOnlyItsPin := by
  intro s h k b ha hd hi hm
  obtain ⟨ho, hdir, _⟩ := hm
  obtain ⟨t, hx, hrsp, hready, ⟨hcfg, hhandles, hbuf, hdiag, hcmd, hhost, htxn⟩, hw⟩ := exec_begin_of_drives ha hd
  rw [writtenAt_ready_of_set hi] at hw
  refine ⟨t, hx, hrsp, by rw [hw.latch, hi, Bool.true_or], hw.ctrl, hw.dbl, fun k' b' => ?_, fun k' b' => ?_, hw.trace,
    hready, htxn, hhandles, hcfg, hdiag, hcmd, hhost, bufKept_of_buf hbuf, hw.link⟩
  · simp only [hw.dirBit hdir, hd.mem_pin_iff]
  · simp only [hw.outBit ho, hd.mem_pin_iff]

end Sys2Proof.Machine
end
section
/-!
PROOFS. The Transaction Engine label by label (spec/42_transaction_engine.md): the order of a poll's tests (O29), the two
waits (O30, O31), the validity guard (O37).
-/
namespace Sys2Proof.Machine

/-- Settles O29: a status byte's bits 6 and 7 are the two flags, and the first test is the collision's. -/
theorem pollTestsCollisionThenCompletion : Obligations.PollTestsCollisionThenCompletion := by
  intro s op x hp
  rw [microStep_busy hp, microLabel, microPoll]
  cases hc : s.spi.coll with
  | true => simp [hc, State.takeError]
  | false => cases hd : s.spi.done <;> simp [hc, hd]

/-- At a sample `e` microseconds after the reference sample, `e` have elapsed, across a wrap too (rules R162, R188). -/
theorem waited_of_advance {s : State} {e : Nat} (he : e < 2 ^ s.cfg.timeBits)
    (ht : s.time = (s.eng.t0 + e) % 2 ^ s.cfg.timeBits) : s.waited = e := by
  rw [State.waited, ht, elapsed_add, elapsed_self, Nat.zero_add, Nat.mod_eq_of_lt he]

/-- Settles O30: the elapsed time is `e`, and the test is strict. -/
theorem timeoutExactlyBeyondTheBound : Obligations.TimeoutExactlyBeyondTheBound := by
  intro s op x e hp _ he ht
  rw [microStep_busy hp, microLabel, microClock, waited_of_advance he ht]
  exact ⟨fun h => if_pos h, fun h => if_neg (Nat.not_lt.mpr h)⟩

/-- A later sample of a delay chooses between its two labels (rule R132). -/
theorem microDelayWait_eq_goto (op : Instr) (d : Nat) (wait done : Label) (s : State) :
    microDelayWait op d wait done s = s.goto op (if d ≤ s.waited then done else wait) := by
  unfold microDelayWait
  split <;> rfl

/-- Settles O31: both delays are the same test of the elapsed time. -/
theorem delayEndsOnceItsTimeHasElapsed : Obligations.DelayEndsOnceItsTimeHasElapsed := by
  intro s op e _ he ht
  refine ⟨fun hp => ?_, fun hp => ?_⟩ <;>
    rw [microStep_busy hp, microLabel, microDelayWait_eq_goto, waited_of_advance he ht]
  rfl

/-- The response of a failed transaction, whatever the buffer `tmp` holds (rules R92, R99). -/
theorem txnResponse_failed {op : Instr} (hop : isTransaction op = true) (tmp : Option Byte) :
    txnResponse op false tmp = failureResponse op := by
  cases op with
  | read1 => exact (by decide : response .void sentinel = 0x2FF#10)
  | command | write1 | writeN | readN => rfl
  | _ => cases hop

/-- Settles O37: the guard comes before `select`. -/
theorem invalidHandleIsRefused : Obligations.InvalidHandleIsRefused := by
  intro op s hop ha hv
  rw [exec_of_accepts ha, opBody_transaction hop, State.openOp_handle, hv, txnResponse_failed hop]
  rfl

end Sys2Proof.Machine
end
section
/-!
PROOFS. A clean link never collides (O46): only a data write with a transfer in flight does, and the run of an operation that
started clean presents a byte on a clean link alone.
-/
namespace Sys2Proof.Machine

theorem enterInitializeOnce_trace (op : Instr) (s : State) : (enterInitializeOnce op s).trace = s.trace := by
  obtain ⟨_, h⟩ | ⟨_, h⟩ := enterInitializeOnce_cases op s <;> rw [h] <;> rfl

/-- What a micro-step adds to the wire trace: chip-select events, or those of a data write (rule R80). -/
theorem microLabel_trace_cases (op : Instr) (l : Label) (s : State) :
    (∃ es, (microLabel op l s).trace = s.trace ++ es ∧ ∀ e ∈ es, isCsEvent e = true) ∨
    ∃ x v, l = .send x v ∧ (microLabel op l s).trace = s.trace ++ s.spi.writeEvents v := by
  cases l with
  | send x v => exact .inr ⟨x, v, rfl, rfl⟩
  | csOut =>
    left
    simp only [microLabel, microCsOut, enterInitializeOnce_trace]
    cases s.curHandle.bank with
    | none => exact ⟨[], by simp, by simp⟩
    | some k => exact ⟨[.csHigh s.eng.cur], rfl, by simp [isCsEvent]⟩
  | select =>
    left
    simp only [microLabel, microSelect, State.select, State.goto_trace]
    split
    · split
      · exact ⟨[], by simp, by simp⟩
      · exact ⟨[.csLow s.eng.cur], rfl, by simp [isCsEvent]⟩
    · exact ⟨[], by simp, by simp⟩
  | unselect ok =>
    left
    simp only [microLabel, microUnselect, State.endTxn, State.unselect, State.finish_trace]
    split
    · split
      · exact ⟨[], by simp, by simp⟩
      · exact ⟨[.csHigh s.eng.cur], rfl, by simp [isCsEvent]⟩
    · exact ⟨[], by simp, by simp⟩
  | _ => exact .inl ⟨[], by rw [microLabel_trace _ _ _ (by simp) (by simp) (by simp) (by simp)]; simp, by simp⟩

/-- The wire events from `s` to `u` hold no collision. -/
def NoCollision (s u : State) : Prop := ∃ es, u.trace = s.trace ++ es ∧ ∀ v, WireEvent.collide v ∉ es

theorem NoCollision.refl (s : State) : NoCollision s s := ⟨[], by simp, by simp⟩

theorem NoCollision.add {s u w : State} {es : List WireEvent} (h : NoCollision s u) (hw : w.trace = u.trace ++ es)
    (hes : ∀ v, WireEvent.collide v ∉ es) : NoCollision s w := by
  obtain ⟨fs, hu, hfs⟩ := h
  exact ⟨fs ++ es, by rw [hw, hu, List.append_assoc], fun v hv => (List.mem_append.mp hv).elim (hfs v) (hes v)⟩

theorem NoCollision.linkComplete {s u : State} (h : NoCollision s u) (r : Byte) : NoCollision s (u.linkComplete r) :=
  h.add (State.linkComplete_trace u r) fun v hv => by
    obtain ⟨tx, e⟩ := Spi.linkEvents_done _ _ _ hv
    cases e

/-- With nothing in flight a data write does not collide (rule R64). -/
theorem Spi.writeEvents_not_collide {p : Spi} (h : p.xfer = none) (v w : Byte) : WireEvent.collide w ∉ p.writeEvents v := by
  obtain ⟨_, _, e⟩ | ⟨_, _, _, _, e⟩ | ⟨u, _, _, hu, _⟩ := p.writeData_cases v
  · simp [e]
  · simp [e]
  · rw [h] at hu; cases hu

/-- A micro-step that presents a byte, if it does, with nothing in flight adds no collision. -/
theorem NoCollision.micro {s u : State} (h : NoCollision s u) (op : Instr) {l : Label}
    (hl : ∀ x v, l = .send x v → u.spi.xfer = none) : NoCollision s (microLabel op l u) := by
  obtain ⟨es, he, hes⟩ | ⟨x, v, hs, he⟩ := microLabel_trace_cases op l u
  · exact h.add he fun v hv => absurd (hes _ hv) (by simp [isCsEvent])
  · exact h.add he (Spi.writeEvents_not_collide (hl x v hs) v)

theorem CleanRun.xfer_of_send {u : State} {op : Instr} {x : Exchange} {v : Byte} (h : CleanRun u)
    (hp : u.eng.phase = .busy op (.send x v)) : u.spi.xfer = none := by
  obtain ⟨_, _, hp', _, hl⟩ := h.goesOn (by simp [hp])
  rw [hp] at hp'
  cases hp'
  exact hl.1

/-- The run of a transaction on a valid handle from a clean state does not collide. -/
theorem transaction_run_noCollision {s t : State} {op : Instr} (hs : s.Clean) (hv : (s.handle op.slot).valid = true)
    (hc : complete ((s.openOp op).goto op .select) = .next t) : NoCollision s t := by
  obtain ⟨_, ht, hl⟩ := hs
  have h0 : CleanRun ((s.openOp op).goto op .select) ∧ NoCollision s ((s.openOp op).goto op .select) :=
    ⟨⟨hv, fun _ => ht, fun _ => ⟨op, _, rfl, rfl, hl⟩, fun h => by cases h⟩, NoCollision.refl s⟩
  exact (complete_keeps (P := fun u => CleanRun u ∧ NoCollision s u)
    (fun _ _ _ hp h => ⟨h.1.micro hp, h.2.micro _ fun _ _ e => h.1.xfer_of_send (e ▸ hp)⟩)
    (fun _ r h => ⟨h.1.linkComplete r, h.2.linkComplete r⟩)
    (fun _ _ h => ⟨⟨h.1.1, h.1.2, h.1.3, h.1.4⟩, h.2⟩) (fun _ _ h => ⟨⟨h.1.1, h.1.2, h.1.3, h.1.4⟩, h.2⟩) hc h0).2

/-- `BEGIN` presents no byte. -/
theorem begin_run_noCollision {s t : State} {op : Instr} {l : Label} (hb : l.ofBegin = true)
    (hc : complete ((s.openOp op).goto op l) = .next t) : NoCollision s t := by
  have h0 : BeginRun ((s.openOp op).goto op l) ∧ NoCollision s ((s.openOp op).goto op l) :=
    ⟨⟨fun _ _ e => by cases e; exact hb, fun h => by cases h⟩, NoCollision.refl s⟩
  refine (complete_keeps (P := fun u => BeginRun u ∧ NoCollision s u)
    (fun u _ l hp h => ⟨h.1.micro hp, h.2.micro _ fun x v e => ?_⟩)
    (fun _ r h => ⟨⟨h.1.1, h.1.2⟩, h.2.linkComplete r⟩)
    (fun _ _ h => ⟨⟨h.1.1, h.1.2⟩, h.2⟩) (fun _ _ h => ⟨⟨h.1.1, h.1.2⟩, h.2⟩) hc h0).2
  have hl := h.1.label _ _ hp
  rw [e] at hl
  cases hl

/-- Settles O46: what takes no micro-step records nothing, `BEGIN` presents no byte, and a transaction is run label by
label. -/
theorem cleanLinkNeverCollides : Obligations.CleanLinkNeverCollides := by
  intro i s t hs hx
  obtain ⟨r, rfl | rfl⟩ | ⟨g, x, inv, rfl⟩ | ⟨l, hc, hb | ⟨rfl, hv⟩⟩ := exec_run_cases hx
  · exact NoCollision.refl s
  · exact NoCollision.refl s
  · exact NoCollision.refl s
  · exact begin_run_noCollision hb hc
  · exact transaction_run_noCollision hs hv hc

end Sys2Proof.Machine
end
section
/-!
PROOFS. What the statements about a whole transaction share: induction over a run whose agents move only while it is under
way, the run of given turns, the end of a run, the bytes of a transaction, and the head of the byte loop.
-/
namespace Sys2Proof.Machine

/-! ### Runs -/

/-- Every move of an operation under way keeps `P`, where LINK draws only bytes with `L`. -/
structure RunKeeps (L : Byte → Prop) (P : State → Prop) : Prop where
  micro : ∀ u op l, u.eng.phase = .busy op l → P u → P (microLabel op l u)
  link : ∀ u op l r, u.eng.phase = .busy op l → L r → P u → P (u.linkComplete r)
  time : ∀ u d, P u → P (u.timeStep d)
  sched : ∀ (u : State) ts, P u → P { u with sched := ts }

section
variable {L : Byte → Prop} {P : State → Prop}

theorem RunKeeps.runTurns (m : RunKeeps L P) (ts : List Turn) {u : State} (hL : ∀ r, Turn.link r ∈ ts → L r)
    (h : P u) : P (runTurns ts u) := by
  induction ts generalizing u with
  | nil => exact m.sched u [] h
  | cons t ts ih =>
    have ih {w : State} (hw : P w) : P (Machine.runTurns ts w) := ih (fun r hr => hL r (List.mem_cons_of_mem _ hr)) hw
    cases hp : u.eng.phase with
    | ready => rw [runTurns_ready hp]; exact m.sched u _ h
    | busy op l =>
      cases t with
      | stall => simp only [Machine.runTurns, hp]; exact m.sched u _ h
      | engine => rw [runTurns_engine hp]; exact ih (m.micro u op l hp h)
      | link r => rw [runTurns_link hp]; exact ih (m.link u op l r hp (hL r List.mem_cons_self) h)
      | time d => rw [runTurns_time hp]; exact ih (m.time u d h)

theorem RunKeeps.runTail (m : RunKeeps L P) (n : Nat) {u : State} (h : P u) : P (runTail n u) :=
  runTail_keeps m.micro m.time n u h

/-- What holds when an operation starts, and its moves keep, holds at its response. -/
theorem RunKeeps.complete (m : RunKeeps (fun _ => True) P) {s t : State} (hc : complete s = .next t) (h : P s) : P t := by
  unfold Machine.complete at hc
  split at hc
  · injection hc with hc
    subst hc
    exact m.runTail _ (m.runTurns _ (fun _ _ => trivial) h)
  · cases hc

end

/-- The turns `ts` lead from `s` to `u`, whatever comes after them. -/
def RunsTo (ts : List Turn) (s u : State) : Prop := ∀ rest, runTurns (ts ++ rest) s = runTurns rest u

theorem RunsTo.refl (s : State) : RunsTo [] s s := fun _ => rfl

theorem RunsTo.trans {ts us : List Turn} {s u v : State} (h : RunsTo ts s u) (g : RunsTo us u v) :
    RunsTo (ts ++ us) s v := fun rest => by rw [List.append_assoc, h, g]

theorem RunsTo.engine {s : State} {op : Instr} {l : Label} (hp : s.eng.phase = .busy op l) :
    RunsTo [.engine] s (microLabel op l s) := fun rest => runTurns_engine hp rest

/-- A run without a stall has ended or has used up its turns (rule R163). -/
theorem runTurns_fair {ts : List Turn} (hf : Fair ts) (s : State) :
    (runTurns ts s).eng.phase = .ready ∨ (runTurns ts s).sched = [] := by
  induction ts generalizing s with
  | nil => exact .inr rfl
  | cons t ts ih =>
    have ih := ih fun h => hf (List.mem_cons_of_mem _ h)
    cases hp : s.eng.phase with
    | ready => rw [runTurns_ready hp]; exact .inl hp
    | busy op l =>
      cases t with
      | stall => exact absurd List.mem_cons_self hf
      | engine => rw [runTurns_engine hp]; exact ih _
      | link r => rw [runTurns_link hp]; exact ih _
      | time d => rw [runTurns_time hp]; exact ih _

/-- A tail each of whose micro-steps ends the operation or lowers the rank of its state ends it, with what they keep. -/
theorem runTail_of_rank {Q : State → Prop} {rank : State → Nat}
    (hstep : ∀ u op l, u.eng.phase = .busy op l → Q u →
      Q (tailStep u) ∧ ((tailStep u).eng.phase = .ready ∨ rank (tailStep u) < rank u))
    (n : Nat) {u : State} (hn : rank u < n) (h : Q u) : (runTail n u).eng.phase = .ready ∧ Q (runTail n u) := by
  induction n generalizing u with
  | zero => omega
  | succ n ih =>
    cases hp : u.eng.phase with
    | ready => rw [runTail_ready hp]; exact ⟨hp, h⟩
    | busy op l =>
      rw [runTail_succ hp]
      obtain ⟨hq, hr | hlt⟩ := hstep u op l hp h
      · rw [runTail_ready hr]; exact ⟨hr, hq⟩
      · exact ih (by omega) hq

theorem complete_of_settled {s : State} (h : (settled s).eng.phase = .ready) : complete s = .next (settled s) := by
  simp only [complete, h]

/-! ### `unselect` -/

/-- `SetBit` sets its bit, also in a memory that is not canonical (rule R69). -/
theorem Memory.setBit_read_bit (m : Memory) (k : Nat) {b : Nat} (h8 : b < 8) :
    ((m.setBit k b).read k).getLsbD b = true := by
  have hbit : (m.read k ||| pinMask b).getLsbD b = true := by simp [pinMask_getLsbD, h8]
  have hne : m.read k ||| pinMask b ≠ Memory.unlisted := by
    intro e
    rw [e] at hbit
    exact absurd hbit (by simp [Memory.unlisted])
  rw [Memory.setBit, Memory.write, if_neg hne, Memory.insert_read_same]
  exact hbit

/-- The last micro-step of a transaction, on a handle that drives a line (rules R131, R156). -/
theorem microUnselect_of_drives {u : State} {k b : Nat} (hd : Drives u u.eng.cur k b) (op : Instr) (ok : Bool) :
    microLabel op (.unselect ok) u = (((u.setOut k b).record [.csHigh u.eng.cur]).withEng
      { u.eng with txn := .idle }).finish (txnResponse op ok u.eng.tmp) := by
  rw [microLabel, microUnselect, State.endTxn, unselect_of_drives hd]

/-- It leaves the port ready, the engine idle and the line high (rules R33, R142). -/
theorem microUnselect_ended {u : State} {k b : Nat} (hd : Drives u u.eng.cur k b) (op : Instr) (ok : Bool) :
    Ended (microLabel op (.unselect ok) u) u.eng.cur := by
  have hd' : Drives (microLabel op (.unselect ok) u) u.eng.cur k b := by simpa [Drives] using hd
  obtain ⟨_, _, _, h8⟩ := id hd
  refine ⟨rfl, ?_, ?_⟩
  · rw [microUnselect_of_drives hd]; rfl
  · rw [cs_of_drives hd', microUnselect_of_drives hd]
    exact Memory.setBit_read_bit _ _ h8

/-! ### The bytes of a transaction -/

theorem wireBytes_length {op : Instr} (hop : isTransaction op = true) (s : State) :
    (s.wireBytes op).length = byteCount op + 1 := by
  cases op with
  | command | write1 | writeN | read1 | readN => simp [State.wireBytes, direction, operandPayload, byteCount, State.payload]
  | _ => cases hop

theorem wireBytes_zero (s : State) (op : Instr) :
    (s.wireBytes op)[0]? = some (commandByte op (s.handle op.slot).invert) := rfl

/-- A read sends fillers (rule R139). -/
theorem wireBytes_read {op : Instr} {i : Nat} (hd : direction op = .read) (hi : i < byteCount op) (s : State) :
    (s.wireBytes op)[i + 1]? = some filler := by
  simp [State.wireBytes, hd, hi]

/-- A write from `BUF` sends its bytes in ascending order (rule R137). -/
theorem wireBytes_payload {op : Instr} {i : Nat} (hd : direction op = .write) (hv : operandPayload op = none)
    (hi : i < byteCount op) (s : State) : (s.wireBytes op)[i + 1]? = some (s.bufByte i) := by
  simp [State.wireBytes, hd, hv, State.payload, hi]

/-- `WRITE1` sends its operand (rule R140). -/
theorem wireBytes_operand {op : Instr} {i : Nat} {v : Byte} (hv : operandPayload op = some v) (hi : i < byteCount op)
    (s : State) : (s.wireBytes op)[i + 1]? = some v := by
  cases op with
  | write1 =>
    obtain rfl : i = 0 := Nat.lt_one_iff.mp hi
    exact hv
  | _ => cases hv

/-! ### The head of the byte loop -/

/-- The first micro-step of a byte after the command byte (rules R137, R139, R140). -/
def firstLabel (op : Instr) : Label :=
  match direction op, operandPayload op with
  | .read, _ => .settleStart
  | .write, some v => .send .byte v
  | .write, none => .load
  | .none, _ => .unselect true

/-- What follows the byte loop (rules R137, R139). -/
def afterLoop (op : Instr) : Label := if direction op = .read then .tailStart else .unselect true

/-- Where the head of the byte loop leads, by the index alone. -/
theorem loopHead_eq_goto (op : Instr) (s : State) :
    loopHead op s = s.goto op (if s.eng.idx < byteCount op then firstLabel op else afterLoop op) := by
  unfold loopHead firstLabel afterLoop
  by_cases h : s.eng.idx < byteCount op <;> cases direction op <;> cases operandPayload op <;> simp [h]

/-- An operation with a byte after the command byte reads or writes. -/
theorem direction_of_byteCount {op : Instr} {i : Nat} (h : i < byteCount op) : direction op ≠ .none := by
  cases op with
  | write1 | writeN | read1 | readN => simp [direction]
  | _ => cases h

/-- What follows the exchange of a byte after the command byte (rules R137 to R141). -/
theorem afterExchange_write {op : Instr} (h : direction op = .write) (r : Byte) (s : State) :
    afterExchange op .byte r s = nextByte op s := by simp only [afterExchange, h]

theorem afterExchange_tmp {op : Instr} (h : direction op = .read) (hp : privateResult op = true) (r : Byte)
    (s : State) : afterExchange op .byte r s = nextByte op (s.withEng { s.eng with tmp := some r }) := by
  simp only [afterExchange, h, hp, if_true]

theorem afterExchange_store {op : Instr} (h : direction op = .read) (hp : privateResult op = false) (r : Byte)
    (s : State) : afterExchange op .byte r s = s.goto op (.store r) := by
  simp [afterExchange, h, hp]

end Sys2Proof.Machine
end
section
/-!
PROOFS. The first part of O42, whatever LINK and TIME do: along the run of a transaction the label and the loop index say how
many bytes have been presented, and the wire events since the selection are those bytes, completions, and a collision at most
as the last byte.
-/
namespace Sys2Proof.Machine

/-! ### How far a transaction is -/

/-- The place of an exchange's byte among the bytes of the transaction, at loop index `i`. -/
def Exchange.position (i : Nat) : Exchange → Nat
  | .cmd => 0
  | .byte => i + 1

/-- Every byte has its place. -/
theorem Exchange.position_lt {i : Nat} {op : Instr} (x : Exchange) (h : x = .byte → i < byteCount op) :
    x.position i + 1 ≤ byteCount op + 1 := by
  cases x with
  | cmd => exact Nat.le_add_left _ _
  | byte => exact Nat.succ_le_succ (h rfl)

/-- At a label after `select`, with loop index `i`, `n` bytes have been presented; the label that presents the next one
presents the one the transaction lists there (rules R135, R137, R139). -/
def SentAt (s : State) (op : Instr) (i n : Nat) : Label → Prop
  | .send x v => n = x.position i ∧ (s.wireBytes op)[n]? = some v
  | .sample x | .poll x | .receive x | .clock x => n = x.position i + 1
  | .load => n = i + 1 ∧ direction op = .write ∧ operandPayload op = none
  | .settleStart | .settleWait => n = i + 1 ∧ direction op = .read
  | .store _ => n = i + 2
  | .tailStart | .tailWait | .unselect true => n = byteCount op + 1
  | .timedOut | .unselect false => n ≤ byteCount op + 1
  | .badCs | .csDir | .csOut | .busPin _ | .ctrl | .status | .select => False

/-- The bytes presented whose response is not stored: the one under way, or the one that failed. -/
def Label.pending : Label → Nat
  | .sample _ | .poll _ | .receive _ | .clock _ | .timedOut | .store _ | .unselect false => 1
  | .badCs | .csDir | .csOut | .busPin _ | .ctrl | .status | .select | .load | .send _ _ | .settleStart | .settleWait
  | .tailStart | .tailWait | .unselect true => 0

/-- Where a transaction whose byte collided can be: at the next status read, with the flag set, or at its end (rules R64,
R133, R136). -/
def MayHaveCollided (coll : Bool) : Label → Prop
  | .sample _ | .poll _ => coll = true
  | .unselect false => True
  | .badCs | .csDir | .csOut | .busPin _ | .ctrl | .status | .select | .load | .send _ _ | .receive _ | .clock _ | .timedOut
  | .store _ | .settleStart | .settleWait | .tailStart | .tailWait | .unselect true => False

theorem firstLabel_sentAt {s : State} {op : Instr} {i : Nat} (hi : i < byteCount op) :
    SentAt s op i (i + 1) (firstLabel op) := by
  have hd := direction_of_byteCount hi
  unfold firstLabel
  split
  · next hr => exact ⟨rfl, hr⟩
  · next v _ hv => exact ⟨rfl, wireBytes_operand hv hi s⟩
  · next hw hv => exact ⟨rfl, hw, hv⟩
  · next hn => exact absurd hn hd

theorem firstLabel_pending (op : Instr) : (firstLabel op).pending = 0 := by
  unfold firstLabel
  split <;> rfl

theorem afterLoop_sentAt {s : State} {op : Instr} {i : Nat} (hi : i = byteCount op) :
    SentAt s op i (i + 1) (afterLoop op) := by
  unfold afterLoop
  split <;> exact congrArg (· + 1) hi

theorem afterLoop_pending (op : Instr) : (afterLoop op).pending = 0 := by
  unfold afterLoop
  split <;> rfl

/-! ### The wire events since the selection -/

/-- Completions alone. -/
def AllDone (es : List WireEvent) : Prop := ∀ e ∈ es, ∃ tx r, e = .done tx r

theorem AllDone.append {es fs : List WireEvent} (he : AllDone es) (hf : AllDone fs) : AllDone (es ++ fs) :=
  fun e h => (List.mem_append.mp h).elim (he e) (hf e)

theorem Spi.linkEvents_allDone (p : Spi) (r : Byte) : AllDone (p.linkEvents r) := fun e he =>
  (p.linkEvents_done r e he).imp fun _ h => ⟨r, h⟩

/-- The wire events `mid` since the selection, with `n` bytes presented: no chip-select event, the first `n` bytes of the
transaction if the bus runs and none if not, and after a collision completions alone (rules R64, R142). -/
structure WireSoFar (s : State) (op : Instr) (n : Nat) (mid : List WireEvent) : Prop where
  presented : mid.filterMap presentedByte = if s.spi.enabled && s.spi.master then (s.wireBytes op).take n else []
  noCs : ∀ e ∈ mid, isCsEvent e = false
  collided : ∀ m v m', mid = m ++ .collide v :: m' → AllDone m'

/-- An element of `xs ++ ys` that is not in `xs` stands in `ys`. -/
theorem append_eq_append_cons_of_not_mem {α : Type} {xs ys m m' : List α} {c : α} (h : xs ++ ys = m ++ c :: m')
    (hc : c ∉ xs) : ∃ m₀, ys = m₀ ++ c :: m' := by
  obtain ⟨a, _, hy⟩ | ⟨a, hx, hy⟩ := List.append_eq_append_iff.mp h
  · exact ⟨a, hy⟩
  · cases a with
    | nil => exact ⟨[], hy.symm⟩
    | cons x a =>
      injection hy with hxc _
      exact absurd (by simp [hx, hxc]) hc

theorem WireSoFar.add_done {s : State} {op : Instr} {n : Nat} {mid es : List WireEvent} (h : WireSoFar s op n mid)
    (hes : AllDone es) : WireSoFar s op n (mid ++ es) where
  presented := by
    have hnone : es.filterMap presentedByte = [] := List.filterMap_eq_nil_iff.mpr fun e he => by
      obtain ⟨tx, r, rfl⟩ := hes e he
      rfl
    rw [List.filterMap_append, hnone, List.append_nil, h.presented]
  noCs e he := (List.mem_append.mp he).elim (h.noCs e) fun he => by
    obtain ⟨tx, r, rfl⟩ := hes e he
    rfl
  collided m v m' e := by
    obtain ⟨a, _, hy⟩ | ⟨a, hx, hy⟩ := List.append_eq_append_iff.mp e
    · obtain ⟨tx, r, he⟩ := hes (.collide v) (by simp [hy])
      cases he
    · cases a with
      | nil =>
        obtain ⟨tx, r, he⟩ := hes (.collide v) (by rw [← List.nil_append es, ← hy]; simp)
        cases he
      | cons x a =>
        injection hy with hxc hm'
        subst hxc
        rw [hm']
        exact (h.collided m v a hx).append hes

/-- A data write adds at most one event, of the byte it presents (rule R80). -/
theorem Spi.writeEvents_cases (p : Spi) (v : Byte) :
    (p.writeEvents v = [] ∧ (p.enabled && p.master) = false) ∨
    ∃ e, p.writeEvents v = [e] ∧ (p.enabled && p.master) = true ∧ presentedByte e = some v ∧ isCsEvent e = false ∧
      (∀ w, e = .collide w → (p.writeData v).coll = true) := by
  obtain ⟨hr, _, he⟩ | ⟨h1, h2, _, hw, he⟩ | ⟨u, h1, h2, _, hw, he⟩ := p.writeData_cases v
  · exact .inl ⟨he, by simpa using hr⟩
  · exact .inr ⟨_, he, by simp [h1, h2], rfl, rfl, nofun⟩
  · exact .inr ⟨_, he, by simp [h1, h2], rfl, rfl, fun _ _ => by rw [hw]⟩

/-- The next byte is presented, when none collided before it. -/
theorem WireSoFar.present {s : State} {op : Instr} {n : Nat} {mid : List WireEvent} {v : Byte} {p : Spi}
    (h : WireSoFar s op n mid) (hno : ∀ w, WireEvent.collide w ∉ mid) (hv : (s.wireBytes op)[n]? = some v)
    (hctrl : p.ctrl = s.spi.ctrl) : WireSoFar s op (n + 1) (mid ++ p.writeEvents v) := by
  have hrun : (p.enabled && p.master) = (s.spi.enabled && s.spi.master) := by
    simp only [Spi.enabled, Spi.master, hctrl]
  obtain ⟨he, hoff⟩ | ⟨e, he, hon, hpb, hcs, _⟩ := p.writeEvents_cases v <;> rw [he]
  · have hs := hrun.symm.trans hoff
    rw [List.append_nil]
    exact ⟨by rw [h.presented, hs]; rfl, h.noCs, h.collided⟩
  · have hs := hrun.symm.trans hon
    refine ⟨?_, fun e' he' => ?_, fun m w m' hm => ?_⟩
    · rw [List.filterMap_append, h.presented, hs, if_pos rfl, if_pos rfl, List.take_add_one, hv]
      simp [hpb]
    · obtain h' | h' := List.mem_append.mp he'
      · exact h.noCs e' h'
      · rw [List.mem_singleton.mp h']; exact hcs
    · obtain ⟨m₀, h₀⟩ := append_eq_append_cons_of_not_mem hm (hno w)
      have hlen := congrArg List.length h₀
      obtain rfl : m' = [] := List.eq_nil_of_length_eq_zero (by simp at hlen; omega)
      exact fun _ h => by cases h

/-! ### Along the run -/

/-- A transaction at label `l` between `select` and the end, with `n` bytes presented and the wire events `mid` since the
selection; from the response byte under way on `BUF` is as it was. -/
structure Midway (s : State) (op : Instr) (l : Label) (n : Nat) (mid : List WireEvent) (u : State) : Prop where
  sent : SentAt s op u.eng.idx n l
  wire : WireSoFar s op n mid
  uncollided : (∃ v, WireEvent.collide v ∈ mid) → MayHaveCollided u.spi.coll l
  kept : ∀ i, n ≤ i + 1 + l.pending → u.bufByte i = s.bufByte i

/-- The stages of a transaction from `s`, with the wire events recorded since. -/
inductive Stage (s : State) (op : Instr) (u : State) : Prop where
  | before (pre : List WireEvent) (phase : u.eng.phase = .busy op .select) (trace : u.trace = s.trace ++ pre)
      (done : AllDone pre) (buf : u.buf = s.buf)
  | within (l : Label) (n : Nat) (pre mid : List WireEvent) (phase : u.eng.phase = .busy op l)
      (trace : u.trace = s.trace ++ pre ++ [.csLow op.slot] ++ mid) (done : AllDone pre) (midway : Midway s op l n mid u)
  | ended (ok : Bool) (n : Nat) (pre mid : List WireEvent) (ends : Ended u op.slot)
      (trace : u.trace = s.trace ++ pre ++ [.csLow op.slot] ++ mid ++ [.csHigh op.slot]) (done : AllDone pre)
      (midway : Midway s op (.unselect ok) n mid u) (rsp : ∃ tmp, u.rsp = txnResponse op ok tmp)

section
variable {s u w : State} {op : Instr} {l l' : Label} {n : Nat} {mid : List WireEvent}

/-- A micro-step that presents nothing and writes no byte of `BUF`. -/
theorem Midway.goesTo (h : Midway s op l n mid u) (hb : w.buf = u.buf) (hs : SentAt s op w.eng.idx n l')
    (hc : MayHaveCollided u.spi.coll l → MayHaveCollided w.spi.coll l') (hp : l'.pending ≤ l.pending) :
    Midway s op l' n mid w where
  sent := hs
  wire := h.wire
  uncollided hm := hc (h.uncollided hm)
  kept i hi := by rw [State.bufByte, hb]; exact h.kept i (by omega)

theorem Midway.add_done {es : List WireEvent} (h : Midway s op l n mid u) (hes : AllDone es)
    (hb : w.buf = u.buf) (hi : w.eng.idx = u.eng.idx) (hc : w.spi.coll = u.spi.coll) :
    Midway s op l n (mid ++ es) w where
  sent := hi ▸ h.sent
  wire := h.wire.add_done hes
  uncollided := by
    rintro ⟨v, hv⟩
    obtain hv | hv := List.mem_append.mp hv
    · exact hc ▸ h.uncollided ⟨v, hv⟩
    · obtain ⟨tx, r, e⟩ := hes _ hv
      cases e
  kept i hle := by rw [State.bufByte, hb]; exact h.kept i hle

/-- The head of the byte loop, with everything before byte `w.eng.idx` presented. -/
theorem Midway.atLoopHead (hwire : WireSoFar s op (w.eng.idx + 1) mid) (hno : ∀ v, WireEvent.collide v ∉ mid)
    (hle : w.eng.idx ≤ byteCount op) (hk : ∀ i, w.eng.idx ≤ i → w.bufByte i = s.bufByte i) :
    ∃ l', loopHead op w = w.goto op l' ∧ Midway s op l' (w.eng.idx + 1) mid (loopHead op w) := by
  rw [loopHead_eq_goto]
  by_cases hi : w.eng.idx < byteCount op
  · rw [if_pos hi]
    exact ⟨_, rfl, firstLabel_sentAt hi, hwire, fun ⟨v, hv⟩ => absurd hv (hno v),
      fun i h => hk i (by rw [firstLabel_pending] at h; omega)⟩
  · rw [if_neg hi]
    exact ⟨_, rfl, afterLoop_sentAt (i := w.eng.idx) (by omega), hwire, fun ⟨v, hv⟩ => absurd hv (hno v),
      fun i h => hk i (by rw [afterLoop_pending] at h; omega)⟩

end

/-- The run of a transaction on a valid handle from `s`. -/
structure TransactionRun (s : State) (op : Instr) (u : State) : Prop where
  keeps : TransactionKeeps s u
  cur : u.eng.cur = op.slot
  index : IndexBelow u
  stage : Stage s op u

theorem handle_of_handles {s u : State} (h : u.handles = s.handles) (g : Slot) : u.handle g = s.handle g := by
  rw [State.handle, h, State.handle]

theorem Drives.of_handles {s u : State} {g : Slot} {k b : Nat} (hd : Drives s g k b) (h : u.handles = s.handles) :
    Drives u g k b := by
  simpa only [Drives, handle_of_handles h] using hd

section
variable {s u : State} {op op' : Instr} {l : Label} {n k b : Nat} {pre mid : List WireEvent}

theorem TransactionRun.handle (h : TransactionRun s op u) (g : Slot) : u.handle g = s.handle g := by
  obtain ⟨_, hh, _⟩ := h.keeps
  exact handle_of_handles hh g

theorem TransactionRun.drives (h : TransactionRun s op u) (hd : Drives s op.slot k b) : Drives u u.eng.cur k b := by
  obtain ⟨_, hh, _⟩ := h.keeps
  exact h.cur ▸ hd.of_handles hh

/-- `select` comes first, and the command byte is presented next (rules R130, R143). -/
theorem TransactionRun.select (h : TransactionRun s op u) (hd : Drives s op.slot k b)
    (htr : u.trace = s.trace ++ pre) (hdone : AllDone pre) (hbuf : u.buf = s.buf) :
    Stage s op (microLabel op .select u) := by
  have hx : u.curHandle = s.handle op.slot := by rw [State.curHandle, h.cur, h.handle]
  have hsel := select_of_drives (h.drives hd)
  refine .within (.send .cmd (commandByte op u.curHandle.invert)) 0 pre [] rfl ?_ hdone
    ⟨⟨rfl, ?_⟩, ⟨by simp, nofun, fun m _ _ e => by simp at e⟩, fun ⟨v, hv⟩ => (by cases hv), fun i _ => ?_⟩
  · rw [microLabel, microSelect, hsel]
    simp [htr, h.cur]
  · rw [hx]; exact wireBytes_zero s op
  · rw [microLabel, microSelect, hsel, State.bufByte]
    simp [hbuf, State.bufByte]

theorem Midway.ofBegin (h : Midway s op l n mid u) : l.ofBegin = false := by
  cases l with
  | badCs | csDir | csOut | busPin | ctrl | status => exact h.sent.elim
  | _ => rfl

/-- A data write presents the byte of its label (rules R64, R133). -/
theorem Midway.send {x : Exchange} {v : Byte} (h : Midway s op (.send x v) n mid u) (hctrl : u.spi.ctrl = s.spi.ctrl) :
    Midway s op (.sample x) (n + 1) (mid ++ u.spi.writeEvents v) (microLabel op (.send x v) u) where
  sent := congrArg (· + 1) h.sent.1
  wire := h.wire.present (fun w hw => h.uncollided ⟨w, hw⟩) h.sent.2 hctrl
  uncollided := by
    rintro ⟨w, hw⟩
    obtain hw | hw := List.mem_append.mp hw
    · exact (h.uncollided ⟨w, hw⟩).elim
    · obtain ⟨he, _⟩ | ⟨e, he, _, _, _, hc⟩ := u.spi.writeEvents_cases v <;> rw [he] at hw
      · cases hw
      · exact hc w (List.mem_singleton.mp hw).symm
  kept i hi := h.kept i (by simp only [Label.pending] at hi ⊢; omega)

/-- The end of a response byte's or payload byte's iteration: the next head of the loop. -/
theorem Midway.nextByte {w : State} (h : Midway s op l n mid u) (hno : ∀ v, WireEvent.collide v ∉ mid)
    (hn : n = u.eng.idx + 2) (hi : u.eng.idx < byteCount op) (hw : w.eng.idx = u.eng.idx)
    (hk : ∀ i, u.eng.idx < i → w.bufByte i = s.bufByte i) :
    ∃ l', (nextByte op w).eng.phase = .busy op l' ∧ Midway s op l' n mid (nextByte op w) := by
  have hidx : (w.setIdx (w.eng.idx + 1)).eng.idx = u.eng.idx + 1 := by simp [hw]
  obtain ⟨l', he, hm⟩ := Midway.atLoopHead (op := op) (w := w.setIdx (w.eng.idx + 1)) (by rw [hidx, ← hn]; exact h.wire)
    hno (by rw [hidx]; exact hi) (fun i h => hk i (by rw [hidx] at h; exact h))
  rw [hidx, ← hn] at hm
  exact ⟨l', by rw [Machine.nextByte, he]; rfl, hm⟩

/-- The data read ends an exchange (rules R133, R137 to R141). -/
theorem Midway.receive {x : Exchange} (h : Midway s op (.receive x) n mid u) (hi : x = .byte → u.eng.idx < byteCount op) :
    ∃ l', (microLabel op (.receive x) u).eng.phase = .busy op l' ∧ Midway s op l' n mid (microLabel op (.receive x) u) := by
  have hno : ∀ v, WireEvent.collide v ∉ mid := fun v hv => h.uncollided ⟨v, hv⟩
  obtain ⟨w, hw⟩ : ∃ w, w = u.withSpi u.spi.readData := ⟨_, rfl⟩
  have hwi : w.eng.idx = u.eng.idx := by rw [hw]; rfl
  have hkept (i : Nat) (hle : n ≤ i + 2) : w.bufByte i = s.bufByte i := by rw [hw]; exact h.kept i hle
  rw [microLabel, microReceive, ← hw]
  have hn : n = x.position u.eng.idx + 1 := h.sent
  cases x with
  | cmd =>
    obtain ⟨l', he, hm⟩ := Midway.atLoopHead (op := op) (w := w.setIdx 0) (by rw [hn] at h; exact h.wire) hno
      (Nat.zero_le _) (fun i _ => hkept i (by rw [hn]; exact Nat.le_add_left 1 (i + 1)))
    exact ⟨l', by rw [afterExchange, he]; rfl, hn ▸ hm⟩
  | byte =>
    have hi := hi rfl
    have hk (i : Nat) (hlt : u.eng.idx < i) : w.bufByte i = s.bufByte i :=
      hkept i (by rw [hn, Exchange.position]; omega)
    cases hd : direction op with
    | none => exact absurd hd (direction_of_byteCount hi)
    | write =>
      rw [afterExchange_write hd]
      exact h.nextByte hno hn hi hwi hk
    | read =>
      cases hpr : privateResult op with
      | true =>
        rw [afterExchange_tmp hd hpr]
        exact h.nextByte hno hn hi hwi hk
      | false =>
        rw [afterExchange_store hd hpr]
        exact ⟨_, rfl, h.goesTo (by rw [hw]; rfl) (by rw [State.goto_eng, hwi]; exact hn) False.elim le_rfl⟩

/-- A micro-step between `select` and the end, but the data write. -/
theorem Midway.micro (h : Midway s op l n mid u) (hi : l.ofByte = true → u.eng.idx < byteCount op)
    (hs : ∀ x v, l ≠ .send x v) (hu : ∀ ok, l ≠ .unselect ok) :
    ∃ l', (microLabel op l u).eng.phase = .busy op l' ∧ Midway s op l' n mid (microLabel op l u) := by
  cases l with
  | badCs | csDir | csOut | busPin | ctrl | status | select => exact h.sent.elim
  | send x v => exact absurd rfl (hs x v)
  | unselect ok => exact absurd rfl (hu ok)
  | load =>
    obtain ⟨hn, hd, hv⟩ := h.sent
    have hi := hi rfl
    refine ⟨_, rfl, h.goesTo rfl ⟨hn, ?_⟩ id le_rfl⟩
    rw [hn, wireBytes_payload hd hv hi, h.kept u.eng.idx (by simp [hn])]
  | sample x => exact ⟨_, rfl, h.goesTo rfl h.sent id le_rfl⟩
  | poll x =>
    have hle := Exchange.position_lt x fun e => hi (by rw [e]; rfl)
    simp only [microLabel, microPoll]
    split
    · exact ⟨_, rfl, h.goesTo rfl (h.sent.trans_le hle) (fun _ => trivial) le_rfl⟩
    · next hc =>
      have hc : u.spi.coll = false := by simpa using hc
      split <;> exact ⟨_, rfl, h.goesTo rfl h.sent (fun e => by rw [hc] at e; cases e) le_rfl⟩
  | receive x => exact h.receive fun e => hi (by rw [e]; rfl)
  | clock x =>
    have hle := Exchange.position_lt x fun e => hi (by rw [e]; rfl)
    simp only [microLabel, microClock]
    split
    · exact ⟨_, rfl, h.goesTo rfl (h.sent.trans_le hle) False.elim le_rfl⟩
    · exact ⟨_, rfl, h.goesTo rfl h.sent False.elim le_rfl⟩
  | timedOut => exact ⟨_, rfl, h.goesTo rfl h.sent False.elim le_rfl⟩
  | store r =>
    have hi := hi rfl
    have hn : n = u.eng.idx + 2 := h.sent
    refine h.nextByte (fun v hv => h.uncollided ⟨v, hv⟩) hn hi rfl fun i hlt => ?_
    rw [State.bufByte, State.setBuf_buf, Memory.write_read_other _ (by omega)]
    exact h.kept i (by simp only [Label.pending]; omega)
  | settleStart | tailStart => exact ⟨_, rfl, h.goesTo rfl h.sent id le_rfl⟩
  | settleWait =>
    obtain ⟨hn, hd⟩ := id h.sent
    simp only [microLabel, microDelayWait]
    split
    · exact ⟨_, rfl, h.goesTo rfl ⟨hn, hn ▸ wireBytes_read hd (hi rfl) s⟩ id le_rfl⟩
    · exact ⟨_, rfl, h.goesTo rfl h.sent id le_rfl⟩
  | tailWait =>
    simp only [microLabel, microDelayWait]
    split <;> exact ⟨_, rfl, h.goesTo rfl h.sent id le_rfl⟩

theorem TransactionRun.micro (hd : Drives s op.slot k b) (hp : u.eng.phase = .busy op' l) (h : TransactionRun s op u) :
    TransactionRun s op (microLabel op' l u) := by
  have hdu := h.drives hd
  obtain ⟨_, _, _, hctrl, _⟩ := h.keeps
  have frame (hl : l.ofBegin = false) (hst : Stage s op (microLabel op' l u)) : TransactionRun s op (microLabel op' l u) :=
    ⟨h.keeps.trans (microLabel_transactionKeeps op' u hl), by simpa using h.cur, microLabel_indexBelow hp h.index, hst⟩
  cases h.stage with
  | ended ok n pre mid ends =>
    obtain ⟨hr, _⟩ := ends
    rw [hr] at hp; cases hp
  | before pre phase trace done buf =>
    rw [hp] at phase
    cases phase
    exact frame rfl (h.select hd trace done buf)
  | within l' n pre mid phase trace done midway =>
    rw [hp] at phase
    cases phase
    refine frame midway.ofBegin ?_
    by_cases hs : ∃ x v, l = .send x v
    · obtain ⟨x, v, rfl⟩ := hs
      refine .within (.sample x) (n + 1) pre (mid ++ u.spi.writeEvents v) rfl ?_ done (midway.send hctrl)
      rw [← List.append_assoc, ← trace]; rfl
    by_cases hu : ∃ ok, l = .unselect ok
    · obtain ⟨ok, rfl⟩ := hu
      have hends := microUnselect_ended hdu op ok
      rw [h.cur] at hends
      rw [microUnselect_of_drives hdu] at hends ⊢
      exact .ended ok n pre mid hends (by simp [trace, h.cur]) done (midway.goesTo rfl midway.sent id le_rfl) ⟨u.eng.tmp, rfl⟩
    · have hs' : ∀ x v, l ≠ .send x v := fun x v e => hs ⟨x, v, e⟩
      have hu' : ∀ ok, l ≠ .unselect ok := fun ok e => hu ⟨ok, e⟩
      have hb := midway.ofBegin
      obtain ⟨l', hp', hm⟩ := midway.micro (h.index op l hp) hs' hu'
      refine .within l' n pre mid hp' ?_ done hm
      rw [microLabel_trace _ _ _ (by rintro rfl; cases hb) (by rintro rfl; exact midway.sent) hs' hu', trace]

theorem TransactionRun.linkComplete (hp : u.eng.phase = .busy op' l) (h : TransactionRun s op u) (r : Byte) :
    TransactionRun s op (u.linkComplete r) := by
  refine ⟨h.keeps.trans (linkComplete_transactionKeeps u r), h.cur, h.index, ?_⟩
  have hdone := u.spi.linkEvents_allDone r
  cases h.stage with
  | ended ok n pre mid ends =>
    obtain ⟨hr, _⟩ := ends
    rw [hr] at hp
    cases hp
  | before pre phase trace done buf =>
    exact .before (pre ++ u.spi.linkEvents r) phase (by rw [State.linkComplete_trace, trace, List.append_assoc])
      (done.append hdone) buf
  | within l' n pre mid phase trace done midway =>
    exact .within l' n pre (mid ++ u.spi.linkEvents r) phase
      (by rw [State.linkComplete_trace, trace, List.append_assoc]) done
      (midway.add_done hdone rfl rfl (Spi.linkComplete_coll _ _))

theorem Stage.timeStep (h : Stage s op u) (d : Nat) : Stage s op (u.timeStep d) := by
  cases h with
  | before pre phase trace done buf => exact .before pre phase trace done buf
  | within l n pre mid phase trace done midway =>
    exact .within l n pre mid phase trace done (midway.goesTo rfl midway.sent id le_rfl)
  | ended ok n pre mid ends trace done midway rsp =>
    exact .ended ok n pre mid ends trace done (midway.goesTo rfl midway.sent id le_rfl) rsp

theorem Stage.withSched (h : Stage s op u) (ts : List Turn) : Stage s op { u with sched := ts } := by
  cases h with
  | before pre phase trace done buf => exact .before pre phase trace done buf
  | within l n pre mid phase trace done midway =>
    exact .within l n pre mid phase trace done (midway.goesTo rfl midway.sent id le_rfl)
  | ended ok n pre mid ends trace done midway rsp =>
    exact .ended ok n pre mid ends trace done (midway.goesTo rfl midway.sent id le_rfl) rsp

/-- What ENGINE, LINK and TIME do to a transaction under way (rules R66, R133 to R143, R163). -/
theorem transactionRun_keeps (hd : Drives s op.slot k b) : RunKeeps (fun _ => True) (TransactionRun s op) where
  micro _ _ _ hp h := h.micro hd hp
  link _ _ _ r hp _ h := h.linkComplete hp r
  time _ d h := ⟨h.keeps, h.cur, h.index, h.stage.timeStep d⟩
  sched _ ts h := ⟨h.keeps, h.cur, h.index, h.stage.withSched ts⟩

/-- An accepted transaction on a handle that drives a line, answered: its run is over. -/
theorem exec_transactionRun {t : State} (hop : isTransaction op = true) (ha : Accepts s op) (hd : Drives s op.slot k b)
    (hx : exec op s = .next t) : t.eng.phase = .ready ∧ TransactionRun s op t := by
  obtain ⟨hv, _⟩ := id hd
  rw [exec_of_valid hop ha hv] at hx
  have h0 : TransactionRun s op ((s.openOp op).goto op .select) :=
    ⟨⟨rfl, rfl, rfl, rfl, rfl, rfl, rfl, rfl⟩, rfl, indexBelow_of_goto rfl (by simp [Label.ofByte]),
      .before [] rfl (List.append_nil _).symm nofun rfl⟩
  exact ⟨complete_ready hx, (transactionRun_keeps hd).complete hx h0⟩

end

/-! ### At the response -/

/-- A transaction that succeeded does not answer FAIL. -/
theorem txnResponse_fail {op : Instr} {ok : Bool} {tmp : Option Byte} (hp : privateResult op = false)
    (h : txnResponse op ok tmp = 0x000#10) : ok = false := by
  cases ok with
  | false => rfl
  | true =>
    rw [txnResponse, hp] at h
    exact absurd h (by decide : boolResponse true ≠ 0x000#10)

section
variable {s t : State} {op : Instr} {ok : Bool} {n k b : Nat} {mid : List WireEvent}

/-- A transaction that has answered, with all its run says of it. -/
theorem TransactionRun.over (h : TransactionRun s op t) (hr : t.eng.phase = .ready) :
    ∃ ok n pre mid tmp, Ended t op.slot ∧ t.rsp = txnResponse op ok tmp ∧
      t.trace = s.trace ++ pre ++ [.csLow op.slot] ++ mid ++ [.csHigh op.slot] ∧ AllDone pre ∧
      Midway s op (.unselect ok) n mid t := by
  cases h.stage with
  | before pre phase => rw [hr] at phase; cases phase
  | within l n pre mid phase => rw [hr] at phase; cases phase
  | ended ok n pre mid ends trace done midway rsp =>
    obtain ⟨tmp, rsp⟩ := rsp
    exact ⟨ok, n, pre, mid, tmp, ends, rsp, trace, done, midway⟩

/-- Every transaction ends ready, idle and deselected (rule R142). -/
theorem exec_ended (hop : isTransaction op = true) (ha : Accepts s op) (hd : Drives s op.slot k b)
    (hx : exec op s = .next t) : Ended t op.slot := by
  obtain ⟨hr, hrun⟩ := exec_transactionRun hop ha hd hx
  obtain ⟨_, _, _, _, _, hended, _⟩ := hrun.over hr
  exact hended

theorem WireSoFar.presented_isPrefix (h : WireSoFar s op n mid) : mid.filterMap presentedByte <+: s.wireBytes op := by
  rw [h.presented]
  split
  · exact List.take_prefix _ _
  · exact List.nil_prefix

theorem WireSoFar.presented_of_running (h : WireSoFar s op n mid) (hr : s.spi.Running) :
    mid.filterMap presentedByte = (s.wireBytes op).take n := by
  obtain ⟨he, hm⟩ := hr
  rw [h.presented, he, hm, Bool.and_self, if_pos rfl]

/-- A transaction whose byte collided failed (rule R150). -/
theorem Midway.failed_of_collide (h : Midway s op (.unselect ok) n mid t) (hc : ∃ v, WireEvent.collide v ∈ mid) :
    ok = false := by
  cases ok with
  | false => rfl
  | true => exact (h.uncollided hc).elim

/-- A transaction that succeeded on a running bus presented all its bytes (rule R143). -/
theorem Midway.all_presented (h : Midway s op (.unselect true) n mid t) (hop : isTransaction op = true)
    (hr : s.spi.Running) : mid.filterMap presentedByte = s.wireBytes op := by
  have hn : n = byteCount op + 1 := h.sent
  rw [h.wire.presented_of_running hr]
  exact List.take_of_length_le (by rw [wireBytes_length hop, hn])

/-- A transaction that failed on a running bus left `BUF` alone from the byte that failed on (rule R181). -/
theorem Midway.kept_of_failed (h : Midway s op (.unselect false) n mid t) (hop : isTransaction op = true)
    (hr : s.spi.Running) {i : Nat} (hi : (mid.filterMap presentedByte).length ≤ i + 2) : t.bufByte i = s.bufByte i := by
  have hn : n ≤ byteCount op + 1 := h.sent
  rw [h.wire.presented_of_running hr, List.length_take_of_le (by rw [wireBytes_length hop]; exact hn)] at hi
  exact h.kept i hi

end

end Sys2Proof.Machine
end
section
/-!
PROOFS. A transaction on a link that answers its bytes in time (O32 to O36; rules R134 clause (b), R193 clause (d)): by
induction over the answers, what the turns of the first of them lead to, and at the end the response.
-/
namespace Sys2Proof.Machine

/-! ### Lists of answers -/

theorem timeAfter_append (c : Config) (ds es : List Nat) (t : Nat) :
    timeAfter c t (ds ++ es) = timeAfter c (timeAfter c t ds) es := by
  induction ds generalizing t with
  | nil => rfl
  | cons d ds ih => exact ih _

theorem exchangeEvents_append (es fs : List (Byte × Byte)) :
    exchangeEvents (es ++ fs) = exchangeEvents es ++ exchangeEvents fs := List.flatMap_append

/-- One more element on the shorter side of a `zip`. -/
theorem zip_concat {α β : Type} {xs : List α} {ys : List β} {x : α} (h : xs[ys.length]? = some x) (y : β) :
    xs.zip (ys ++ [y]) = xs.zip ys ++ [(x, y)] := by
  induction ys generalizing xs with
  | nil =>
    cases xs with
    | nil => cases h
    | cons x' xs => cases h; simp
  | cons y' ys ih =>
    cases xs with
    | nil => cases h
    | cons x' xs => simpa using ih (by simpa using h)

/-! ### What the answers have done -/

/-- A transaction from `s` whose bytes so far were answered by `as`: the link is clean with the last of them received. -/
structure OnWire (s : State) (op : Instr) (as : List Answer) (u : State) : Prop where
  keeps : TransactionKeeps s u
  canonical : u.buf.wf = true
  cur : u.eng.cur = op.slot
  spi : u.spi = { s.spi with rxd := (as.map (·.byte)).getLastD s.spi.rxd }
  trace : u.trace = s.trace ++ [.csLow op.slot] ++ exchangeEvents ((s.wireBytes op).zip (as.map (·.byte)))
  diag : u.diag = s.diag
  time : direction op ≠ .read → u.time = timeAfter s.cfg s.time (as.flatMap fun a => a.waits ++ a.late)

/-- What became of the bytes `rs` received after the command byte: `READN` stored them, `READ1` holds the last (rules R138,
R141). -/
structure Received (s : State) (op : Instr) (rs : List Byte) (u : State) : Prop where
  kept : ¬ IsReadN op → u.buf = s.buf
  stored : IsReadN op → ∀ i, u.bufByte i = rs.getD i (s.bufByte i)
  tmp : privateResult op = true → u.eng.tmp = rs.getLast?

/-- The byte loop's own fields are as before. -/
structure SameLoop (u w : State) : Prop where
  buf : w.buf = u.buf
  idx : w.eng.idx = u.eng.idx
  tmp : w.eng.tmp = u.eng.tmp

theorem Received.of_same {s u w : State} {op : Instr} {rs : List Byte} (h : Received s op rs u) (hb : w.buf = u.buf)
    (ht : w.eng.tmp = u.eng.tmp) : Received s op rs w where
  kept hn := hb.trans (h.kept hn)
  stored hn i := by rw [State.bufByte, hb]; exact h.stored hn i
  tmp hp := ht.trans (h.tmp hp)

theorem SameLoop.trans {u v w : State} (h : SameLoop u v) (g : SameLoop v w) : SameLoop u w :=
  ⟨g.buf.trans h.buf, g.idx.trans h.idx, g.tmp.trans h.tmp⟩

theorem not_isReadN_of_write {op : Instr} (h : direction op = .write) : ¬ IsReadN op := by
  rintro ⟨_, _, _, rfl⟩
  cases h

theorem privateResult_of_write {op : Instr} (h : direction op = .write) : privateResult op = false := by
  cases op with
  | write1 | writeN => rfl
  | _ => cases h

/-- The element put at the end of a list is the one at its length. -/
theorem getD_concat {α : Type} (xs : List α) (x d : α) (i : Nat) :
    (xs ++ [x]).getD i d = if i = xs.length then x else xs.getD i d := by
  simp only [List.getD_eq_getElem?_getD, List.getElem?_append]
  by_cases hlt : i < xs.length
  · rw [if_pos hlt, if_neg (by omega)]
  · by_cases hi : i = xs.length
    · simp [hi]
    · rw [if_neg hlt, if_neg hi, List.getElem?_eq_none (l := xs) (by omega),
        List.getElem?_eq_none (by rw [List.length_singleton]; omega)]

/-- A configuration's bounds are values of the counter (rule R14 clause (f)). -/
theorem times_of_wf {c : Config} (h : c.wf = true) :
    c.timeoutUs < 2 ^ c.timeBits ∧ c.readSettleUs < 2 ^ c.timeBits ∧ c.readTailUs < 2 ^ c.timeBits := by
  simp only [Config.wf, Config.timesLegal, Bool.and_eq_true, decide_eq_true_eq] at h
  tauto

section
variable {s u : State} {op : Instr} {as : List Answer} {a : Answer} {rs : List Byte}

/-- One exchange that is answered in time (rules R133, R134 clause (b)). -/
theorem OnWire.exchange {x : Exchange} {v : Byte} (h : OnWire s op as u) (hw : s.cfg.wf = true) (hc : s.spi.Clean)
    (hr : s.spi.Running) (ha : a.InTime s.cfg) (hp : u.eng.phase = .busy op (.send x v))
    (hv : (s.wireBytes op)[as.length]? = some v) :
    ∃ w, RunsTo a.turns u (afterExchange op x a.byte w) ∧ OnWire s op (as ++ [a]) w ∧ SameLoop u w := by
  obtain ⟨hkeeps, hcan, hcur, hspi, htrace, hdiag, htime⟩ := h
  obtain ⟨hcfg, _⟩ := id hkeeps
  obtain ⟨hto, _⟩ := times_of_wf hw
  refine ⟨_, fun rest => runTurns_answer a rest hp (by rw [hspi]; exact hc) (by rw [hspi]; exact hr) (hcfg ▸ ha) (hcfg ▸ hto),
    ⟨hkeeps, hcan, hcur, ?_, ?_, hdiag, fun hd => ?_⟩, ⟨rfl, rfl, rfl⟩⟩
  · simp [hspi]
  · rw [htrace, List.map_append, List.map_singleton, zip_concat (by simpa using hv), exchangeEvents_append]
    simp [exchangeEvents]
  · rw [List.flatMap_append, timeAfter_append, ← htime hd, List.flatMap_singleton, timeAfter_append, hcfg]

/-- `select` and the command byte's label (rules R130, R143 clause (a)). -/
theorem OnWire.start {k b : Nat} (hd : Drives s op.slot k b) (hm : MemoryCanonical s) :
    ∃ w, RunsTo [.engine] ((s.openOp op).goto op .select) w ∧ OnWire s op [] w ∧ Received s op [] w ∧
      w.eng.phase = .busy op (.send .cmd (commandByte op (s.handle op.slot).invert)) := by
  obtain ⟨_, _, hcan⟩ := hm
  obtain ⟨u, hu⟩ : ∃ u, u = (s.openOp op).goto op .select := ⟨_, rfl⟩
  have hp : u.eng.phase = .busy op .select := by rw [hu]; rfl
  have hkeeps : TransactionKeeps s u := by rw [hu]; exact ⟨rfl, rfl, rfl, rfl, rfl, rfl, rfl, rfl⟩
  have hcur : u.eng.cur = op.slot := by rw [hu]; rfl
  have hx : u.curHandle = s.handle op.slot := by rw [hu]; rfl
  have hsel := select_of_drives (s := u) (by rw [hcur, hu]; exact hd)
  have hbuf : (microLabel op .select u).buf = s.buf := (microLabel_buf _ _ _ (by simp)).trans (by rw [hu]; rfl)
  have htmp : (microLabel op .select u).eng.tmp = none := by
    rw [microLabel, microSelect, hsel]
    simp [hu]
  rw [← hu]
  refine ⟨_, RunsTo.engine hp,
    ⟨hkeeps.trans (microLabel_transactionKeeps op u rfl), by rw [hbuf]; exact hcan, by rw [microLabel_cur, hcur],
      by rw [microLabel_spi, hu]; rfl, ?_, by rw [microLabel_diag _ _ _ (by simp) (by simp), hu]; rfl,
      fun _ => by rw [microLabel_time, hu]; rfl⟩,
    ⟨fun _ => hbuf, fun _ i => by rw [State.bufByte, hbuf]; rfl, fun _ => htmp⟩, by rw [← hx]; rfl⟩
  rw [microLabel, microSelect, hsel, hcur]
  simp [hu, exchangeEvents]

/-- The sequencer moves on, on the same slot. -/
theorem OnWire.withEng (h : OnWire s op as u) {e : Eng} (he : e.cur = u.eng.cur) : OnWire s op as (u.withEng e) :=
  ⟨h.keeps, h.canonical, he.trans h.cur, h.spi, h.trace, h.diag, h.time⟩

theorem OnWire.goto (h : OnWire s op as u) (op' : Instr) (l : Label) : OnWire s op as (u.goto op' l) := h.withEng rfl

theorem OnWire.setIdx (h : OnWire s op as u) (i : Nat) : OnWire s op as (u.setIdx i) := h.withEng rfl

theorem OnWire.setBuf (h : OnWire s op as u) (i : Nat) (r : Byte) : OnWire s op as (u.setBuf i r) :=
  ⟨h.keeps, Memory.write_wf h.canonical _ _, h.cur, h.spi, h.trace, h.diag, h.time⟩

/-- The time of a read is left open. -/
theorem OnWire.delayed (h : OnWire s op as u) (hd : direction op = .read) (d : Nat) (l : Label) :
    OnWire s op as ((u.sampleTime.timeStep d).goto op l) :=
  ⟨h.keeps, h.canonical, h.cur, h.spi, h.trace, h.diag, fun hn => absurd hd hn⟩

/-- From the head of the loop to the byte's own data write: the settling delay, the load, or nothing (rules R137, R139). -/
theorem OnWire.beforeByte (h : OnWire s op as u) (hrec : Received s op rs u) (hw : s.cfg.wf = true)
    (hi : u.eng.idx < byteCount op) :
    ∃ w v, RunsTo (turnsBeforeByte s.cfg op) (loopHead op u) w ∧ w.eng.phase = .busy op (.send .byte v) ∧
      (s.wireBytes op)[u.eng.idx + 1]? = some v ∧ OnWire s op as w ∧ SameLoop u w := by
  obtain ⟨_, hset, _⟩ := times_of_wf hw
  obtain ⟨hcfg, _⟩ := h.keeps
  rw [loopHead_eq_goto, if_pos hi]
  unfold firstLabel turnsBeforeByte
  cases hd : direction op with
  | none => exact absurd hd (direction_of_byteCount hi)
  | read =>
    refine ⟨_, filler, fun rest => runTurns_promptDelay (wait := .settleWait) rest rfl (hcfg ▸ hset) (fun _ => rfl) ?_, rfl,
      wireBytes_read hd hi s, h.delayed hd _ _, ⟨rfl, rfl, rfl⟩⟩
    intro w hcw
    rw [microLabel, hcw.trans hcfg]
  | write =>
    cases hv : operandPayload op with
    | some v => exact ⟨_, v, RunsTo.refl _, rfl, wireBytes_operand hv hi s, h.goto _ _, ⟨rfl, rfl, rfl⟩⟩
    | none =>
      have hn := not_isReadN_of_write hd
      refine ⟨_, u.bufByte u.eng.idx, RunsTo.engine (op := op) (l := .load) rfl, rfl, ?_, (h.goto _ _).goto _ _,
        ⟨rfl, rfl, rfl⟩⟩
      rw [wireBytes_payload hd hv hi, State.bufByte, State.bufByte, hrec.kept hn]

/-- From a byte's answer to the next head of the loop: the byte is discarded, held or stored (rules R137 to R141). -/
theorem OnWire.afterByte {r : Byte} (h : OnWire s op as u) (hrec : Received s op rs u) (hlen : u.eng.idx = rs.length)
    (hi : u.eng.idx < byteCount op) :
    ∃ w, RunsTo (turnsAfterByte op) (afterExchange op .byte r u) (loopHead op w) ∧ OnWire s op as w ∧
      Received s op (rs ++ [r]) w ∧ w.eng.idx = u.eng.idx + 1 := by
  unfold turnsAfterByte
  cases hd : direction op with
  | none => exact absurd hd (direction_of_byteCount hi)
  | write =>
    have hn := not_isReadN_of_write hd
    have hp := privateResult_of_write hd
    rw [afterExchange_write hd]
    exact ⟨u.setIdx (u.eng.idx + 1), RunsTo.refl _, h.setIdx _,
      ⟨hrec.kept, fun h => absurd h hn, fun h => (by rw [hp] at h; cases h)⟩, rfl⟩
  | read =>
    cases hp : privateResult op with
    | true =>
      have hn : ¬ IsReadN op := by rintro ⟨_, _, _, rfl⟩; cases hp
      rw [afterExchange_tmp hd hp]
      exact ⟨(u.withEng { u.eng with tmp := some r }).setIdx (u.eng.idx + 1), RunsTo.refl _,
        (h.withEng (e := { u.eng with tmp := some r }) rfl).setIdx _, ⟨hrec.kept, fun h => absurd h hn, fun _ => by simp⟩, rfl⟩
    | false =>
      have hn := isReadN_of_read hd hp
      rw [afterExchange_store hd hp]
      refine ⟨(u.setBuf u.eng.idx r).setIdx (u.eng.idx + 1), RunsTo.engine (op := op) (l := .store r) rfl,
        (h.setBuf _ _).setIdx _, ⟨fun h => absurd hn h, fun _ i => ?_, fun h => by rw [hp] at h; cases h⟩, rfl⟩
      rw [State.bufByte, State.setIdx_buf, State.setBuf_buf, getD_concat, hlen]
      split
      · next hir => rw [hir, Memory.write_read_same h.canonical]
      · next hir => rw [Memory.write_read_other _ hir]; exact hrec.stored hn i

/-- Where a transaction stands after the answers `as`: before its next byte, or behind the byte loop. -/
def labelAfter (s : State) (op : Instr) : List Answer → Label
  | [] => .send .cmd (commandByte op (s.handle op.slot).invert)
  | _ :: as => if as.length < byteCount op then firstLabel op else afterLoop op

/-- The head of the byte loop after the answers `as`. -/
structure AtHead (s : State) (op : Instr) (as : List Answer) (u : State) : Prop where
  wire : OnWire s op as u
  received : Received s op ((as.drop 1).map (·.byte)) u
  idx : u.eng.idx + 1 = as.length

theorem AtHead.byte (h : AtHead s op as u) (hw : s.cfg.wf = true) (hc : s.spi.Clean) (hr : s.spi.Running)
    (ha : a.InTime s.cfg) (hi : u.eng.idx < byteCount op) :
    ∃ w, RunsTo (turnsBeforeByte s.cfg op ++ a.turns ++ turnsAfterByte op) (loopHead op u) (loopHead op w) ∧
      AtHead s op (as ++ [a]) w := by
  obtain ⟨hwire, hrec, hidx⟩ := h
  obtain ⟨v₁, v, hrun₁, hp, hv, hwire₁, hsame₁⟩ := hwire.beforeByte hrec hw hi
  obtain ⟨v₂, hrun₂, hwire₂, hsame₂⟩ := hwire₁.exchange hw hc hr ha hp (hidx ▸ hv)
  have hsame := hsame₁.trans hsame₂
  obtain ⟨w, hrun₃, hwire₃, hrec₃, hidx₃⟩ := hwire₂.afterByte (r := a.byte) (hrec.of_same hsame.buf hsame.tmp)
    (by rw [hsame.idx, List.length_map, List.length_drop]; omega) (by rw [hsame.idx]; exact hi)
  refine ⟨w, (hrun₁.trans hrun₂).trans hrun₃, hwire₃, ?_, ?_⟩
  · rwa [List.drop_append_of_le_length (by omega), List.map_append]
  · rw [hidx₃, hsame.idx, List.length_append, ← hidx]; rfl

/-- The answers to the bytes after the command byte, one after another. -/
theorem AtHead.bytes (bs : List Answer) (h : AtHead s op as u) (hw : s.cfg.wf = true) (hc : s.spi.Clean)
    (hr : s.spi.Running) (ha : ∀ b ∈ bs, b.InTime s.cfg) (hle : u.eng.idx + bs.length ≤ byteCount op) :
    ∃ w, RunsTo (bs.flatMap fun b => turnsBeforeByte s.cfg op ++ b.turns ++ turnsAfterByte op)
      (loopHead op u) (loopHead op w) ∧ AtHead s op (as ++ bs) w := by
  induction bs generalizing as u with
  | nil => exact ⟨u, RunsTo.refl _, by rwa [List.append_nil]⟩
  | cons b bs ih =>
    rw [List.length_cons] at hle
    obtain ⟨v, hrun, hv⟩ := h.byte hw hc hr (ha b List.mem_cons_self) (by omega)
    have hidx : v.eng.idx = u.eng.idx + 1 := by
      have h1 := hv.idx
      have h2 := h.idx
      rw [List.length_append, List.length_singleton] at h1
      omega
    obtain ⟨w, hrun', hw'⟩ := ih hv (fun b hb => ha b (List.mem_cons_of_mem _ hb)) (by omega)
    exact ⟨w, hrun.trans hrun', by rwa [List.append_assoc] at hw'⟩

/-- From the acceptance through the answered bytes (rules R130, R133 to R141). -/
theorem answered_runsTo {k b : Nat} (hd : Drives s op.slot k b) (hm : MemoryCanonical s) (hw : s.cfg.wf = true)
    (hc : s.spi.Clean) (hr : s.spi.Running) (ha : ∀ a ∈ as, a.InTime s.cfg) (hle : as.length ≤ byteCount op + 1) :
    ∃ w, RunsTo (answeredTurns s.cfg op as) ((s.openOp op).goto op .select) w ∧ OnWire s op as w ∧
      Received s op ((as.drop 1).map (·.byte)) w ∧ w.eng.phase = .busy op (labelAfter s op as) ∧
      (as ≠ [] → w.eng.idx + 1 = as.length) := by
  obtain ⟨u, hrun, hwire, hrec, hp⟩ := OnWire.start hd hm
  cases as with
  | nil => exact ⟨u, hrun, hwire, hrec, hp, fun h => absurd rfl h⟩
  | cons a as =>
    obtain ⟨v, hrun₁, hwire₁, hsame⟩ := hwire.exchange hw hc hr (ha a List.mem_cons_self) hp (wireBytes_zero s op)
    have hhead : AtHead s op [a] (v.setIdx 0) :=
      ⟨hwire₁.setIdx 0, hrec.of_same hsame.buf hsame.tmp, rfl⟩
    obtain ⟨w, hrun₂, ⟨hwire₂, hrec₂, hidx₂⟩⟩ := hhead.bytes as hw hc hr (fun a h => ha a (List.mem_cons_of_mem _ h))
      (by simpa using hle)
    have hidx : w.eng.idx = as.length := by simpa using hidx₂
    refine ⟨loopHead op w, hrun.trans (hrun₁.trans hrun₂), ?_⟩
    rw [loopHead_eq_goto]
    refine ⟨hwire₂.goto _ _, hrec₂.of_same rfl rfl, ?_, fun _ => hidx₂⟩
    rw [hidx]
    rfl

end

end Sys2Proof.Machine
end
section
/-!
PROOFS. The five transactions succeed on a prompt link (O32 to O36): the answered bytes, the tail delay of a read, `unselect`.
-/
namespace Sys2Proof.Machine

section
variable {s : State} {op : Instr} {k b : Nat} {as : List Answer} {rest : List Turn}

/-- A transaction from `s` succeeded on a prompt link with the answers `as`; `rest` are the turns left. -/
structure PromptlyAnswered (s : State) (op : Instr) (k b : Nat) (as : List Answer) (rest : List Turn) (t : State) :
    Prop where
  rsp : t.rsp = txnResponse op true t.eng.tmp
  trace : t.trace = s.trace ++ [.csLow op.slot] ++ exchangeEvents ((s.wireBytes op).zip (as.map (·.byte))) ++
    [.csHigh op.slot]
  received : Received s op ((as.drop 1).map (·.byte)) t
  time : direction op ≠ .read → t.time = timeAfter s.cfg s.time (as.flatMap fun a => a.waits ++ a.late)
  ended : PromptlyEnded s t op.slot k b ((as.map (·.byte)).getLastD s.spi.rxd) rest

/-- Behind the byte loop: the tail delay of a read, or nothing (rule R139). -/
theorem OnWire.tail {u : State} (h : OnWire s op as u) (hw : s.cfg.wf = true)
    (hp : u.eng.phase = .busy op (afterLoop op)) :
    ∃ w, RunsTo (if direction op = .read then promptDelay s.cfg.readTailUs else []) u w ∧ OnWire s op as w ∧
      SameLoop u w ∧ w.eng.phase = .busy op (.unselect true) := by
  obtain ⟨_, _, htail⟩ := times_of_wf hw
  obtain ⟨hcfg, _⟩ := h.keeps
  unfold afterLoop at hp
  split
  · next hd =>
    rw [if_pos hd] at hp
    refine ⟨_, fun rest => runTurns_promptDelay (wait := .tailWait) rest hp (hcfg ▸ htail) (fun _ => rfl) ?_,
      h.delayed hd _ _, ⟨rfl, rfl, rfl⟩, rfl⟩
    intro w hcw
    rw [microLabel, hcw.trans hcfg]
  · next hd =>
    rw [if_neg hd] at hp
    exact ⟨u, RunsTo.refl u, h, ⟨rfl, rfl, rfl⟩, hp⟩

/-- Every transaction on a valid handle succeeds when its bytes are answered in time (rule R134 clause (b)). -/
theorem exec_on_promptLink (hop : isTransaction op = true) (ha : Accepts s op) (hd : Drives s op.slot k b)
    (hm : MemoryCanonical s) (hc : s.spi.Clean) (hr : s.spi.Running) (hlen : as.length = byteCount op + 1)
    (hin : ∀ a ∈ as, a.InTime s.cfg) (hs : s.sched = promptTurns s.cfg op as ++ rest) :
    ∃ t, exec op s = .next t ∧ PromptlyAnswered s op k b as rest t := by
  obtain ⟨hw, _⟩ := id ha
  obtain ⟨hv, _⟩ := id hd
  obtain ⟨u, hrun₁, hwire₁, hrec₁, hp₁, _⟩ := answered_runsTo hd hm hw hc hr hin hlen.le
  have hlab : labelAfter s op as = afterLoop op := by
    cases as with
    | nil => cases hlen
    | cons a as => exact if_neg (by rw [Nat.succ.inj hlen]; exact Nat.lt_irrefl _)
  obtain ⟨w, hrun₂, hwire, hsame, hp⟩ := hwire₁.tail hw (hlab ▸ hp₁)
  have hrec := hrec₁.of_same hsame.buf hsame.tmp
  obtain ⟨_, hh, _⟩ := hwire.keeps
  have hdw : Drives w w.eng.cur k b := hwire.cur ▸ hd.of_handles hh
  have hend : microLabel op (.unselect true) w = _ := microUnselect_of_drives hdw op true
  have hx : exec op s = .next { microLabel op (.unselect true) w with sched := rest } := by
    rw [exec_of_valid hop ha hv]
    refine complete_of_turns ?_ rfl
    rw [State.goto_sched, State.openOp_sched, hs, promptTurns, (hrun₁.trans hrun₂).trans (RunsTo.engine hp)]
    exact runTurns_ready rfl rest
  obtain ⟨hkeeps, hout⟩ := transactionsTouchOnlyTheirOwnPin op s _ k b hop ha hd hm hx
  have hended := microUnselect_ended hdw op true
  rw [hwire.cur] at hended
  refine ⟨_, hx, ⟨?_, ?_, hrec.of_same ?_ ?_, fun hn => ?_, hended, ?_, ?_, rfl, hkeeps, hout⟩⟩
  · simp [hend]
  · simp [hend, hwire.trace, hwire.cur]
  · simp [hend]
  · simp [hend]
  · simp [hwire.time hn]
  · simp [hend, hwire.spi]
  · simp [hend, hwire.diag]

end

/-- Settles O32: the command byte alone is answered. -/
theorem commandSucceedsOnAPromptLink : Obligations.CommandSucceedsOnAPromptLink := by
  intro s h cmd a k b rest ha hd hm hc hr hin hs
  obtain ⟨t, hx, ⟨hrsp, htrace, hrec, htime, hend⟩⟩ := exec_on_promptLink (as := [a]) rfl ha hd hm hc hr rfl
    (by simpa using hin) hs
  refine ⟨t, hx, hrsp, ?_, hrec.kept (by rintro ⟨_, _, _, e⟩; cases e), ?_, hend⟩
  · rw [htrace]; simp [exchangeEvents, State.wireBytes, direction, commandByte, Instr.slot]
  · rw [htime (by simp [direction])]; simp

/-- Settles O33: the command byte and the operand are answered. -/
theorem write1SucceedsOnAPromptLink : Obligations.Write1SucceedsOnAPromptLink := by
  intro s h reg value a a' k b rest ha hd hm hc hr hin hin' hs
  obtain ⟨t, hx, ⟨hrsp, htrace, hrec, htime, hend⟩⟩ := exec_on_promptLink (as := [a, a']) rfl ha hd hm hc hr rfl
    (by simpa using ⟨hin, hin'⟩) hs
  refine ⟨t, hx, hrsp, ?_, hrec.kept (not_isReadN_of_write rfl), ?_, hend⟩
  · rw [htrace]; simp [State.wireBytes, direction, operandPayload, commandByte, Instr.slot]
  · rw [htime (by simp [direction])]; simp

/-- The last byte of a list of answers, read off the answers. -/
theorem getLastD_bytes (a : Answer) (as : List Answer) (d : Byte) :
    ((a :: as).map (·.byte)).getLastD d = ((a :: as).getLast (by simp)).byte := by
  rw [List.getLastD_eq_getLast?, List.getLast?_map, List.getLast?_eq_some_getLast (by simp)]
  rfl

/-- Settles O34: the command byte and every byte of the payload are answered. -/
theorem writeNSucceedsOnAPromptLink : Obligations.WriteNSucceedsOnAPromptLink := by
  intro s h reg len a as k b rest ha hd hm hc hr hlen hin hs
  obtain ⟨t, hx, ⟨hrsp, htrace, hrec, htime, hend⟩⟩ := exec_on_promptLink (as := a :: as) rfl ha hd hm hc hr
    (congrArg (· + 1) hlen) hin hs
  refine ⟨t, hx, hrsp, htrace, hrec.kept (not_isReadN_of_write rfl), htime (by simp [direction]), ?_⟩
  rwa [getLastD_bytes] at hend

/-- Settles O35: the command byte and the filler are answered, and `tmp` holds the second answer. -/
theorem read1SucceedsOnAPromptLink : Obligations.Read1SucceedsOnAPromptLink := by
  intro s h reg a a' k b rest ha hd hm hc hr hin hin' hs
  obtain ⟨t, hx, ⟨hrsp, htrace, hrec, _, hend⟩⟩ := exec_on_promptLink (as := [a, a']) rfl ha hd hm hc hr rfl
    (by simpa using ⟨hin, hin'⟩) hs
  refine ⟨t, hx, ?_, htrace, hrec.kept (by rintro ⟨_, _, _, e⟩; cases e), hend⟩
  rw [hrsp, hrec.tmp rfl]
  rfl

/-- The fillers of a read beside the answers to them. -/
theorem replicate_zip_bytes {as : List Answer} {n : Nat} (c : Byte) (h : as.length = n) :
    (List.replicate n c).zip (as.map (·.byte)) = as.map fun a => (c, a.byte) := by
  subst h
  induction as with
  | nil => rfl
  | cons a as ih => simpa [List.replicate_succ] using ih

/-- Settles O36: the command byte and every filler are answered, and the answers to the fillers stand in `BUF`. -/
theorem readNSucceedsOnAPromptLink : Obligations.ReadNSucceedsOnAPromptLink := by
  intro s h reg len a as k b rest ha hd hm hc hr hlen hin hs
  obtain ⟨t, hx, ⟨hrsp, htrace, hrec, _, hend⟩⟩ := exec_on_promptLink (as := a :: as) rfl ha hd hm hc hr
    (congrArg (· + 1) hlen) hin hs
  refine ⟨t, hx, hrsp, ?_, fun i => ?_, getLastD_bytes a as _ ▸ hend⟩
  · have hzip : (s.wireBytes (.readN h reg len)).zip ((a :: as).map (·.byte)) =
        (readCmd reg (s.handle h).invert, a.byte) :: as.map fun x => (0x00, x.byte) :=
      congrArg (_ :: ·) (replicate_zip_bytes filler hlen)
    rw [htrace, hzip]
    rfl
  · have hstored : t.bufByte i = (as.map (·.byte)).getD i (s.bufByte i) := hrec.stored ⟨h, reg, len, rfl⟩ i
    rw [hstored]
    by_cases hi : i < as.length
    · rw [if_pos (hlen ▸ hi), List.getD_eq_getElem (hn := by simpa using hi), List.getD_eq_getElem (hn := by simpa using hi)]
    · rw [if_neg (hlen ▸ hi), List.getD_eq_default (hn := by simpa using hi)]

end Sys2Proof.Machine
end
section
/-!
PROOFS. A `COMMAND` on a completion nobody saw (O40; rules R134 clause (f), R178 case (b)): it waits for nothing, so its six
micro-steps are its whole run.
-/
namespace Sys2Proof.Machine

/-- A micro-step of the tail is its label's, now or after an advance of TIME. -/
theorem tailStep_cases {u : State} {op : Instr} {l : Label} (hp : u.eng.phase = .busy op l) :
    tailStep u = microLabel op l u ∨ ∃ d, tailStep u = microLabel op l (u.timeStep d) := by
  unfold tailStep
  split
  · exact .inl (microStep_busy hp)
  · exact .inr ⟨u.lack, microStep_busy (by simpa using hp)⟩

/-- The micro-steps a `COMMAND` that waits for nothing still takes. -/
def staleRank : Phase → Nat
  | .busy _ .select => 6
  | .busy _ (.send _ _) => 5
  | .busy _ (.sample _) => 4
  | .busy _ (.poll _) => 3
  | .busy _ (.receive _) => 2
  | .busy _ _ => 1
  | .ready => 0

theorem staleRank_le (p : Phase) : staleRank p ≤ 6 := by
  unfold staleRank
  split <;> omega

/-- Where `COMMAND` on the stale flag of the link `p₀` stands: the link `p` and the wire events `es` since then. -/
def StaleAt (p₀ : Spi) (h : Slot) (cmd : Byte) (p : Spi) (es : List WireEvent) : Phase → Prop
  | .ready => p = { p₀ with done := false, xfer := some cmd, armColl := false } ∧ es = [.csLow h, .start cmd, .csHigh h]
  | .busy op l => op = .command h cmd ∧
    match l with
    | .select => p = p₀ ∧ es = []
    | .send .cmd v => v = cmd ∧ p = p₀ ∧ es = [.csLow h]
    | .sample .cmd | .poll .cmd =>
        p = { p₀ with xfer := some cmd, armColl := false } ∧ es = [.csLow h, .start cmd]
    | .receive .cmd =>
        p = { p₀ with xfer := some cmd, armDone := true, armColl := false } ∧ es = [.csLow h, .start cmd]
    | .unselect true =>
        p = { p₀ with done := false, xfer := some cmd, armColl := false } ∧ es = [.csLow h, .start cmd]
    | _ => False

/-- The run of `COMMAND` on the stale flag. -/
structure StaleRun (s : State) (h : Slot) (cmd : Byte) (u : State) : Prop where
  keeps : TransactionKeeps s u
  cur : u.eng.cur = h
  diag : u.diag = s.diag
  place : ∃ es, u.trace = s.trace ++ es ∧ StaleAt s.spi h cmd u.spi es u.eng.phase
  rsp : u.eng.phase = .ready → u.rsp = 0x100#10

/-- The link of O40: a completion was not seen, and nothing is in flight. -/
def Spi.Stale (p : Spi) : Prop :=
  p.Running ∧ p.xfer = none ∧ p.done = true ∧ p.armDone = false ∧ p.coll = false

/-- Without an armed completion and without a collision only `armColl` is left to clear (rule R65). -/
theorem Spi.clearArmed_of_unseen {p : Spi} (had : p.armDone = false) (hc : p.coll = false) :
    p.clearArmed = { p with armColl := false } := by
  simp [Spi.clearArmed, had, hc]

/-- A data write leaves the unseen completion set and starts its transfer (rule R64). -/
theorem Spi.Stale.writeData {p : Spi} (h : p.Stale) (v : Byte) :
    p.writeData v = { p with xfer := some v, armColl := false } ∧ p.writeEvents v = [.start v] := by
  obtain ⟨hr, hx, _, had, hc⟩ := h
  obtain ⟨_, hstart, _⟩ := dataWriteStartsOrCollides p v
  obtain ⟨hw, hev⟩ := hstart hr hx
  exact ⟨by rw [hw, Spi.clearArmed_of_unseen had hc], hev⟩

section
variable {s u : State} {h : Slot} {cmd : Byte} {k b : Nat} {op : Instr} {l : Label}

/-- A micro-step of the path that adds the wire events `fs`, but the last. -/
theorem StaleRun.goesTo {es fs : List WireEvent} (hu : StaleRun s h cmd u) (hb : l.ofBegin = false) (hto : l ≠ .timedOut)
    (htr : u.trace = s.trace ++ es) (hfs : (microLabel op l u).trace = u.trace ++ fs)
    (hp : StaleAt s.spi h cmd (microLabel op l u).spi (es ++ fs) (microLabel op l u).eng.phase)
    (hr : (microLabel op l u).eng.phase = .ready → (microLabel op l u).rsp = 0x100#10) :
    StaleRun s h cmd (microLabel op l u) where
  keeps := hu.keeps.trans (microLabel_transactionKeeps op u hb)
  cur := (microLabel_cur ..).trans hu.cur
  diag := (microLabel_diag _ _ _ (by rintro rfl; cases hb) hto).trans hu.diag
  place := ⟨es ++ fs, by rw [hfs, htr, List.append_assoc], hp⟩
  rsp := hr

theorem StaleRun.micro (hs : s.spi.Stale) (hd : Drives s h k b) (hp : u.eng.phase = .busy op l) (hu : StaleRun s h cmd u) :
    StaleRun s h cmd (microLabel op l u) ∧ staleRank (microLabel op l u).eng.phase < staleRank u.eng.phase := by
  obtain ⟨es, htr, hat⟩ := hu.place
  obtain ⟨_, hh, _⟩ := hu.keeps
  have hdu : Drives u u.eng.cur k b := hu.cur ▸ hd.of_handles hh
  rw [hp] at hat ⊢
  obtain ⟨rfl, hat⟩ := hat
  cases l with
  | select =>
    obtain ⟨hspi, rfl⟩ := hat
    refine ⟨hu.goesTo (fs := [.csLow h]) rfl nofun htr ?_ ⟨rfl, rfl, ?_, rfl⟩ nofun, Nat.lt_succ_self _⟩
    · rw [microLabel, microSelect, select_of_drives hdu, hu.cur]; rfl
    · rw [microLabel_spi]; exact hspi
  | send x v =>
    cases x with
    | byte => exact hat.elim
    | cmd =>
      obtain ⟨rfl, hspi, rfl⟩ := hat
      obtain ⟨hw, hev⟩ := hs.writeData v
      rw [← hspi] at hw hev
      exact ⟨hu.goesTo (fs := [.start v]) rfl nofun htr (by rw [← hev]; rfl) ⟨rfl, hspi ▸ hw, rfl⟩ nofun, Nat.lt_succ_self _⟩
  | sample x =>
    cases x with
    | byte => exact hat.elim
    | cmd =>
      obtain ⟨hspi, rfl⟩ := hat
      exact ⟨hu.goesTo rfl nofun htr (List.append_nil _).symm ⟨rfl, hspi, rfl⟩ nofun, Nat.lt_succ_self _⟩
  | poll x =>
    cases x with
    | byte => exact hat.elim
    | cmd =>
      obtain ⟨hspi, rfl⟩ := hat
      obtain ⟨_, _, hdone, _, hc⟩ := hs
      have hstep : microLabel (.command h cmd) (.poll .cmd) u =
          (u.withSpi u.spi.arm).goto (.command h cmd) (.receive .cmd) := by
        simp [microLabel, microPoll, hspi, hc, hdone]
      refine ⟨hu.goesTo rfl nofun htr (by rw [hstep, List.append_nil]; rfl) ?_ (by rw [hstep]; nofun),
        by rw [hstep]; exact Nat.lt_succ_self _⟩
      rw [hstep]
      refine ⟨rfl, ?_, rfl⟩
      simp [hspi, Spi.arm, hdone, hc]
  | receive x =>
    cases x with
    | byte => exact hat.elim
    | cmd =>
      obtain ⟨hspi, rfl⟩ := hat
      obtain ⟨_, _, _, had, hc⟩ := hs
      refine ⟨hu.goesTo rfl nofun htr (List.append_nil _).symm ⟨rfl, ?_, rfl⟩ nofun, Nat.lt_succ_self _⟩
      rw [microLabel_spi, Label.access, hspi]
      simp [Spi.readData, Spi.clearArmed, had, hc]
  | unselect ok =>
    cases ok with
    | false => exact hat.elim
    | true =>
      obtain ⟨hspi, rfl⟩ := hat
      refine ⟨hu.goesTo (fs := [.csHigh h]) rfl nofun htr ?_ ⟨?_, rfl⟩ fun _ => rfl, Nat.lt_succ_self _⟩
      · rw [microUnselect_of_drives hdu, hu.cur]; rfl
      · rw [microLabel_spi]; exact hspi
  | _ => exact hat.elim

end

/-- While LINK is silent nothing else changes what the run of `COMMAND` on the stale flag has done. -/
theorem staleRun_keeps {s : State} {h : Slot} {cmd : Byte} {k b : Nat} (hs : s.spi.Stale) (hd : Drives s h k b) :
    RunKeeps (fun _ => False) (StaleRun s h cmd) where
  micro _ _ _ hp hu := (hu.micro hs hd hp).1
  link _ _ _ _ _ hL _ := hL.elim
  time _ _ hu := ⟨hu.keeps, hu.cur, hu.diag, hu.place, hu.rsp⟩
  sched _ _ hu := ⟨hu.keeps, hu.cur, hu.diag, hu.place, hu.rsp⟩

theorem StaleRun.tailStep {s u : State} {h : Slot} {cmd : Byte} {k b : Nat} {op : Instr} {l : Label} (hs : s.spi.Stale)
    (hd : Drives s h k b) (hp : u.eng.phase = .busy op l) (hu : StaleRun s h cmd u) :
    StaleRun s h cmd (tailStep u) ∧ staleRank (tailStep u).eng.phase < staleRank u.eng.phase := by
  obtain he | ⟨d, he⟩ := tailStep_cases hp <;> rw [he]
  · exact hu.micro hs hd hp
  · exact StaleRun.micro hs hd (u := u.timeStep d) hp ((staleRun_keeps hs hd).time u d hu)

/-- Settles O40: the run's six micro-steps, whatever TIME does between them. -/
theorem staleCompletionAnswersForAnotherByte : Obligations.StaleCompletionAnswersForAnotherByte := by
  intro s h cmd k b ha hd hm hr hx hdone had hc hL
  have hs : s.spi.Stale := ⟨hr, hx, hdone, had, hc⟩
  obtain ⟨hv, _⟩ := id hd
  have hexec := exec_of_valid (op := .command h cmd) rfl ha hv
  have h0 : StaleRun s h cmd ((s.openOp (.command h cmd)).goto (.command h cmd) .select) :=
    ⟨⟨rfl, rfl, rfl, rfl, rfl, rfl, rfl, rfl⟩, rfl, rfl, ⟨[], (List.append_nil _).symm, rfl, rfl, rfl⟩, nofun⟩
  obtain ⟨u, hu⟩ : ∃ u, u = (s.openOp (.command h cmd)).goto (.command h cmd) .select := ⟨_, rfl⟩
  rw [← hu] at hexec h0
  have hsched : u.sched = s.sched := by rw [hu]; rfl
  have hturns := (staleRun_keeps hs hd).runTurns u.sched (fun r hr => hL r (hsched ▸ hr)) h0
  obtain ⟨hready, hrun⟩ := runTail_of_rank (Q := StaleRun s h cmd) (rank := fun u => staleRank u.eng.phase)
    (fun _ _ _ hp hu => (hu.tailStep hs hd hp).imp id .inr) (tailBudget u.cfg)
    (lt_of_le_of_lt (staleRank_le _) (by unfold tailBudget; omega)) hturns
  have hnext := hexec.trans (complete_of_settled hready)
  obtain ⟨hkeeps, _⟩ := transactionsTouchOnlyTheirOwnPin _ s _ k b rfl ha hd hm hnext
  have hended := exec_ended rfl ha hd hnext
  obtain ⟨es, htr, hat⟩ := hrun.place
  rw [hready] at hat
  obtain ⟨hspi, rfl⟩ := hat
  exact ⟨_, hnext, hrun.rsp hready, hrun.diag, htr, hspi, hended, hkeeps⟩

end Sys2Proof.Machine
end
section
/-!
PROOFS. The second part of O42, and O42: a transaction whose link answers its first bytes in time and is then silent starts
one more byte, and times out (rules R149, R156, R170 clause (b)).
-/
namespace Sys2Proof.Machine

/-! ### Where a silent link leaves a transaction -/

/-- The link while the byte `v`, started on the clean link `p`, is in flight. -/
def Spi.started (p : Spi) (v : Byte) : Spi := { p with xfer := some v }

@[simp] theorem Spi.started_done (p : Spi) (v : Byte) : (p.started v).done = p.done := rfl
@[simp] theorem Spi.started_coll (p : Spi) (v : Byte) : (p.started v).coll = p.coll := rfl

/-- What a transaction has done at a phase since LINK fell silent, with byte `n` of the transaction from `s`, `v`, next: the
link `p`, which was `p₀`, the wire events `es` and the tags `ds`. -/
def SilentAt (s : State) (op : Instr) (i n : Nat) (v : Byte) (p₀ p : Spi) (es : List WireEvent) (ds : List Tag) :
    Phase → Prop
  | .ready => p = p₀.started v ∧ es = [.start v, .csHigh op.slot] ∧ ds = [.timeout]
  | .busy op' l => op' = op ∧
    match l with
    | .load | .settleStart | .settleWait | .send _ _ => SentAt s op i n l ∧ p = p₀ ∧ es = [] ∧ ds = []
    | .sample _ | .poll _ | .clock _ | .timedOut => p = p₀.started v ∧ es = [.start v] ∧ ds = []
    | .unselect false => p = p₀.started v ∧ es = [.start v] ∧ ds = [.timeout]
    | _ => False

/-- The micro-steps to the end when every wait ends at once. -/
def silentRank : Phase → Nat
  | .busy _ .settleStart => 8
  | .busy _ .settleWait | .busy _ .load => 7
  | .busy _ (.send _ _) => 6
  | .busy _ (.sample _) => 5
  | .busy _ (.poll _) => 4
  | .busy _ (.clock _) => 3
  | .busy _ .timedOut => 2
  | .busy _ _ => 1
  | .ready => 0

theorem silentRank_le (p : Phase) : silentRank p ≤ 8 := by
  unfold silentRank
  split <;> omega

/-- The log with the tags `ds`, if a sink is present (rule R151). -/
def State.logged (s : State) (ds : List Tag) : List Tag := if s.cfg.sinkPresent then s.diag ++ ds else s.diag

/-- The run of a transaction from `s` that stood at `w` when LINK fell silent, with byte `n`, `v`, next. -/
structure SilentRun (s : State) (op : Instr) (w : State) (n : Nat) (v : Byte) (u : State) : Prop where
  keeps : TransactionKeeps w u
  cur : u.eng.cur = op.slot
  buf : u.buf = w.buf
  idx : u.eng.idx = w.eng.idx
  place : ∃ es ds, u.trace = w.trace ++ es ∧ u.diag = w.logged ds ∧
    SilentAt s op w.eng.idx n v w.spi u.spi es ds u.eng.phase
  rsp : u.eng.phase = .ready → u.rsp = failureResponse op

/-- The state at which LINK falls silent: the transaction's `n` first bytes are answered, the next is `v`. -/
structure SilentFrom (s : State) (op : Instr) (k b : Nat) (w : State) (n : Nat) (v : Byte) : Prop where
  transaction : isTransaction op = true
  drives : Drives w op.slot k b
  clean : w.spi.Clean
  running : w.spi.Running
  below : n < byteCount op + 1
  next : (s.wireBytes op)[n]? = some v
  payload : direction op = .write → w.buf = s.buf

section
variable {s w u : State} {op op' : Instr} {k b n : Nat} {v : Byte} {l : Label}

/-- A data write on a clean, running link starts its byte (rule R64). -/
theorem Spi.Clean.start {p : Spi} (h : p.Clean) (hr : p.Running) (v : Byte) :
    p.writeData v = p.started v ∧ p.writeEvents v = [.start v] := by
  obtain ⟨hx, _, hc, had, hac⟩ := h
  obtain ⟨_, hstart, _⟩ := dataWriteStartsOrCollides p v
  obtain ⟨hw, hev⟩ := hstart hr hx
  exact ⟨by rw [hw, Spi.clearArmed_of_unseen had hc, ← hac]; rfl, hev⟩

/-- A status read while the byte is in flight sees no flag (rules R61, R133). -/
theorem Spi.Clean.arm_started {p : Spi} (h : p.Clean) (v : Byte) : (p.started v).arm = p.started v := by
  obtain ⟨_, hd, hc, had, hac⟩ := h
  simp [Spi.arm, Spi.started, hd, hc, had, hac]

/-- A micro-step that writes no byte of `BUF` and leaves the loop index, adding wire events and tags. -/
theorem SilentRun.goesTo {es fs : List WireEvent} {ds : List Tag} (hu : SilentRun s op w n v u) (hb : l.ofBegin = false)
    (hst : ∀ r, l ≠ .store r) (hi : (microLabel op l u).eng.idx = u.eng.idx)
    (htr : u.trace = w.trace ++ es) (hfs : (microLabel op l u).trace = u.trace ++ fs)
    (hds : (microLabel op l u).diag = w.logged ds)
    (hp : SilentAt s op w.eng.idx n v w.spi (microLabel op l u).spi (es ++ fs) ds (microLabel op l u).eng.phase)
    (hr : (microLabel op l u).eng.phase = .ready → (microLabel op l u).rsp = failureResponse op) :
    SilentRun s op w n v (microLabel op l u) where
  keeps := hu.keeps.trans (microLabel_transactionKeeps op u hb)
  cur := (microLabel_cur ..).trans hu.cur
  buf := (microLabel_buf _ _ _ hst).trans hu.buf
  idx := hi.trans hu.idx
  place := ⟨es ++ fs, ds, by rw [hfs, htr, List.append_assoc], hds, hp⟩
  rsp := hr

/-- A micro-step that leads on without doing anything. -/
theorem SilentRun.goto {l' : Label} {es : List WireEvent} {ds : List Tag} (hu : SilentRun s op w n v u)
    (htr : u.trace = w.trace ++ es) (hds : u.diag = w.logged ds)
    (hp : SilentAt s op w.eng.idx n v w.spi u.spi es ds (.busy op l')) : SilentRun s op w n v (u.goto op l') :=
  ⟨hu.keeps, hu.cur, hu.buf, hu.idx, ⟨es, ds, htr, hds, hp⟩, nofun⟩

theorem State.emit_logged (hd : u.diag = w.logged []) (hc : u.cfg = w.cfg) (tag : Tag) :
    (u.emit tag).diag = w.logged [tag] := by
  rw [State.emit_diag, hd, hc]
  unfold State.logged
  split <;> simp

theorem SilentRun.micro (hw : SilentFrom s op k b w n v) (hp : u.eng.phase = .busy op' l) (hu : SilentRun s op w n v u) :
    SilentRun s op w n v (microLabel op' l u) ∧
      (silentRank (microLabel op' l u).eng.phase < silentRank u.eng.phase ∨ l = .settleWait ∨ ∃ x, l = .clock x) := by
  obtain ⟨es, ds, htr, hdiag, hat⟩ := hu.place
  obtain ⟨hcfg, hh, _⟩ := hu.keeps
  have hdu : Drives u u.eng.cur k b := hu.cur ▸ hw.drives.of_handles hh
  have hidx := hu.idx
  rw [hp] at hat ⊢
  obtain ⟨rfl, hat⟩ := hat
  cases l with
  | load =>
    obtain ⟨⟨hn, hd, hv⟩, hspi, rfl, rfl⟩ := hat
    have hlt := hw.below
    refine ⟨hu.goto htr hdiag ⟨rfl, ⟨hn, ?_⟩, hspi, rfl, rfl⟩, .inl (Nat.lt_succ_self _)⟩
    rw [hn, wireBytes_payload hd hv (by omega), State.bufByte, State.bufByte, hu.buf, hw.payload hd, hidx]
  | settleStart =>
    obtain ⟨hs, hspi, rfl, rfl⟩ := hat
    exact ⟨hu.goesTo rfl nofun rfl htr (List.append_nil _).symm hdiag ⟨rfl, hs, hspi, rfl, rfl⟩ nofun,
      .inl (Nat.lt_succ_self _)⟩
  | settleWait =>
    obtain ⟨hs, hspi, rfl, rfl⟩ := hat
    obtain ⟨hn, hd⟩ := id hs
    have hlt := hw.below
    refine ⟨?_, .inr (.inl rfl)⟩
    rw [microLabel, microDelayWait_eq_goto]
    split
    · exact hu.goto htr hdiag ⟨rfl, ⟨hn, hn ▸ wireBytes_read hd (by omega) s⟩, hspi, rfl, rfl⟩
    · exact hu.goto htr hdiag ⟨rfl, hs, hspi, rfl, rfl⟩
  | send x v' =>
    obtain ⟨⟨_, hv⟩, hspi, rfl, rfl⟩ := hat
    obtain rfl : v' = v := by rw [hw.next] at hv; injection hv with hv; exact hv.symm
    obtain ⟨hwr, hev⟩ := hw.clean.start hw.running v'
    rw [← hspi] at hwr hev
    exact ⟨hu.goesTo (fs := [.start v']) rfl nofun rfl htr (by rw [← hev]; rfl) hdiag ⟨rfl, hspi ▸ hwr, rfl, rfl⟩ nofun,
      .inl (Nat.lt_succ_self _)⟩
  | sample x =>
    obtain ⟨hspi, rfl, rfl⟩ := hat
    exact ⟨hu.goesTo rfl nofun rfl htr (List.append_nil _).symm hdiag ⟨rfl, hspi, rfl, rfl⟩ nofun,
      .inl (Nat.lt_succ_self _)⟩
  | poll x =>
    obtain ⟨hspi, rfl, rfl⟩ := hat
    obtain ⟨_, hd, hc, _⟩ := hw.clean
    have hself : u.withSpi u.spi.arm = u := by rw [hspi, hw.clean.arm_started, ← hspi]; rfl
    have hstep : microLabel op' (.poll x) u = u.goto op' (.clock x) := by
      simp only [microLabel, microPoll, hself]
      simp [hspi, hd, hc]
    rw [hstep]
    exact ⟨hu.goto htr hdiag ⟨rfl, hspi, rfl, rfl⟩, .inl (Nat.lt_succ_self _)⟩
  | clock x =>
    obtain ⟨hspi, rfl, rfl⟩ := hat
    refine ⟨?_, .inr (.inr ⟨x, rfl⟩)⟩
    rw [microLabel, microClock]
    split <;> exact hu.goto htr hdiag ⟨rfl, hspi, rfl, rfl⟩
  | timedOut =>
    obtain ⟨hspi, rfl, rfl⟩ := hat
    exact ⟨hu.goesTo rfl nofun rfl htr (List.append_nil _).symm (State.emit_logged hdiag hcfg _)
      ⟨rfl, hspi, rfl, rfl⟩ nofun, .inl (Nat.lt_succ_self _)⟩
  | unselect ok =>
    cases ok with
    | true => exact hat.elim
    | false =>
      obtain ⟨hspi, rfl, rfl⟩ := hat
      have hend := microUnselect_of_drives hdu op' false
      refine ⟨hu.goesTo (fs := [.csHigh op'.slot]) rfl nofun ?_ htr ?_ ?_ ⟨?_, rfl, rfl⟩ fun _ => ?_,
        .inl (Nat.lt_succ_self _)⟩
      · rw [hend]; rfl
      · rw [hend, hu.cur]; rfl
      · rw [hend]; exact hdiag
      · rw [microLabel_spi]; exact hspi
      · rw [hend]; exact txnResponse_failed hw.transaction _
  | _ => exact hat.elim

/-- While LINK is silent only the micro-steps change what the run has done. -/
theorem silentRun_keeps (hw : SilentFrom s op k b w n v) : RunKeeps (fun _ => False) (SilentRun s op w n v) where
  micro _ _ _ hp hu := (hu.micro hw hp).1
  link _ _ _ _ _ hL _ := hL.elim
  time _ _ hu := ⟨hu.keeps, hu.cur, hu.buf, hu.idx, hu.place, hu.rsp⟩
  sched _ _ hu := ⟨hu.keeps, hu.cur, hu.buf, hu.idx, hu.place, hu.rsp⟩

@[simp] theorem tailStep_sched (u : State) : (tailStep u).sched = u.sched := by
  unfold Machine.tailStep microStep
  cases u.stalled <;> simp only [if_true, if_false, Bool.false_eq_true] <;> split <;> simp

/-- In the tail TIME ends every wait at once, so every micro-step leads closer to the end (rules R149, R163). -/
theorem SilentRun.tailStep (hw : SilentFrom s op k b w n v) (hcfg : w.cfg.wf = true) (hb : BoundReachable w.cfg)
    (hs : u.sched = []) (hp : u.eng.phase = .busy op' l) (hu : SilentRun s op w n v u) :
    SilentRun s op w n v (tailStep u) ∧ silentRank (tailStep u).eng.phase < silentRank u.eng.phase := by
  have hkeep := silentRun_keeps hw
  refine ⟨tailStep_keeps hkeep.micro hkeep.time hp hu, ?_⟩
  obtain ⟨_, hset, _⟩ := times_of_wf hcfg
  obtain ⟨hc, _⟩ := hu.keeps
  have hns : u.stalled = false := by simp [State.stalled, hs]
  by_cases hl : l = .settleWait ∨ ∃ x, l = .clock x
  · obtain rfl | ⟨x, rfl⟩ := hl
    · rw [tailStep_settleWait hp hns (hc ▸ hset), hp]
      exact Nat.lt_succ_self _
    · rw [tailStep_clock hp hns (hc ▸ hb), hp]
      exact Nat.lt_succ_self _
  · obtain he | ⟨d, he⟩ := tailStep_cases hp <;> rw [he]
    · exact (hu.micro hw hp).2.resolve_right hl
    · exact (SilentRun.micro hw (u := u.timeStep d) hp (hkeep.time u d hu)).2.resolve_right hl

/-- From there on, whatever TIME does, the transaction ends. -/
theorem SilentRun.ends {rest : List Turn} (hw : SilentFrom s op k b w n v) (hcfg : w.cfg.wf = true)
    (hb : BoundReachable w.cfg) (hL : LinkSilent rest) (hf : Fair rest) (hu : SilentRun s op w n v w) :
    (runTail (tailBudget w.cfg) (runTurns rest w)).eng.phase = .ready ∧
    SilentRun s op w n v (runTail (tailBudget w.cfg) (runTurns rest w)) := by
  have hturns := (silentRun_keeps hw).runTurns rest hL hu
  obtain hr | hs := runTurns_fair hf w
  · rw [runTail_ready hr]; exact ⟨hr, hturns⟩
  · obtain ⟨hr, hrun, _⟩ := runTail_of_rank (Q := fun u => SilentRun s op w n v u ∧ u.sched = [])
      (rank := fun u => silentRank u.eng.phase)
      (fun u _ _ hp ⟨hu, hs⟩ => by
        obtain ⟨hkept, hlt⟩ := hu.tailStep hw hcfg hb hs hp
        exact ⟨⟨hkept, by rw [tailStep_sched, hs]⟩, .inr hlt⟩)
      (tailBudget w.cfg) (lt_of_le_of_lt (silentRank_le _) (by unfold tailBudget; omega)) ⟨hturns, hs⟩
    exact ⟨hr, hrun⟩

/-! ### After the answers -/

/-- A transaction that still has bytes to send stands before the next of them. -/
theorem labelAfter_sentAt {as : List Answer} {i : Nat} (hlt : as.length < byteCount op + 1)
    (hi : as ≠ [] → i + 1 = as.length) : SentAt s op i as.length (labelAfter s op as) ∧
    (labelAfter s op as = .load ∨ labelAfter s op as = .settleStart ∨ ∃ x v, labelAfter s op as = .send x v) := by
  cases as with
  | nil => exact ⟨⟨rfl, wireBytes_zero s op⟩, .inr (.inr ⟨_, _, rfl⟩)⟩
  | cons a as =>
    have hi := hi (by simp)
    have hlt : as.length < byteCount op := Nat.lt_of_succ_lt_succ hlt
    obtain rfl : i = as.length := by simpa using hi
    have hl : labelAfter s op (a :: as) = firstLabel op := if_pos hlt
    rw [hl, List.length_cons]
    refine ⟨firstLabel_sentAt hlt, ?_⟩
    have hd := direction_of_byteCount hlt
    unfold firstLabel
    split
    · exact .inr (.inl rfl)
    · exact .inr (.inr ⟨_, _, rfl⟩)
    · exact .inl rfl
    · next hn => exact absurd hn hd

theorem State.logged_nil (w : State) : w.logged [] = w.diag := by
  unfold State.logged
  split <;> simp

/-- The run at the moment LINK falls silent. -/
theorem silentRun_start {as : List Answer} (hwire : OnWire s op as w)
    (hp : w.eng.phase = .busy op (labelAfter s op as)) (hi : as ≠ [] → w.eng.idx + 1 = as.length)
    (hlt : as.length < byteCount op + 1) : SilentRun s op w as.length v w := by
  have hat := labelAfter_sentAt (s := s) hlt hi
  refine ⟨⟨rfl, rfl, rfl, rfl, rfl, rfl, rfl, rfl⟩, hwire.cur, rfl, rfl,
    ⟨[], [], (List.append_nil _).symm, (State.logged_nil w).symm, ?_⟩, fun h => by rw [hp] at h; cases h⟩
  obtain ⟨hs, h | h | ⟨x, y, h⟩⟩ := hat <;> rw [hp, h] <;> rw [h] at hs <;> exact ⟨rfl, hs, rfl, rfl, rfl⟩

/-- The run that O42's second part speaks of ends, from the state at which LINK fell silent. -/
theorem exec_silentRun {as : List Answer} {rest : List Turn} (hop : isTransaction op = true) (ha : Accepts s op)
    (hd : Drives s op.slot k b) (hm : MemoryCanonical s) (hc : s.spi.Clean) (hr : s.spi.Running)
    (hin : ∀ a ∈ as, a.InTime s.cfg) (hv : (s.wireBytes op)[as.length]? = some v)
    (hs : s.sched = answeredTurns s.cfg op as ++ rest) (hL : LinkSilent rest) (hf : Fair rest)
    (hb : BoundReachable s.cfg) :
    ∃ w t, OnWire s op as w ∧ Received s op ((as.drop 1).map (·.byte)) w ∧ exec op s = .next t ∧ t.eng.phase = .ready ∧
      SilentRun s op w as.length v t := by
  obtain ⟨hwf, _⟩ := id ha
  obtain ⟨hvalid, _⟩ := id hd
  have hlt : as.length < byteCount op + 1 := by
    rw [← wireBytes_length hop s]
    exact (List.getElem?_eq_some_iff.mp hv).1
  obtain ⟨w, hrun, hwire, hrec, hp, hi⟩ := answered_runsTo hd hm hwf hc hr hin (by omega)
  obtain ⟨hcfg, hh, _⟩ := hwire.keeps
  have hfrom : SilentFrom s op k b w as.length v :=
    ⟨hop, hd.of_handles hh, by rw [hwire.spi]; exact hc, by rw [hwire.spi]; exact hr, hlt, hv,
      fun hw => hrec.kept (not_isReadN_of_write hw)⟩
  obtain ⟨hready, hend⟩ := (silentRun_start hwire hp hi hlt).ends hfrom (hcfg ▸ hwf) (hcfg ▸ hb) hL hf
  have hset : settled ((s.openOp op).goto op .select) = runTail (tailBudget w.cfg) (runTurns rest w) := by
    rw [settled, State.goto_sched, State.openOp_sched, hs, hrun rest, hcfg]
    rfl
  rw [← hset] at hready hend
  exact ⟨w, _, hwire, hrec, (exec_of_valid hop ha hvalid).trans (complete_of_settled hready), hready, hend⟩

end

/-- Settles O42: the run of a transaction by its label, whatever LINK does, and on a link that falls silent. -/
theorem selectionAlwaysPairs : Obligations.SelectionAlwaysPairs := by
  constructor
  · intro op s t k b hop ha hd hx
    obtain ⟨hready, hrun⟩ := exec_transactionRun hop ha hd hx
    obtain ⟨ok, n, pre, mid, tmp, hended, hrsp, htrace, hpre, hmid⟩ := hrun.over hready
    obtain ⟨_, hnoCs, hcollided⟩ := id hmid.wire
    refine ⟨hended, pre, mid, htrace, hpre, hnoCs, fun m v m' e => ⟨hcollided m v m' e, ?_⟩, hmid.wire.presented_isPrefix,
      fun hr => ⟨fun hok => ?_, fun h reg len e hfail i hi => ?_⟩⟩
    · obtain rfl := hmid.failed_of_collide ⟨v, by simp [e]⟩
      rw [hrsp, txnResponse_failed hop]
    · rw [hrsp] at hok
      obtain rfl := txnResponse_ok hok
      exact hmid.all_presented hop hr
    · subst e
      rw [hrsp] at hfail
      obtain rfl := txnResponse_fail rfl hfail
      exact hmid.kept_of_failed hop hr hi
  · intro op s k b as rest hop ha hd hm hc hr hin hlt hs hL hf hb
    have hv : (s.wireBytes op)[as.length]? = some ((s.wireBytes op).getD as.length 0x00) := by
      rw [List.getD_eq_getElem (hn := hlt), List.getElem?_eq_getElem hlt]
    obtain ⟨w, t, hwire, hrec, hx, hready, hrun⟩ := exec_silentRun hop ha hd hm hc hr hin hv hs hL hf hb
    obtain ⟨hkeeps, hout⟩ := transactionsTouchOnlyTheirOwnPin op s _ k b hop ha hd hm hx
    obtain ⟨hcfg, _⟩ := hwire.keeps
    obtain ⟨es, ds, htrace, hdiag, hat⟩ := hrun.place
    rw [hready] at hat
    obtain ⟨hspi, rfl, rfl⟩ := hat
    refine ⟨t, hx, hrun.rsp hready, ?_, ?_, ?_, ?_, ?_, exec_ended hop ha hd hx, hkeeps, hout⟩
    · rw [hdiag, State.logged, hcfg, hwire.diag]
    · rw [htrace, hwire.trace]
    · rw [hspi]; rfl
    · intro h reg len hop' i
      rw [State.bufByte, hrun.buf, ← List.map_drop]
      exact hrec.stored ⟨h, reg, len, hop'⟩ i
    · intro hn
      rw [hrun.buf]
      exact hrec.kept fun ⟨h, reg, len, e⟩ => hn h reg len e

end Sys2Proof.Machine
end
section
/-!
PROOFS. When TIME is fair every operation answers (O55; rules R163, R168), whatever LINK did: once no turn is left TIME ends
every wait at its next sample and LINK completes nothing, so that each micro-step lowers a rank of the state.
-/
namespace Sys2Proof.Machine

/-! ### The rank of a state of the tail -/

/-- The labels whose micro-step samples the time, and may come back. -/
def Label.waits : Label → Bool
  | .clock _ | .settleWait | .tailWait => true
  | .badCs | .csDir | .csOut | .busPin _ | .ctrl | .status | .select | .load | .send _ _ | .sample _ | .poll _ | .receive _
  | .timedOut | .store _ | .settleStart | .tailStart | .unselect _ => false

/-- From a label on at most so many micro-steps are left, while every wait ends at once and no further status read sees a
completion. -/
def Label.left (c : Config) : Label → Nat
  | .receive _ => 10
  | .store _ => 9
  | .settleStart => 8
  | .select | .load | .settleWait => 7
  | .send _ _ => 6
  | .sample _ => 5
  | .poll _ => 4
  | .clock _ | .tailStart => 3
  | .timedOut | .tailWait => 2
  | .unselect _ => 1
  | l => l.beginLeft c

/-- The micro-steps left, and a further round of the byte loop for a completion that the next access leaves set: one more
status read may see it. -/
def tailRank (u : State) : Nat :=
  match u.eng.phase with
  | .ready => 0
  | .busy _ l => l.left u.cfg + 10 * (l.access u.cfg u.spi).done.toNat

theorem Label.left_of_ofBegin {l : Label} (c : Config) (h : l.ofBegin = true) : l.left c = l.beginLeft c := by
  cases l with
  | badCs | csDir | csOut | busPin | ctrl | status => rfl
  | _ => cases h

theorem Label.left_le (c : Config) (l : Label) : l.left c ≤ c.busOutPins.length + 10 := by
  cases l <;> simp only [Label.left, Label.beginLeft] <;> omega

theorem tailRank_lt_tailBudget (u : State) : tailRank u < tailBudget u.cfg := by
  unfold tailRank tailBudget
  split
  · omega
  · next l _ =>
    have hl := l.left_le u.cfg
    have hd := (l.access u.cfg u.spi).done.toNat_le
    omega

theorem Spi.writeData_done (p : Spi) (v : Byte) : (p.writeData v).done = (p.done && !p.armDone) := by
  obtain ⟨_, h, _⟩ | ⟨_, _, _, h, _⟩ | ⟨_, _, _, _, h, _⟩ := p.writeData_cases v <;> simp [h]

/-- No access of ENGINE sets the completion flag (rules R60 to R65). -/
theorem Label.access_done_le (c : Config) (p : Spi) (l : Label) : (l.access c p).done.toNat ≤ p.done.toNat := by
  have hclear : (p.done && !p.armDone).toNat ≤ p.done.toNat := by
    cases p.done <;> simp [Bool.toNat_le]
  cases l with
  | send x v => rw [Label.access, Spi.writeData_done]; exact hclear
  | receive x => exact hclear
  | _ => exact le_rfl

/-- A move that does a label's access and leads to a label with fewer micro-steps left lowers the rank. -/
theorem tailRank_lt {u w : State} {op op' : Instr} {l l' : Label} (hu : u.eng.phase = .busy op l)
    (hw : w.eng.phase = .busy op' l') (hc : w.cfg = u.cfg) (hspi : w.spi = l.access u.cfg u.spi)
    (hlt : l'.left u.cfg < l.left u.cfg) : tailRank w < tailRank u := by
  have hle := l'.access_done_le u.cfg (l.access u.cfg u.spi)
  simp only [tailRank, hu, hw, hc, hspi]
  omega

/-! ### Every micro-step of the tail lowers it -/

theorem loopHead_left (op : Instr) (s : State) (c : Config) :
    ∃ l, (loopHead op s).eng.phase = .busy op l ∧ l.left c ≤ 8 := by
  obtain ⟨h, _⟩ | ⟨h, _⟩ | ⟨h, _⟩ | ⟨h, _⟩ | ⟨v, h, _⟩ := loopHead_cases op s <;> rw [h] <;>
    exact ⟨_, rfl, by simp [Label.left]⟩

theorem afterExchange_left (op : Instr) (x : Exchange) (r : Byte) (s : State) (c : Config) :
    ∃ l, (afterExchange op x r s).eng.phase = .busy op l ∧ l.left c ≤ 9 := by
  have hloop (s : State) : ∃ l, (loopHead op s).eng.phase = .busy op l ∧ l.left c ≤ 9 :=
    (loopHead_left op s c).imp fun _ h => ⟨h.1, Nat.le_succ_of_le h.2⟩
  cases x with
  | cmd => exact hloop _
  | byte =>
    simp only [afterExchange]
    split
    · exact ⟨_, rfl, by simp [Label.left]⟩
    · exact hloop _
    · split
      · exact hloop _
      · exact ⟨_, rfl, le_rfl⟩

/-- Where a micro-step that does not sample the time leads: to the end, closer to it, or from a status read that sees a
completion to the data read. -/
theorem microLabel_left {op : Instr} {l : Label} (s : State) (hw : l.waits = false) :
    (microLabel op l s).eng.phase = .ready ∨ ∃ l', (microLabel op l s).eng.phase = .busy op l' ∧
      (l'.left s.cfg < l.left s.cfg ∨ ∃ x, l = .poll x ∧ l' = .receive x ∧ s.spi.done = true) := by
  cases hb : l.ofBegin with
  | true =>
    obtain hr | ⟨l', hp, hb', hlt⟩ := microLabel_beginLeft (op := op) s hb
    · exact .inl hr
    · exact .inr ⟨l', hp, .inl (by rwa [Label.left_of_ofBegin _ hb, Label.left_of_ofBegin _ hb'])⟩
  | false =>
    cases l with
    | badCs | csDir | csOut | busPin | ctrl | status => cases hb
    | clock | settleWait | tailWait => cases hw
    | select | load | send | sample | timedOut | settleStart | tailStart =>
      exact .inr ⟨_, rfl, .inl (Nat.lt_succ_self _)⟩
    | poll x =>
      simp only [microLabel, microPoll]
      split
      · exact .inr ⟨_, rfl, .inl (by simp [Label.left])⟩
      · split
        · next hd => exact .inr ⟨_, rfl, .inr ⟨x, rfl, rfl, by simpa using hd⟩⟩
        · exact .inr ⟨_, rfl, .inl (Nat.lt_succ_self _)⟩
    | receive x =>
      obtain ⟨l', hp, hle⟩ := afterExchange_left op x s.spi.rxd (s.withSpi s.spi.readData) s.cfg
      exact .inr ⟨l', hp, .inl (Nat.lt_succ_of_le hle)⟩
    | store r =>
      obtain ⟨l', hp, hle⟩ := loopHead_left op ((s.setBuf s.eng.idx r).setIdx ((s.setBuf s.eng.idx r).eng.idx + 1)) s.cfg
      exact .inr ⟨l', hp, .inl (Nat.lt_succ_of_le hle)⟩
    | unselect ok => exact .inl rfl

theorem microLabel_tailRank {s : State} {op : Instr} {l : Label} (hp : s.eng.phase = .busy op l)
    (hw : l.waits = false) :
    (microLabel op l s).eng.phase = .ready ∨ tailRank (microLabel op l s) < tailRank s := by
  obtain hr | ⟨l', hp', hlt | ⟨x, rfl, rfl, hd⟩⟩ := microLabel_left (op := op) s hw
  · exact .inl hr
  · exact .inr (tailRank_lt hp hp' (microLabel_cfg ..) (microLabel_spi ..) hlt)
  · refine .inr ?_
    simp only [tailRank, hp, hp', microLabel_spi, Label.access, Label.left, Spi.readData, Spi.clearArmed_done,
      Spi.arm_done, Spi.arm_armDone, hd]
    simp

/-- A micro-step of the tail that does not sample the time, also when TIME has stalled. -/
theorem tailStep_tailRank_of_not_waits {u : State} {op : Instr} {l : Label} (hp : u.eng.phase = .busy op l)
    (hw : l.waits = false) : (tailStep u).eng.phase = .ready ∨ tailRank (tailStep u) < tailRank u := by
  obtain he | ⟨d, he⟩ := tailStep_cases hp <;> rw [he]
  · exact microLabel_tailRank hp hw
  · exact microLabel_tailRank (s := u.timeStep d) hp hw

/-- In the tail of a fair run every wait ends at its next sample (rules R132, R133, R163). -/
theorem tailStep_tailRank {u : State} {op : Instr} {l : Label} (hp : u.eng.phase = .busy op l) (hs : u.stalled = false)
    (hc : u.cfg.wf = true) (hb : BoundReachable u.cfg) :
    (tailStep u).eng.phase = .ready ∨ tailRank (tailStep u) < tailRank u := by
  obtain ⟨_, hset, htail⟩ := times_of_wf hc
  cases l with
  | clock x => rw [tailStep_clock hp hs hb]; exact .inr (tailRank_lt hp rfl rfl rfl (Nat.lt_succ_self _))
  | settleWait => rw [tailStep_settleWait hp hs hset]; exact .inr (tailRank_lt hp rfl rfl rfl (Nat.lt_succ_self _))
  | tailWait => rw [tailStep_tailWait hp hs htail]; exact .inr (tailRank_lt hp rfl rfl rfl (Nat.lt_succ_self _))
  | _ => exact tailStep_tailRank_of_not_waits hp rfl

/-! ### The operation and the step -/

/-- An operation under way answers when TIME is fair and the bound can be exceeded (rules R134 clause (c), R163). -/
theorem complete_of_fair {s : State} (hc : s.cfg.wf = true) (hf : Fair s.sched) (hb : BoundReachable s.cfg) :
    ∃ t, complete s = .next t := by
  suffices h : (settled s).eng.phase = .ready from ⟨_, complete_of_settled h⟩
  have hcfg : (runTurns s.sched s).cfg = s.cfg :=
    runTurns_keeps (P := fun u => u.cfg = s.cfg) (fun _ _ _ _ h => (microLabel_cfg ..).trans h) (fun _ _ h => h)
      (fun _ _ h => h) (fun _ _ h => h) _ _ rfl
  rw [settled]
  obtain hr | hs := runTurns_fair hf s
  · rw [runTail_ready hr]; exact hr
  · refine (runTail_of_rank (Q := fun u => u.sched = [] ∧ u.cfg = s.cfg) (rank := tailRank)
      (fun u op l hp ⟨hs, hcfg⟩ => ⟨⟨by rw [tailStep_sched, hs], ?_⟩, ?_⟩) _
      (by rw [← hcfg]; exact tailRank_lt_tailBudget _) ⟨hs, hcfg⟩).1
    · obtain ⟨w, hw, hcw⟩ := tailStep_busy hp
      rw [hw, microLabel_cfg, hcw, hcfg]
    · exact tailStep_tailRank hp (by simp [State.stalled, hs]) (hcfg ▸ hc) (hcfg ▸ hb)

/-- Only the run of an operation hangs (rule R163). -/
theorem opBody_hang {i : Instr} {s : State} (h : opBody i s = .fault .hang) :
    ∃ l, complete (s.goto i l) = .fault .hang := by
  by_cases hi : isTransaction i = true
  · rw [opBody_transaction hi] at h
    split at h
    · exact ⟨_, h⟩
    · cases h
  · cases i with
    | constructPin | constructExplicit | isConnected => cases h
    | begin => exact ⟨_, h⟩
    | command | write1 | writeN | read1 | readN => exact absurd rfl hi

theorem exec_hang {i : Instr} {s : State} (h : exec i s = .fault .hang) :
    ∃ l, complete ((s.openOp i).goto i l) = .fault .hang := by
  rw [exec_eq_atPort, atPort] at h
  split at h
  · split at h
    · cases h
    · split at h
      · cases h
      · exact opBody_hang h
  · cases h

theorem step_hang {s : State} (h : step s = .fault .hang) :
    ∃ u, complete u = .fault .hang ∧ u.cfg = s.cfg ∧ u.sched = s.sched := by
  unfold step at h
  split at h
  · split at h
    · unfold hostAct at h
      split at h
      · cases h
      · cases h
      · cases h
      · unfold acceptWord at h
        split at h
        · obtain ⟨l, hl⟩ := exec_hang h
          exact ⟨_, hl, rfl, rfl⟩
        · cases h
    · exact ⟨s, h, rfl, rfl⟩
  · cases h

/-- Settles O55: a step answers or hangs, and no run of an operation hangs. -/
theorem everyOperationAnswersWhenTimeIsFair : Obligations.EveryOperationAnswersWhenTimeIsFair := by
  intro s hc hf hb
  refine (theOnlyStopIsTheHang s hc).resolve_right fun h => ?_
  obtain ⟨u, hu, hcfg, hsched⟩ := step_hang h
  obtain ⟨t, ht⟩ := complete_of_fair (hcfg ▸ hc) (hsched ▸ hf) (hcfg ▸ hb)
  rw [hu] at ht
  cases ht

end Sys2Proof.Machine
end
section
/-!
PROOFS. A transaction on a silent link whose command byte gets no completion (rules R149, R150, R156): it collides at its
first status read, or it times out. A clean link is one case (O38), a held transfer the other (O39).
-/
namespace Sys2Proof.Machine

/-! ### Where such a transaction stands -/

/-- The tags of a transaction whose data write left the link `q`: a collision has none (rule R150). -/
def Spi.failureTags (q : Spi) : List Tag := if q.coll then [] else [.timeout]

/-- What a transaction with the command byte `v` has done at a phase while LINK is silent, from the link `p₀`: the link `p`,
the wire events `es` and the tags `ds`. -/
def UnansweredAt (p₀ : Spi) (op : Instr) (v : Byte) (p : Spi) (es : List WireEvent) (ds : List Tag) : Phase → Prop
  | .ready => p = (p₀.writeData v).arm ∧ es = [.csLow op.slot] ++ p₀.writeEvents v ++ [.csHigh op.slot] ∧
      ds = (p₀.writeData v).failureTags
  | .busy op' l => op' = op ∧
    match l with
    | .select => p = p₀ ∧ es = [] ∧ ds = []
    | .send .cmd w => w = v ∧ p = p₀ ∧ es = [.csLow op.slot] ∧ ds = []
    | .sample .cmd | .poll .cmd => p = p₀.writeData v ∧ es = [.csLow op.slot] ++ p₀.writeEvents v ∧ ds = []
    | .clock .cmd | .timedOut =>
        (p₀.writeData v).coll = false ∧ p = p₀.writeData v ∧ es = [.csLow op.slot] ++ p₀.writeEvents v ∧ ds = []
    | .unselect false => p = (p₀.writeData v).arm ∧ es = [.csLow op.slot] ++ p₀.writeEvents v ∧
        ds = (p₀.writeData v).failureTags
    | _ => False

/-- The run of such a transaction from `s`. -/
structure UnansweredRun (s : State) (op : Instr) (u : State) : Prop where
  keeps : TransactionKeeps s u
  cur : u.eng.cur = op.slot
  buf : u.buf = s.buf
  place : ∃ es ds, u.trace = s.trace ++ es ∧ u.diag = s.logged ds ∧
    UnansweredAt s.spi op (commandByte op (s.handle op.slot).invert) u.spi es ds u.eng.phase
  rsp : u.eng.phase = .ready → u.rsp = failureResponse op

/-- A status read that sees no flag changes nothing (rule R61). -/
theorem Spi.arm_of_no_flag {p : Spi} (hd : p.done = false) (hc : p.coll = false) : p.arm = p := by
  obtain ⟨ctrl, done, coll, dbl, rxd, xfer, armDone, armColl⟩ := p
  simp_all [Spi.arm]

/-- A completion not set before a data write is not set after it (rule R64). -/
theorem Spi.writeData_not_done {p : Spi} (hd : p.done = false) (v : Byte) : (p.writeData v).done = false := by
  rw [Spi.writeData_done, hd, Bool.false_and]

section
variable {s u : State} {op op' : Instr} {l : Label} {k b : Nat}

/-- A micro-step outside `BEGIN` that writes no byte of `BUF`, adding the wire events `fs`. -/
theorem UnansweredRun.goesTo {es fs : List WireEvent} {ds : List Tag} (hu : UnansweredRun s op u) (hb : l.ofBegin = false)
    (hst : ∀ r, l ≠ .store r) (htr : u.trace = s.trace ++ es) (hfs : (microLabel op l u).trace = u.trace ++ fs)
    (hds : (microLabel op l u).diag = s.logged ds)
    (hp : UnansweredAt s.spi op (commandByte op (s.handle op.slot).invert) (microLabel op l u).spi (es ++ fs) ds
      (microLabel op l u).eng.phase)
    (hr : (microLabel op l u).eng.phase = .ready → (microLabel op l u).rsp = failureResponse op) :
    UnansweredRun s op (microLabel op l u) where
  keeps := hu.keeps.trans (microLabel_transactionKeeps op u hb)
  cur := (microLabel_cur ..).trans hu.cur
  buf := (microLabel_buf _ _ _ hst).trans hu.buf
  place := ⟨es ++ fs, ds, by rw [hfs, htr, List.append_assoc], hds, hp⟩
  rsp := hr

theorem UnansweredRun.micro (hop : isTransaction op = true) (hd : Drives s op.slot k b) (hdone : s.spi.done = false)
    (hp : u.eng.phase = .busy op' l) (hu : UnansweredRun s op u) : UnansweredRun s op (microLabel op' l u) := by
  obtain ⟨es, ds, htr, hdiag, hat⟩ := hu.place
  obtain ⟨hcfg, hh, _⟩ := hu.keeps
  have hdu : Drives u u.eng.cur k b := hu.cur ▸ hd.of_handles hh
  rw [hp] at hat
  obtain ⟨rfl, hat⟩ := hat
  cases l with
  | select =>
    obtain ⟨hspi, rfl, rfl⟩ := hat
    have hx : u.curHandle = s.handle op'.slot := by rw [State.curHandle, hu.cur, handle_of_handles hh]
    have hsel := select_of_drives hdu
    refine hu.goesTo (fs := [.csLow op'.slot]) rfl nofun htr ?_ ?_ ⟨rfl, by rw [hx], ?_, rfl, rfl⟩ nofun
    · rw [microLabel, microSelect, hsel, hu.cur]; rfl
    · rw [microLabel_diag op' .select u nofun nofun, hdiag]
    · rw [microLabel_spi]; exact hspi
  | send x w =>
    cases x with
    | byte => exact hat.elim
    | cmd =>
      obtain ⟨rfl, hspi, rfl, rfl⟩ := hat
      exact hu.goesTo (fs := u.spi.writeEvents _) rfl nofun htr rfl hdiag ⟨rfl, hspi ▸ rfl, hspi ▸ rfl, rfl⟩ nofun
  | sample x =>
    cases x with
    | byte => exact hat.elim
    | cmd =>
      obtain ⟨hspi, rfl, rfl⟩ := hat
      exact hu.goesTo rfl nofun htr (List.append_nil _).symm hdiag ⟨rfl, hspi, List.append_nil _, rfl⟩ nofun
  | poll x =>
    cases x with
    | byte => exact hat.elim
    | cmd =>
      obtain ⟨hspi, rfl, rfl⟩ := hat
      have hd' : u.spi.done = false := by rw [hspi, Spi.writeData_not_done hdone]
      have hstep := pollTestsCollisionThenCompletion u op' .cmd hp
      simp only [microStep_busy hp, hd', Bool.false_eq_true, if_false] at hstep
      refine hu.goesTo rfl nofun htr (by rw [hstep, List.append_nil]; rfl) (by rw [hstep]; exact hdiag) ?_
        (by rw [hstep]; nofun)
      rw [hstep, List.append_nil]
      cases hc : u.spi.coll with
      | true => exact ⟨rfl, congrArg Spi.arm hspi, rfl, by rw [← hspi, Spi.failureTags, hc]; rfl⟩
      | false => exact ⟨rfl, hspi ▸ hc, (Spi.arm_of_no_flag hd' hc).trans hspi, rfl, rfl⟩
  | clock x =>
    cases x with
    | byte => exact hat.elim
    | cmd =>
      obtain ⟨hc, hspi, rfl, rfl⟩ := hat
      rw [microLabel, microClock]
      split
      · exact ⟨hu.keeps, hu.cur, hu.buf, ⟨_, _, htr, hdiag, rfl, hc, hspi, rfl, rfl⟩, nofun⟩
      · exact ⟨hu.keeps, hu.cur, hu.buf, ⟨_, _, htr, hdiag, rfl, hspi, rfl, rfl⟩, nofun⟩
  | timedOut =>
    obtain ⟨hc, hspi, rfl, rfl⟩ := hat
    refine hu.goesTo rfl nofun htr (List.append_nil _).symm (State.emit_logged hdiag hcfg .timeout)
      ⟨rfl, ?_, List.append_nil _, by rw [Spi.failureTags, hc]; rfl⟩ nofun
    rw [Spi.arm_of_no_flag (Spi.writeData_not_done hdone _) hc]
    exact hspi
  | unselect ok =>
    cases ok with
    | true => exact hat.elim
    | false =>
      obtain ⟨hspi, rfl, rfl⟩ := hat
      have hend := microUnselect_of_drives hdu op' false
      refine hu.goesTo (fs := [.csHigh op'.slot]) rfl nofun htr ?_ ?_ ⟨?_, rfl, rfl⟩ fun _ => ?_
      · rw [hend, hu.cur]; rfl
      · rw [hend]; exact hdiag
      · rw [microLabel_spi]; exact hspi
      · rw [hend]; exact txnResponse_failed hop _
  | _ => exact hat.elim

/-- While LINK is silent only the micro-steps change what the run has done. -/
theorem unansweredRun_keeps (hop : isTransaction op = true) (hd : Drives s op.slot k b) (hdone : s.spi.done = false) :
    RunKeeps (fun _ => False) (UnansweredRun s op) where
  micro _ _ _ hp hu := hu.micro hop hd hdone hp
  link _ _ _ _ _ hL _ := hL.elim
  time _ _ hu := ⟨hu.keeps, hu.cur, hu.buf, hu.place, hu.rsp⟩
  sched _ _ hu := ⟨hu.keeps, hu.cur, hu.buf, hu.place, hu.rsp⟩

/-! ### That it ends -/

/-- A transaction whose command byte collided never waits (rule R150). -/
theorem UnansweredRun.not_waits (hu : UnansweredRun s op u)
    (hcoll : (s.spi.writeData (commandByte op (s.handle op.slot).invert)).coll = true)
    (hp : u.eng.phase = .busy op' l) : l.waits = false := by
  obtain ⟨es, ds, _, _, hat⟩ := hu.place
  rw [hp] at hat
  obtain ⟨_, hat⟩ := hat
  cases l with
  | clock x =>
    cases x with
    | byte => exact hat.elim
    | cmd =>
      obtain ⟨hc, _⟩ := hat
      rw [hcoll] at hc
      cases hc
  | settleWait | tailWait => exact hat.elim
  | _ => rfl

/-- It ends by itself after a collision, also when TIME has stalled. -/
theorem UnansweredRun.complete_of_collision (hop : isTransaction op = true) (hd : Drives s op.slot k b)
    (hdone : s.spi.done = false) (hcoll : (s.spi.writeData (commandByte op (s.handle op.slot).invert)).coll = true)
    (hL : LinkSilent u.sched) (hu : UnansweredRun s op u) : ∃ t, complete u = .next t := by
  have hkeep := unansweredRun_keeps hop hd hdone
  have hturns := hkeep.runTurns u.sched hL hu
  obtain ⟨hcfg, _⟩ := hturns.keeps
  obtain ⟨hcfgu, _⟩ := hu.keeps
  have h := (runTail_of_rank (Q := UnansweredRun s op) (rank := tailRank)
    (fun w _ _ hp hw => ⟨tailStep_keeps hkeep.micro hkeep.time hp hw,
      tailStep_tailRank_of_not_waits hp (hw.not_waits hcoll hp)⟩) (tailBudget u.cfg)
    (by rw [hcfgu, ← hcfg]; exact tailRank_lt_tailBudget _) hturns).1
  exact ⟨_, complete_of_settled h⟩

/-- A transaction on a silent link that shows no completion, when its command byte collides or TIME is fair. -/
theorem exec_unanswered (hop : isTransaction op = true) (ha : Accepts s op) (hd : Drives s op.slot k b)
    (hdone : s.spi.done = false) (hL : LinkSilent s.sched)
    (hend : (s.spi.writeData (commandByte op (s.handle op.slot).invert)).coll = true ∨
      Fair s.sched ∧ BoundReachable s.cfg) :
    ∃ t, exec op s = .next t ∧ t.eng.phase = .ready ∧ UnansweredRun s op t := by
  obtain ⟨hwf, _⟩ := id ha
  obtain ⟨hv, _⟩ := id hd
  have h0 : UnansweredRun s op ((s.openOp op).goto op .select) :=
    ⟨⟨rfl, rfl, rfl, rfl, rfl, rfl, rfl, rfl⟩, rfl, rfl,
      ⟨[], [], (List.append_nil _).symm, (State.logged_nil s).symm, rfl, rfl, rfl, rfl⟩, nofun⟩
  have hkeep := unansweredRun_keeps hop hd hdone
  obtain ⟨t, ht⟩ : ∃ t, complete ((s.openOp op).goto op .select) = .next t := by
    obtain hcoll | ⟨hf, hb⟩ := hend
    · exact h0.complete_of_collision hop hd hdone hcoll hL
    · exact complete_of_fair hwf hf hb
  exact ⟨t, (exec_of_valid hop ha hv).trans ht, complete_ready ht,
    complete_keeps_of_links ht h0 hkeep.micro (fun _ r hr _ => absurd hr (hL r)) hkeep.time hkeep.sched⟩

end

/-! ### A clean link and a held transfer -/

/-- On a clean link the data write and the status read leave the byte in flight, or nothing when the bus does not run (rules
R61, R64). -/
theorem Spi.Clean.command {p : Spi} (h : p.Clean) (v : Byte) :
    p.writeData v = { p with xfer := if p.enabled && p.master then some v else none } ∧
    p.writeEvents v = (if p.enabled && p.master then [.start v] else []) ∧ (p.writeData v).coll = false := by
  obtain ⟨hx, hd, hc, had, hac⟩ := id h
  obtain ⟨hn, hw, he⟩ | ⟨h1, h2, _⟩ | ⟨u, _, _, hu, _⟩ := p.writeData_cases v
  · have hoff : (p.enabled && p.master) = false := by simpa using hn
    have hself : p.clearArmed = { p with xfer := none } := by
      rw [Spi.clearArmed_of_unseen had hc, ← hac, ← hx]
    rw [hw, he, hoff, hself]
    exact ⟨rfl, rfl, hc⟩
  · obtain ⟨hw, he⟩ := h.start ⟨h1, h2⟩ v
    rw [hw, he, h1, h2]
    exact ⟨rfl, rfl, hc⟩
  · rw [hx] at hu; cases hu

/-- Settles O38: on a clean link nothing collides, so the transaction ends in the timeout. -/
theorem silentLinkEndsInOneTimeout : Obligations.SilentLinkEndsInOneTimeout := by
  intro op s k b hop ha hd hm hclean hL hf hb
  obtain ⟨_, hdone, _⟩ := id hclean
  obtain ⟨t, hx, hready, hrun⟩ := exec_unanswered hop ha hd hdone hL (.inr ⟨hf, hb⟩)
  obtain ⟨hkeeps, hout⟩ := transactionsTouchOnlyTheirOwnPin op s t k b hop ha hd hm hx
  obtain ⟨es, ds, htrace, hdiag, hat⟩ := hrun.place
  rw [hready] at hat
  obtain ⟨hspi, rfl, rfl⟩ := hat
  obtain ⟨hw, he, hc⟩ := hclean.command (commandByte op (s.handle op.slot).invert)
  refine ⟨t, hx, hrun.rsp hready, ?_, ?_, ?_, hrun.buf, exec_ended hop ha hd hx, hkeeps, hout⟩
  · rw [hdiag, Spi.failureTags, hc]; rfl
  · rw [htrace, he, ← List.append_assoc, ← List.append_assoc]
  · rw [hspi, Spi.arm_of_no_flag (Spi.writeData_not_done hdone _) hc, hw]

/-- While a transfer is held the data write collides, and the status read arms the collision (rules R61, R64). -/
theorem Spi.Held.command {p : Spi} (h : p.Held) (v : Byte) :
    (p.writeData v).coll = true ∧ p.writeEvents v = [.collide v] ∧
    (p.writeData v).arm = { p with coll := true, armDone := false, armColl := true } := by
  obtain ⟨hr, hx, hd, _⟩ := h
  obtain ⟨w, hx⟩ := Option.isSome_iff_exists.mp hx
  obtain ⟨_, _, hcollide⟩ := dataWriteStartsOrCollides p v
  obtain ⟨hw, he⟩ := hcollide w hr hx
  rw [hw]
  refine ⟨rfl, he, ?_⟩
  simp [Spi.arm, Spi.clearArmed, hd]

/-- Settles O39: the command byte collides with the transfer held in flight. -/
theorem heldTransferMakesEveryTransactionCollide : Obligations.HeldTransferMakesEveryTransactionCollide := by
  intro op s k b hop ha hd hm hheld hL
  obtain ⟨hr, hx, hdone, _⟩ := id hheld
  obtain ⟨hcoll, he, harm⟩ := hheld.command (commandByte op (s.handle op.slot).invert)
  obtain ⟨t, hex, hready, hrun⟩ := exec_unanswered hop ha hd hdone hL (.inl hcoll)
  obtain ⟨hkeeps, hout⟩ := transactionsTouchOnlyTheirOwnPin op s t k b hop ha hd hm hex
  obtain ⟨es, ds, htrace, hdiag, hat⟩ := hrun.place
  rw [hready] at hat
  obtain ⟨hspi, rfl, rfl⟩ := hat
  rw [harm] at hspi
  refine ⟨t, hex, hrun.rsp hready, ?_, ?_, hspi, ?_, hrun.buf, exec_ended hop ha hd hex, hkeeps, hout⟩
  · rw [hdiag, Spi.failureTags, hcoll]; exact State.logged_nil s
  · rw [htrace, he]; rfl
  · rw [hspi]; exact ⟨hr, hx, hdone, fun _ => rfl⟩

end Sys2Proof.Machine
end
section
/-!
PROOFS. The tags of an operation (rules R148, R149, R151, R154): `BEGIN` on an invalid handle emits `badCs` and does nothing
else (the first part of O21), and every operation emits at most one tag (O45), so that no other emits `badCs` (O21).
-/
namespace Sys2Proof.Machine

/-! ### `BEGIN` on an invalid handle -/

/-- The run of `BEGIN` on an invalid handle `h`: the diagnostic is its one micro-step, and no register is written. -/
structure BadCsRun (s : State) (h : Slot) (u : State) : Prop where
  before : ∀ op l, u.eng.phase = .busy op l → l = .badCs ∧ BeginKeeps s u
  after : u.eng.phase = .ready → BeginKeeps (s.emit .badCs) u
  written : HasWritten s h ⟨[], [], false, false⟩ u

theorem BadCsRun.start (s : State) (h : Slot) (op : Instr) : BadCsRun s h ((s.openOp op).goto op .badCs) :=
  ⟨fun _ _ e => by cases e; exact ⟨rfl, rfl, rfl, rfl, rfl, rfl, rfl, rfl⟩, nofun,
    ⟨rfl, rfl, (Bool.or_false _).symm, rfl, rfl, (List.append_nil _).symm, fun _ => rfl⟩⟩

theorem BadCsRun.micro {s u : State} {h : Slot} {op : Instr} {l : Label} (hp : u.eng.phase = .busy op l)
    (hu : BadCsRun s h u) : BadCsRun s h (microLabel op l u) := by
  obtain ⟨rfl, hcfg, hh, hbuf, hdiag, hcmd, hhost, htxn⟩ := hu.before op l hp
  obtain ⟨hdir, hout, hlatch, hctrl, hdbl, htrace, hlink⟩ := hu.written
  refine ⟨nofun, fun _ => ⟨hcfg, hh, hbuf, ?_, hcmd, hhost, htxn⟩, ⟨hdir, hout, hlatch, hctrl, hdbl, htrace, hlink⟩⟩
  have hemit : (u.emit .badCs).diag = (s.emit .badCs).diag := by rw [State.emit_diag, State.emit_diag, hdiag, hcfg]
  exact hemit

/-- It ends with the one tag and everything else as it was. -/
theorem badCs_run {s t : State} {op : Instr} (h : Slot) (hc : complete ((s.openOp op).goto op .badCs) = .next t) :
    BeginKeeps (s.emit .badCs) t ∧ HasWritten s h ⟨[], [], false, false⟩ t := by
  have hend := complete_keeps_of_links (P := BadCsRun s h) hc (.start s h op) (fun _ _ _ hp hu => hu.micro hp)
    (fun _ _ hr hu => ⟨hu.before, hu.after, hu.written.linkComplete hr⟩)
    (fun _ _ hu => ⟨hu.before, hu.after, hu.written.time⟩)
    (fun _ _ hu => ⟨hu.before, hu.after, hu.written.sched⟩)
  exact ⟨hend.after (complete_ready hc), hend.written⟩

/-! ### The tags of a run -/

/-- What an operation `i` from `s` to `t` may add to the log. -/
def AddsAtMostOneTag (i : Instr) (s t : State) : Prop :=
  t.diag = s.diag ∨
  (s.cfg.sinkPresent = true ∧ t.diag = s.diag ++ [.badCs] ∧ ∃ h, i = .begin h ∧ (s.handle h).valid = false) ∨
  (s.cfg.sinkPresent = true ∧ t.diag = s.diag ++ [.timeout] ∧ isTransaction i = true ∧ t.rsp = failureResponse i)

/-- Without a sink the log stays as it is (rule R151). -/
theorem State.logged_cases (s : State) (tag : Tag) :
    s.logged [tag] = s.diag ∨ (s.cfg.sinkPresent = true ∧ s.logged [tag] = s.diag ++ [tag]) := by
  unfold State.logged
  split
  · next h => exact .inr ⟨h, rfl⟩
  · exact .inl rfl

/-- No micro-step of `BEGIN` leads to the diagnostic. -/
theorem microLabel_begin_ne_badCs {op op' : Instr} {l : Label} (s : State) (hb : l.ofBegin = true) :
    (microLabel op l s).eng.phase ≠ .busy op' .badCs := by
  have hpin (n : Nat) : nextBusPin s.cfg n ≠ .badCs := by
    obtain h | h := nextBusPin_cases s.cfg n <;> rw [h] <;> nofun
  cases l with
  | badCs | csDir | ctrl | status => nofun
  | csOut =>
    rw [microLabel, microCsOut_phase]
    split
    · nofun
    · exact fun e => hpin 0 (by injection e)
  | busPin n => exact fun e => hpin (n + 1) (by injection e)
  | _ => cases hb

/-- The run of `BEGIN` behind the validity test. -/
structure TaglessBegin (s u : State) : Prop where
  label : ∀ op l, u.eng.phase = .busy op l → l.ofBegin = true ∧ l ≠ .badCs
  diag : u.diag = s.diag

theorem TaglessBegin.micro {s u : State} {op : Instr} {l : Label} (hp : u.eng.phase = .busy op l)
    (h : TaglessBegin s u) : TaglessBegin s (microLabel op l u) := by
  obtain ⟨hb, hne⟩ := h.label op l hp
  refine ⟨fun op' l' e => ?_, (microLabel_diag op l u hne (by rintro rfl; cases hb)).trans h.diag⟩
  obtain hr | ⟨l'', hp', hb'⟩ := microLabel_begin (op := op) u hb
  · rw [hr] at e; cases e
  · have hne' := microLabel_begin_ne_badCs (op := op) (op' := op) u hb
    rw [hp'] at e hne'
    cases e
    exact ⟨hb', fun e => hne' (by rw [e])⟩

/-- `BEGIN` on a valid handle emits no tag (rule R148). -/
theorem begin_run_diag {s t : State} {op : Instr} (hc : complete (s.goto op .csDir) = .next t) : t.diag = s.diag := by
  have h0 : TaglessBegin s (s.goto op .csDir) := ⟨fun _ _ e => by cases e; exact ⟨rfl, nofun⟩, rfl⟩
  exact (complete_keeps (P := TaglessBegin s) (fun _ _ _ hp h => h.micro hp) (fun _ _ h => ⟨h.1, h.2⟩)
    (fun _ _ h => ⟨h.1, h.2⟩) (fun _ _ h => ⟨h.1, h.2⟩) hc h0).diag

/-- The run of the transaction `op`: its timeout, if any, is its last diagnostic and leads to the failure response (rules
R149, R156). -/
structure TransactionTags (s : State) (op : Instr) (u : State) : Prop where
  cfg : u.cfg = s.cfg
  before : ∀ op' l, u.eng.phase = .busy op' l → op' = op ∧ l.ofBegin = false ∧
    (u.diag = s.diag ∨ l = .unselect false ∧ u.diag = s.logged [.timeout])
  after : u.eng.phase = .ready → u.diag = s.diag ∨ u.diag = s.logged [.timeout] ∧ u.rsp = failureResponse op

theorem TransactionTags.micro {s u : State} {op op' : Instr} {l : Label} (hop : isTransaction op = true)
    (hp : u.eng.phase = .busy op' l) (h : TransactionTags s op u) : TransactionTags s op (microLabel op' l u) := by
  obtain ⟨rfl, hb, hdiag⟩ := h.before op' l hp
  have hcfg := (microLabel_cfg op' l u).trans h.cfg
  have hnb : l ≠ .badCs := by rintro rfl; cases hb
  by_cases hto : l = .timedOut
  · subst hto
    have hd : u.diag = s.logged [] := (hdiag.resolve_right nofun).trans (State.logged_nil s).symm
    exact ⟨hcfg, fun _ _ e => by cases e; exact ⟨rfl, rfl, .inr ⟨rfl, State.emit_logged hd h.cfg .timeout⟩⟩, nofun⟩
  have hkept := microLabel_diag op' l u hnb hto
  obtain hdiag | ⟨rfl, hdiag⟩ := hdiag
  · refine ⟨hcfg, fun op'' l' e => ?_, fun _ => .inl (hkept.trans hdiag)⟩
    obtain hr | ⟨l'', hp', hb'⟩ := microLabel_outside_begin (op := op') u hb
    · rw [hr] at e; cases e
    · rw [hp'] at e; cases e; exact ⟨rfl, hb', .inl (hkept.trans hdiag)⟩
  · exact ⟨hcfg, nofun, fun _ => .inr ⟨hkept.trans hdiag, txnResponse_failed hop _⟩⟩

theorem transaction_run_tags {s t : State} {op : Instr} (hop : isTransaction op = true)
    (hc : complete (s.goto op .select) = .next t) : AddsAtMostOneTag op s t := by
  have h0 : TransactionTags s op (s.goto op .select) :=
    ⟨rfl, fun _ _ e => by cases e; exact ⟨rfl, rfl, .inl rfl⟩, nofun⟩
  have hend := complete_keeps (P := TransactionTags s op) (fun _ _ _ hp h => h.micro hop hp)
    (fun _ _ h => ⟨h.1, h.2, h.3⟩) (fun _ _ h => ⟨h.1, h.2, h.3⟩) (fun _ _ h => ⟨h.1, h.2, h.3⟩) hc h0
  obtain hd | ⟨hd, hr⟩ := hend.after (complete_ready hc)
  · exact .inl hd
  · obtain hl | ⟨hsink, hl⟩ := s.logged_cases .timeout
    · exact .inl (hd.trans hl)
    · exact .inr (.inr ⟨hsink, hd.trans hl, hop, hr⟩)

/-! ### The operations -/

/-- `BEGIN`'s body, by the validity of its handle. -/
theorem opBody_begin (h : Slot) (s : State) :
    opBody (.begin h) s = complete (s.goto (.begin h) (if (s.handle h).valid then .csDir else .badCs)) := rfl

/-- Settles O45: a transaction emits its timeout, `BEGIN` its diagnostic, and no other operation takes a micro-step. -/
theorem eachOperationEmitsAtMostOneTag : Obligations.EachOperationEmitsAtMostOneTag := by
  intro i s t hx
  obtain ⟨_, _, ⟨_, rfl⟩ | ⟨_, hb⟩⟩ := exec_next_cases hx
  · exact .inl rfl
  by_cases hi : isTransaction i = true
  · rw [opBody_transaction hi] at hb
    split at hb
    · exact transaction_run_tags (s := s.openOp i) hi hb
    · injection hb with hb; subst hb; exact .inl rfl
  · cases i with
    | constructPin | constructExplicit | isConnected => injection hb with hb; subst hb; exact .inl rfl
    | begin h =>
      rw [opBody_begin, State.openOp_handle] at hb
      cases hv : (s.handle h).valid with
      | true =>
        rw [hv] at hb
        exact .inl (begin_run_diag (s := s.openOp (.begin h)) hb)
      | false =>
        rw [hv] at hb
        obtain ⟨⟨_, _, _, hd, _⟩, _⟩ := badCs_run h hb
        obtain hl | ⟨hsink, hl⟩ := s.logged_cases .badCs
        · exact .inl (hd.trans hl)
        · exact .inr (.inl ⟨hsink, hd.trans hl, h, rfl, hv⟩)
    | command | write1 | writeN | read1 | readN => exact absurd rfl hi

/-- Settles O21: the run of `BEGIN` on an invalid handle, and the tags of every operation. -/
theorem beginOnAnInvalidHandleEmitsBadCs : Obligations.BeginOnAnInvalidHandleEmitsBadCs := by
  constructor
  · intro s h ha hv
    obtain ⟨t, ht⟩ := begin_completes (s.openOp (.begin h)) (.begin h) (l := .badCs) rfl
    have hx : exec (.begin h) s = .next t := by
      rw [exec_of_accepts ha, opBody_begin, State.openOp_handle, hv]
      exact ht
    obtain ⟨⟨hcfg, hh, hbuf, hdiag, hcmd, hhost, htxn⟩, hw⟩ := badCs_run h ht
    exact ⟨t, hx, begin_run_void rfl ht, hdiag, hw.out, hw.dir, hw.ctrl, hw.dbl, hw.latch.trans (Bool.or_false _), hh, hbuf,
      hcfg, hw.trace.trans (List.append_nil _), htxn, complete_ready ht, hcmd, hhost, hw.link⟩
  · intro i s t hx hbad
    obtain h | ⟨_, _, h⟩ | ⟨_, h, _⟩ := eachOperationEmitsAtMostOneTag i s t hx
    · exact absurd (hbad.symm.trans h) (by simp)
    · exact h
    · exact absurd (hbad.symm.trans h) (by simp)

end Sys2Proof.Machine
end
section
/-!
PROOFS. The sentinel of `READ1` (O41; rules R169, R180): two runs from one state, on a prompt link and on a silent one.
-/
namespace Sys2Proof.Machine

/-- TP with one handle, constructed and valid, on an initialised bus with a clean link, and the turns `ts` to come. -/
def oneHandle (ts : List Turn) : State :=
  { State.reset.setHandle 0 ⟨true, some Config.bankB, 2, true, false⟩ with
    busInit := true, spi := { Spi.reset with ctrl := ctrlWord Config.tp, dbl := true }, sched := ts }

theorem oneHandle_accepts (ts : List Turn) : Accepts (oneHandle ts) (.read1 0 0x10) :=
  ⟨(by decide : Config.tp.wf = true), rfl, rfl⟩

theorem oneHandle_drives (ts : List Turn) : Drives (oneHandle ts) 0 Config.bankB 2 := ⟨rfl, rfl, rfl, by decide⟩

theorem oneHandle_canonical (ts : List Turn) : MemoryCanonical (oneHandle ts) := ⟨rfl, rfl, rfl⟩

theorem oneHandle_clean (ts : List Turn) : (oneHandle ts).spi.Clean := ⟨rfl, rfl, rfl, rfl, rfl⟩

theorem oneHandle_running (ts : List Turn) : (oneHandle ts).spi.Running := by
  obtain ⟨_, h6, _, h4, _⟩ := ctrlWord_bits Config.tp
  exact ⟨h6, h4⟩

/-- A link that completes each transfer before the first status read, with the bytes 0x00 and 0xFF. -/
def allOnesTurns : List Turn := promptTurns Config.tp (.read1 0 0x10) [⟨[], [], 0x00⟩, ⟨[], [], 0xFF⟩]

/-- Settles O41: O35 on the link that answers 0xFF, O38 on the one that is silent. -/
theorem sentinelDoesNotTellFailureFromData : Obligations.SentinelDoesNotTellFailureFromData := by
  have hin (r : Byte) : Answer.InTime Config.tp ⟨[], [], r⟩ := Nat.zero_le _
  obtain ⟨t, hx, hrsp, htrace, _, _, _, hdiag, _⟩ := read1SucceedsOnAPromptLink (oneHandle allOnesTurns) 0 0x10
    ⟨[], [], 0x00⟩ ⟨[], [], 0xFF⟩ Config.bankB 2 [] (oneHandle_accepts _) (oneHandle_drives _) (oneHandle_canonical _)
    (oneHandle_clean _) (oneHandle_running _) (hin _) (hin _) (List.append_nil _).symm
  obtain ⟨t', hx', hrsp', hdiag', htrace', _⟩ := silentLinkEndsInOneTimeout (.read1 0 0x10) (oneHandle []) Config.bankB 2 rfl
    (oneHandle_accepts _) (oneHandle_drives _) (oneHandle_canonical _) (oneHandle_clean _) nofun nofun
    (by unfold BoundReachable; decide)
  refine ⟨oneHandle allOnesTurns, [], t, t', rfl, rfl, rfl, hx, hx', hrsp, hrsp', ?_, hdiag, fun tx r h => ?_, hdiag'⟩
  · rw [htrace]
    simp [exchangeEvents]
  · have hempty : (oneHandle []).trace = [] := rfl
    rw [htrace', hempty] at h
    split at h <;> simp at h

end Sys2Proof.Machine
end
section
/-!
PROOFS. The port straight after reset (O60; rules R172, R173), from the port's rule on every word (O6).
-/
namespace Sys2Proof.Machine

/-- Rule R104 clauses (b), (d) and (e) where no handle is constructed: only a constructor on an existing slot is legal. -/
theorem illegal_eq_false_iff_of_unconstructed {s : State} {i : Instr} (hu : (s.handle i.slot).constructed = false) :
    s.illegal i = false ↔ i.slot.toNat < s.cfg.nHandles ∧ i.isConstructor = true := by
  simp [State.illegal, Instr.wellFormed, hu]

/-- Settles O60: an unconstructed slot leaves the constructors alone legal, and O6 gives the answer to every other word. -/
theorem onlyConstructorsAreAcceptedAfterReset : Obligations.OnlyConstructorsAreAcceptedAfterReset := by
  intro s w hs hreset hw hh
  obtain ⟨hun, _, _, _, _, _, _, hready, _⟩ := hreset
  have hlegal (i : Instr) : State.illegal { s with host := hs, cmd := w } i = false ↔
      i.slot.toNat < s.cfg.nHandles ∧ i.isConstructor = true :=
    illegal_eq_false_iff_of_unconstructed (hun i.slot)
  obtain ⟨hill, hacc⟩ := illegalWordWritesOnlyTheResponse s w hs hw hready hh
  refine ⟨fun hnone => hill (by_contra fun hn => ?_), fun i _ hcon hslot => ⟨hw, hready, (hlegal i).mpr ⟨hslot, hcon⟩⟩⟩
  obtain ⟨i, hd, _, _, hi⟩ := hacc hn
  obtain ⟨hslot, hcon⟩ := (hlegal i).mp hi
  exact absurd hslot (hnone i hd hcon).not_gt

end Sys2Proof.Machine
end
